-- ==== Sys2Proof/Word.lean ====
section
/-!
DEFINITION. The word types of the hardware (00_scope.md R8, R9, R12): 32-bit register values and
addresses, 16-bit parcels, bytes; register numbers as bounded naturals (10_state.md R20, R23).
-/

namespace Sys2Proof

/-- A register value, an address or a pc value: 32 bits, all arithmetic modulo 2^32 (00 R12). -/
abbrev Word := BitVec 32

/-- A byte of memory (10 R31). -/
abbrev Byte := BitVec 8

/-- A 16-bit unit of instruction memory, bit 0 least significant (00 R9, R18). -/
abbrev Parcel := BitVec 16

/-- The number of a general register, x0 to x15 (10 R20). -/
abbrev RegIdx := Fin 16

/-- The value of a 3-bit register field, which names x(8 + n) (10 R23). -/
abbrev CReg := Fin 8

/-- `inst[hi:lo]`: the unsigned integer formed by bits `hi` down to `lo` of a parcel (00 R9). The
conditions of well-formedness and of the statements read a parcel through this; the decoder has
field readers of its own. -/
def slice (p : Parcel) (hi lo : Nat) : Nat := p.toNat / 2 ^ lo % 2 ^ (hi + 1 - lo)

end Sys2Proof
end

