-- ==== Sys2Proof/Machine/Operands.lean ====
section
/-!
DEFINITION. The operand forms: the register of a 3-bit field (10_state.md R23), the scaling and
extension of every immediate (00_scope.md R10, R13; 30_encoding.md R83 to R93), effective addresses and
jump targets.
-/

namespace Sys2Proof.Machine

/-- x(8 + n) (10 R23). -/
def cregIdx (r : CReg) : RegIdx := ⟨8 + r.val, by omega⟩

/-- x1, the link register (10 R22). -/
def linkReg : RegIdx := 1

/-- x2, the stack pointer (10 R22). -/
def stackReg : RegIdx := 2

/-- nzuimm of C.ADDI4SPN from nzuimm[9:2]: scaled by 4, zero-extended (30 R84). -/
def nzuimmAddi4spn (imm : BitVec 8) : Word := (imm ++ 0#2).setWidth 32

/-- uimm of C.LW and C.SW from uimm[6:2]: scaled by 4, zero-extended (30 R85). -/
def uimmLwSw (imm : BitVec 5) : Word := (imm ++ 0#2).setWidth 32

/-- imm of C.ADDI, C.LI and C.ANDI from imm[5:0]: sign-extended (30 R86). -/
def immSigned6 (imm : BitVec 6) : Word := imm.signExtend 32

/-- nzimm of C.ADDI16SP from nzimm[9:4]: scaled by 16, sign-extended (30 R87). -/
def nzimmAddi16sp (imm : BitVec 6) : Word := (imm ++ 0#4).signExtend 32

/-- nzimm of C.LUI from nzimm[17:12]: twelve zero bits below, sign-extended (30 R88). -/
def nzimmLui (imm : BitVec 6) : Word := (imm ++ 0#12).signExtend 32

/-- The offset of C.JAL and C.J from imm[11:1]: scaled by 2, sign-extended (30 R89). -/
def offsetJump (imm : BitVec 11) : Word := (imm ++ 0#1).signExtend 32

/-- The offset of C.BEQZ and C.BNEZ from imm[8:1]: scaled by 2, sign-extended (30 R90). -/
def offsetBranch (imm : BitVec 8) : Word := (imm ++ 0#1).signExtend 32

/-- uimm of C.LWSP and C.SWSP from uimm[7:2]: scaled by 4, zero-extended (30 R91, R92). -/
def uimmSp (imm : BitVec 6) : Word := (imm ++ 0#2).setWidth 32

/-- `base + offset` modulo 2^32 (20 R40). -/
def effAddr (base offset : Word) : Word := base + offset

/-- The target of C.JR and C.JALR: bit 0 of the register value cleared (42 R183, R187). -/
def jumpTarget (v : Word) : Word := v &&& 0xFFFFFFFE

end Sys2Proof.Machine
end

