-- ==== Sys2Proof/Syntax.lean ====
section
/-!
DEFINITION. The instructions: one constructor for each of the 72 rows of spec/opcode_table.json, in the
table's order. Operands are what 30_encoding.md R84 to R94 assemble, before scaling and extension:
a register number, or the named immediate bits from the highest named down to the lowest.
A row that raises `IllegalInstruction` or is refused carries the whole parcel, because the exception's
information is the parcel (60_exceptions.md R210) and no field of it is decoded (log 16).
-/

namespace Sys2Proof

/-- One constructor per row of spec/opcode_table.json (30 R118). -/
inductive Instr where
  /-- C.ILLEGAL: the all-zero parcel (30 R104, 40 R120). -/
  | cIllegal
  /-- C.ADDI4SPN.RES: nzuimm = 0 with rd' not 0 (30 R105). -/
  | cAddi4spnRes (parcel : Parcel)
  /-- C.ADDI4SPN rd', sp, nzuimm; `nzuimm` holds nzuimm[9:2] (40 R121, 30 R84). -/
  | cAddi4spn (rd : CReg) (nzuimm : BitVec 8)
  /-- C.FLD: the slot of an absent extension (40 R125, 30 R109). -/
  | cFld (parcel : Parcel)
  /-- C.LW rd', uimm(rs1'); `uimm` holds uimm[6:2] (40 R122, 30 R85). -/
  | cLw (rd rs1 : CReg) (uimm : BitVec 5)
  /-- C.FLW: the slot of an absent extension (40 R125, 30 R109). -/
  | cFlw (parcel : Parcel)
  /-- Q0.RESERVED: quadrant 0, funct3 100 (40 R124, 30 R105). -/
  | q0Reserved (parcel : Parcel)
  /-- C.FSD: the slot of an absent extension (40 R125, 30 R109). -/
  | cFsd (parcel : Parcel)
  /-- C.SW rs2', uimm(rs1'); `uimm` holds uimm[6:2] (40 R123, 30 R85). -/
  | cSw (rs2 rs1 : CReg) (uimm : BitVec 5)
  /-- C.FSW: the slot of an absent extension (40 R125, 30 R109). -/
  | cFsw (parcel : Parcel)
  /-- C.NOP (41 R140). -/
  | cNop
  /-- C.NOP.HINT: `nzimm` holds nzimm[5:0], not 0 (41 R156, 30 R107 group 1). -/
  | cNopHint (nzimm : BitVec 6)
  /-- C.ADDI rd, nzimm; `nzimm` holds nzimm[5:0] (41 R141, 30 R86). -/
  | cAddi (rd : RegIdx) (nzimm : BitVec 6)
  /-- C.ADDI.HINT: nzimm = 0 (41 R156, 30 R107 group 2). -/
  | cAddiHint (rd : RegIdx)
  /-- C.ADDI.RV32E: rd names x16 to x31 (30 R108). -/
  | cAddiRv32e (parcel : Parcel)
  /-- C.JAL offset; `offset` holds imm[11:1] (41 R142, 30 R89). -/
  | cJal (offset : BitVec 11)
  /-- C.LI rd, imm; `imm` holds imm[5:0] (41 R143, 30 R86). -/
  | cLi (rd : RegIdx) (imm : BitVec 6)
  /-- C.LI.HINT: rd = 0 (41 R156, 30 R107 group 3). -/
  | cLiHint (imm : BitVec 6)
  /-- C.LI.RV32E: rd names x16 to x31 (30 R108). -/
  | cLiRv32e (parcel : Parcel)
  /-- C.ADDI16SP.RES: the parcel 0x6101 (41 R157, 30 R105). -/
  | cAddi16spRes
  /-- C.ADDI16SP sp, nzimm; `nzimm` holds nzimm[9:4] (41 R144, 30 R87). -/
  | cAddi16sp (nzimm : BitVec 6)
  /-- C.LUI.RES: nzimm = 0, rd not 2 (41 R157, 30 R105). -/
  | cLuiRes (parcel : Parcel)
  /-- C.LUI rd, nzimm; `nzimm` holds nzimm[17:12] (41 R145, 30 R88). -/
  | cLui (rd : RegIdx) (nzimm : BitVec 6)
  /-- C.LUI.HINT: rd = 0, nzimm not 0 (41 R156, 30 R107 group 4). -/
  | cLuiHint (nzimm : BitVec 6)
  /-- C.LUI.RV32E: rd names x16 to x31 (30 R108). -/
  | cLuiRv32e (parcel : Parcel)
  /-- C.SRLI rd', shamt (41 R146, 30 R93). -/
  | cSrli (rd : CReg) (shamt : BitVec 5)
  /-- C.SRLI64.HINT (41 R156, 30 R107 group 5). -/
  | cSrli64Hint (rd : CReg)
  /-- C.SRLI.CUSTOM: inst[12] = 1 (41 R158, 30 R106). -/
  | cSrliCustom (parcel : Parcel)
  /-- C.SRAI rd', shamt (41 R147, 30 R93). -/
  | cSrai (rd : CReg) (shamt : BitVec 5)
  /-- C.SRAI64.HINT (41 R156, 30 R107 group 6). -/
  | cSrai64Hint (rd : CReg)
  /-- C.SRAI.CUSTOM: inst[12] = 1 (41 R158, 30 R106). -/
  | cSraiCustom (parcel : Parcel)
  /-- C.ANDI rd', imm; `imm` holds imm[5:0] (41 R148, 30 R86). -/
  | cAndi (rd : CReg) (imm : BitVec 6)
  /-- C.SUB rd', rs2' (41 R149). -/
  | cSub (rd rs2 : CReg)
  /-- C.XOR rd', rs2' (41 R150). -/
  | cXor (rd rs2 : CReg)
  /-- C.OR rd', rs2' (41 R151). -/
  | cOr (rd rs2 : CReg)
  /-- C.AND rd', rs2' (41 R152). -/
  | cAnd (rd rs2 : CReg)
  /-- C.SUBW.RES: RV32 RES (41 R157, 30 R105). -/
  | cSubwRes (parcel : Parcel)
  /-- C.ADDW.RES: RV32 RES (41 R157, 30 R105). -/
  | cAddwRes (parcel : Parcel)
  /-- Q1.RESERVED.10 (41 R157, 30 R105). -/
  | q1Reserved10 (parcel : Parcel)
  /-- Q1.RESERVED.11 (41 R157, 30 R105). -/
  | q1Reserved11 (parcel : Parcel)
  /-- C.J offset; `offset` holds imm[11:1] (41 R153, 30 R89). -/
  | cJ (offset : BitVec 11)
  /-- C.BEQZ rs1', offset; `offset` holds imm[8:1] (41 R154, 30 R90). -/
  | cBeqz (rs1 : CReg) (offset : BitVec 8)
  /-- C.BNEZ rs1', offset; `offset` holds imm[8:1] (41 R155, 30 R90). -/
  | cBnez (rs1 : CReg) (offset : BitVec 8)
  /-- C.SLLI.CUSTOM: inst[12] = 1 (42 R192, 30 R106). -/
  | cSlliCustom (parcel : Parcel)
  /-- C.SLLI rd, shamt (42 R180, 30 R93). -/
  | cSlli (rd : RegIdx) (shamt : BitVec 5)
  /-- C.SLLI.HINT: rd = 0 (42 R189, 30 R107 group 7). -/
  | cSlliHint (shamt : BitVec 5)
  /-- C.SLLI64.HINT (42 R189, 30 R107 group 8). -/
  | cSlli64Hint (rd : RegIdx)
  /-- C.SLLI.RV32E: rd names x16 to x31 (30 R108). -/
  | cSlliRv32e (parcel : Parcel)
  /-- C.FLDSP: the slot of an absent extension (42 R182, 30 R109). -/
  | cFldsp (parcel : Parcel)
  /-- C.LWSP rd, uimm(sp); `uimm` holds uimm[7:2] (42 R181, 30 R91). -/
  | cLwsp (rd : RegIdx) (uimm : BitVec 6)
  /-- C.LWSP.RES: rd = 0 (42 R191, 30 R105). -/
  | cLwspRes (parcel : Parcel)
  /-- C.LWSP.RV32E: rd names x16 to x31 (30 R108). -/
  | cLwspRv32e (parcel : Parcel)
  /-- C.FLWSP: the slot of an absent extension (42 R182, 30 R109). -/
  | cFlwsp (parcel : Parcel)
  /-- C.JR.RES: the parcel 0x8002 (42 R191, 30 R105). -/
  | cJrRes
  /-- C.JR rs1 (42 R183). -/
  | cJr (rs1 : RegIdx)
  /-- C.JR.RV32E: rs1 names x16 to x31 (30 R108). -/
  | cJrRv32e (parcel : Parcel)
  /-- C.MV rd, rs2 (42 R184). -/
  | cMv (rd rs2 : RegIdx)
  /-- C.MV.HINT: rd = 0 (42 R189, 30 R107 group 9). -/
  | cMvHint (rs2 : RegIdx)
  /-- C.MV.RV32E.rd: rd names x16 to x31 (30 R108). -/
  | cMvRv32eRd (parcel : Parcel)
  /-- C.MV.RV32E.rs2: rs2 names x16 to x31 (30 R108). -/
  | cMvRv32eRs2 (parcel : Parcel)
  /-- C.EBREAK (42 R186). -/
  | cEbreak
  /-- C.JALR rs1 (42 R187). -/
  | cJalr (rs1 : RegIdx)
  /-- C.JALR.RV32E: rs1 names x16 to x31 (30 R108). -/
  | cJalrRv32e (parcel : Parcel)
  /-- C.ADD rd, rs2 (42 R188). -/
  | cAdd (rd rs2 : RegIdx)
  /-- C.ADD.HINT: rd = 0 (42 R189, 30 R107 group 10). -/
  | cAddHint (rs2 : RegIdx)
  /-- C.ADD.RV32E.rd: rd names x16 to x31 (30 R108). -/
  | cAddRv32eRd (parcel : Parcel)
  /-- C.ADD.RV32E.rs2: rs2 names x16 to x31 (30 R108). -/
  | cAddRv32eRs2 (parcel : Parcel)
  /-- C.FSDSP: the slot of an absent extension (42 R182, 30 R109). -/
  | cFsdsp (parcel : Parcel)
  /-- C.SWSP rs2, uimm(sp); `uimm` holds uimm[7:2] (42 R190, 30 R92). -/
  | cSwsp (rs2 : RegIdx) (uimm : BitVec 6)
  /-- C.SWSP.RV32E: rs2 names x16 to x31 (30 R108). -/
  | cSwspRv32e (parcel : Parcel)
  /-- C.FSWSP: the slot of an absent extension (42 R182, 30 R109). -/
  | cFswsp (parcel : Parcel)
  /-- WIDE: inst[1:0] = 11, the first parcel of an instruction wider than 16 bits (30 R70, R111). -/
  | wide (parcel : Parcel)
  deriving DecidableEq, Repr

end Sys2Proof
end

