-- ==== Sys2Proof/Decode.lean ====
section
/-!
DEFINITION. Reading a parcel as an instruction (30_encoding.md R70, R71, R84 to R94, R100 to R103), and
after it the encoder, written from the same tables. Decoding is total: every one of the 65,536 parcels
is one row of spec/opcode_table.json (30 R118). `decodeBytes` reads the parcel from bytes in the
hardware's order (20_memory.md R41) and rejects by name when there are too few.
-/

namespace Sys2Proof

/-! ## Fields of a parcel (30 R71, R73 to R82) -/

/-- The quadrant, inst[1:0] (30 R71). -/
def quadrantOf (p : Parcel) : BitVec 2 := p.extractLsb' 0 2

/-- funct3, inst[15:13] (30 R71). -/
def funct3Of (p : Parcel) : BitVec 3 := p.extractLsb' 13 3

/-- inst[11:7], the 5-bit register field of formats CI and CR (30 R77, R81). -/
def regFieldHigh (p : Parcel) : BitVec 5 := p.extractLsb' 7 5

/-- inst[6:2], the 5-bit register field of formats CR and CSS (30 R81, R82), the low immediate bits of
format CI (30 R77). -/
def regFieldLow (p : Parcel) : BitVec 5 := p.extractLsb' 2 5

/-- A 5-bit field names one of x16 to x31, which do not exist (30 R108). -/
def namesAbsentReg (field : BitVec 5) : Bool := decide (16 ≤ field.toNat)

/-- The register a 5-bit field below 16 names (30 R94). -/
def regOfField (field : BitVec 5) : RegIdx := Fin.ofNat 16 field.toNat

/-- inst[9:7], a 3-bit register field (30 R75, R79, R80). -/
def cregHigh (p : Parcel) : CReg := Fin.ofNat 8 (p.extractLsb' 7 3).toNat

/-- inst[4:2], a 3-bit register field (30 R74 to R76, R80). -/
def cregLow (p : Parcel) : CReg := Fin.ofNat 8 (p.extractLsb' 2 3).toNat

/-! ## Immediates, from the highest named bit down to the lowest (30 R84 to R93) -/

/-- nzuimm[9:2] of C.ADDI4SPN: inst[10:7], inst[12:11], inst[5], inst[6] (30 R84). -/
def immAddi4spn (p : Parcel) : BitVec 8 :=
  p.extractLsb' 7 4 ++ p.extractLsb' 11 2 ++ p.extractLsb' 5 1 ++ p.extractLsb' 6 1

/-- uimm[6:2] of C.LW and C.SW: inst[5], inst[12:10], inst[6] (30 R85). -/
def immLwSw (p : Parcel) : BitVec 5 :=
  p.extractLsb' 5 1 ++ p.extractLsb' 10 3 ++ p.extractLsb' 6 1

/-- The 6-bit field inst[12], inst[6:2] of C.NOP, C.ADDI, C.LI, C.ANDI and C.LUI (30 R86, R88). -/
def immSix (p : Parcel) : BitVec 6 := p.extractLsb' 12 1 ++ p.extractLsb' 2 5

/-- nzimm[9:4] of C.ADDI16SP: inst[12], inst[4:3], inst[5], inst[2], inst[6] (30 R87). -/
def immAddi16sp (p : Parcel) : BitVec 6 :=
  p.extractLsb' 12 1 ++ p.extractLsb' 3 2 ++ p.extractLsb' 5 1 ++ p.extractLsb' 2 1 ++ p.extractLsb' 6 1

/-- imm[11:1] of C.JAL and C.J: inst[12], inst[8], inst[10:9], inst[6], inst[7], inst[2], inst[11],
inst[5:3] (30 R89). -/
def immJump (p : Parcel) : BitVec 11 :=
  p.extractLsb' 12 1 ++ p.extractLsb' 8 1 ++ p.extractLsb' 9 2 ++ p.extractLsb' 6 1 ++
    p.extractLsb' 7 1 ++ p.extractLsb' 2 1 ++ p.extractLsb' 11 1 ++ p.extractLsb' 3 3

/-- imm[8:1] of C.BEQZ and C.BNEZ: inst[12], inst[6:5], inst[2], inst[11:10], inst[4:3] (30 R90). -/
def immBranch (p : Parcel) : BitVec 8 :=
  p.extractLsb' 12 1 ++ p.extractLsb' 5 2 ++ p.extractLsb' 2 1 ++ p.extractLsb' 10 2 ++ p.extractLsb' 3 2

/-- uimm[7:2] of C.LWSP: inst[3:2], inst[12], inst[6:4] (30 R91). -/
def immLwsp (p : Parcel) : BitVec 6 :=
  p.extractLsb' 2 2 ++ p.extractLsb' 12 1 ++ p.extractLsb' 4 3

/-- uimm[7:2] of C.SWSP: inst[8:7], inst[12:9] (30 R92). -/
def immSwsp (p : Parcel) : BitVec 6 := p.extractLsb' 7 2 ++ p.extractLsb' 9 4

/-! ## The decode procedure (30 R103): the cell by quadrant and funct3, then the row's conditions -/

/-- Quadrant 0, funct3 000: the illegal parcel, C.ADDI4SPN and its RES form (30 R100, R104, R105). -/
def decodeAddi4spn (p : Parcel) : Instr :=
  if p = 0 then .cIllegal
  else if immAddi4spn p = 0 then .cAddi4spnRes p
  else .cAddi4spn (cregLow p) (immAddi4spn p)

/-- Quadrant 0, Table 18.5 (30 R100). -/
def decodeQuadrant0 (p : Parcel) : Instr :=
  if funct3Of p = 0b000 then decodeAddi4spn p
  else if funct3Of p = 0b001 then .cFld p
  else if funct3Of p = 0b010 then .cLw (cregLow p) (cregHigh p) (immLwSw p)
  else if funct3Of p = 0b011 then .cFlw p
  else if funct3Of p = 0b100 then .q0Reserved p
  else if funct3Of p = 0b101 then .cFsd p
  else if funct3Of p = 0b110 then .cSw (cregLow p) (cregHigh p) (immLwSw p)
  else .cFsw p

/-- Quadrant 1, funct3 000: C.NOP and C.ADDI (30 R101, R107, R108). -/
def decodeAddi (p : Parcel) : Instr :=
  if regFieldHigh p = 0 then
    if immSix p = 0 then .cNop else .cNopHint (immSix p)
  else if namesAbsentReg (regFieldHigh p) then .cAddiRv32e p
  else if immSix p = 0 then .cAddiHint (regOfField (regFieldHigh p))
  else .cAddi (regOfField (regFieldHigh p)) (immSix p)

/-- Quadrant 1, funct3 010: C.LI (30 R101, R107, R108). -/
def decodeLi (p : Parcel) : Instr :=
  if namesAbsentReg (regFieldHigh p) then .cLiRv32e p
  else if regFieldHigh p = 0 then .cLiHint (immSix p)
  else .cLi (regOfField (regFieldHigh p)) (immSix p)

/-- Quadrant 1, funct3 011: C.ADDI16SP where inst[11:7] = 2, else C.LUI (30 R101, R103, R105, R107,
R108). -/
def decodeLui (p : Parcel) : Instr :=
  if regFieldHigh p = 2 then
    if immAddi16sp p = 0 then .cAddi16spRes else .cAddi16sp (immAddi16sp p)
  else if immSix p = 0 then .cLuiRes p
  else if namesAbsentReg (regFieldHigh p) then .cLuiRv32e p
  else if regFieldHigh p = 0 then .cLuiHint (immSix p)
  else .cLui (regOfField (regFieldHigh p)) (immSix p)

/-- Quadrant 1, funct3 100, inst[11:10] = 11: the register to register group (30 R80, R101, R105). -/
def decodeRegisterAlu (p : Parcel) : Instr :=
  if p.extractLsb' 12 1 = 1 then
    if p.extractLsb' 5 2 = 0b00 then .cSubwRes p
    else if p.extractLsb' 5 2 = 0b01 then .cAddwRes p
    else if p.extractLsb' 5 2 = 0b10 then .q1Reserved10 p
    else .q1Reserved11 p
  else if p.extractLsb' 5 2 = 0b00 then .cSub (cregHigh p) (cregLow p)
  else if p.extractLsb' 5 2 = 0b01 then .cXor (cregHigh p) (cregLow p)
  else if p.extractLsb' 5 2 = 0b10 then .cOr (cregHigh p) (cregLow p)
  else .cAnd (cregHigh p) (cregLow p)

/-- Quadrant 1, funct3 100: MISC-ALU (30 R79, R80, R101, R106, R107). -/
def decodeMiscAlu (p : Parcel) : Instr :=
  if p.extractLsb' 10 2 = 0b00 then
    if p.extractLsb' 12 1 = 1 then .cSrliCustom p
    else if regFieldLow p = 0 then .cSrli64Hint (cregHigh p)
    else .cSrli (cregHigh p) (regFieldLow p)
  else if p.extractLsb' 10 2 = 0b01 then
    if p.extractLsb' 12 1 = 1 then .cSraiCustom p
    else if regFieldLow p = 0 then .cSrai64Hint (cregHigh p)
    else .cSrai (cregHigh p) (regFieldLow p)
  else if p.extractLsb' 10 2 = 0b10 then .cAndi (cregHigh p) (immSix p)
  else decodeRegisterAlu p

/-- Quadrant 1, Table 18.6 (30 R101). -/
def decodeQuadrant1 (p : Parcel) : Instr :=
  if funct3Of p = 0b000 then decodeAddi p
  else if funct3Of p = 0b001 then .cJal (immJump p)
  else if funct3Of p = 0b010 then decodeLi p
  else if funct3Of p = 0b011 then decodeLui p
  else if funct3Of p = 0b100 then decodeMiscAlu p
  else if funct3Of p = 0b101 then .cJ (immJump p)
  else if funct3Of p = 0b110 then .cBeqz (cregHigh p) (immBranch p)
  else .cBnez (cregHigh p) (immBranch p)

/-- Quadrant 2, funct3 000: C.SLLI (30 R102, R106, R107, R108). -/
def decodeSlli (p : Parcel) : Instr :=
  if p.extractLsb' 12 1 = 1 then .cSlliCustom p
  else if namesAbsentReg (regFieldHigh p) then .cSlliRv32e p
  else if regFieldLow p = 0 then .cSlli64Hint (regOfField (regFieldHigh p))
  else if regFieldHigh p = 0 then .cSlliHint (regFieldLow p)
  else .cSlli (regOfField (regFieldHigh p)) (regFieldLow p)

/-- Quadrant 2, funct3 010: C.LWSP (30 R102, R105, R108). -/
def decodeLwsp (p : Parcel) : Instr :=
  if regFieldHigh p = 0 then .cLwspRes p
  else if namesAbsentReg (regFieldHigh p) then .cLwspRv32e p
  else .cLwsp (regOfField (regFieldHigh p)) (immLwsp p)

/-- Quadrant 2, funct3 100, inst[12] = 0: C.JR and C.MV (42 R185, 30 R105, R107, R108). -/
def decodeJrMv (p : Parcel) : Instr :=
  if regFieldLow p = 0 then
    if regFieldHigh p = 0 then .cJrRes
    else if namesAbsentReg (regFieldHigh p) then .cJrRv32e p
    else .cJr (regOfField (regFieldHigh p))
  else if namesAbsentReg (regFieldHigh p) then .cMvRv32eRd p
  else if namesAbsentReg (regFieldLow p) then .cMvRv32eRs2 p
  else if regFieldHigh p = 0 then .cMvHint (regOfField (regFieldLow p))
  else .cMv (regOfField (regFieldHigh p)) (regOfField (regFieldLow p))

/-- Quadrant 2, funct3 100, inst[12] = 1: C.EBREAK, C.JALR and C.ADD (42 R185, 30 R107, R108). -/
def decodeJalrAdd (p : Parcel) : Instr :=
  if regFieldLow p = 0 then
    if regFieldHigh p = 0 then .cEbreak
    else if namesAbsentReg (regFieldHigh p) then .cJalrRv32e p
    else .cJalr (regOfField (regFieldHigh p))
  else if namesAbsentReg (regFieldHigh p) then .cAddRv32eRd p
  else if namesAbsentReg (regFieldLow p) then .cAddRv32eRs2 p
  else if regFieldHigh p = 0 then .cAddHint (regOfField (regFieldLow p))
  else .cAdd (regOfField (regFieldHigh p)) (regOfField (regFieldLow p))

/-- Quadrant 2, funct3 110: C.SWSP (30 R102, R108). -/
def decodeSwsp (p : Parcel) : Instr :=
  if namesAbsentReg (regFieldLow p) then .cSwspRv32e p
  else .cSwsp (regOfField (regFieldLow p)) (immSwsp p)

/-- Quadrant 2, Table 18.7 (30 R102). -/
def decodeQuadrant2 (p : Parcel) : Instr :=
  if funct3Of p = 0b000 then decodeSlli p
  else if funct3Of p = 0b001 then .cFldsp p
  else if funct3Of p = 0b010 then decodeLwsp p
  else if funct3Of p = 0b011 then .cFlwsp p
  else if funct3Of p = 0b100 then
    if p.extractLsb' 12 1 = 1 then decodeJalrAdd p else decodeJrMv p
  else if funct3Of p = 0b101 then .cFsdsp p
  else if funct3Of p = 0b110 then decodeSwsp p
  else .cFswsp p

/-- The instruction a parcel is: it depends on its 16 bits alone (30 R70, R103). -/
def decode (p : Parcel) : Instr :=
  if quadrantOf p = 0b00 then decodeQuadrant0 p
  else if quadrantOf p = 0b01 then decodeQuadrant1 p
  else if quadrantOf p = 0b10 then decodeQuadrant2 p
  else .wide p

/-! ## Decoding from bytes -/

/-- Why bytes are no parcel. -/
inductive DecodeError where
  /-- Fewer than two bytes: no parcel can be read (log 7). Raised by `decodeBytes`; safe, since the
  machine always fetches two bytes (20 R44). -/
  | tooFewBytes
  deriving DecidableEq, Repr

/-- The parcel whose lower-addressed byte is `low` (20 R41, R44). -/
def parcelOfBytes (low high : Byte) : Parcel := high ++ low

/-- The bytes of a parcel, the lower-addressed first (20 R41). -/
def bytesOfParcel (p : Parcel) : List Byte := [p.extractLsb' 0 8, p.extractLsb' 8 8]

/-- The instruction at the head of a list of bytes, and the bytes after it. Exactly two bytes are read,
for the first parcel of a wider instruction too (20 R44). -/
def decodeBytes : List Byte → Except DecodeError (Instr × List Byte)
  | low :: high :: rest => .ok (decode (parcelOfBytes low high), rest)
  | _ => .error .tooFewBytes

/-- What the decoder reads from the table's word `w` of `nbits` bits (bit 0 the least significant bit of
the first parcel), every higher bit zero: the instruction of its first parcel. -/
def decodeTableWord (nbits w : Nat) : Option Instr :=
  match decodeBytes (bytesOfParcel (BitVec.ofNat 16 (w % 2 ^ nbits))) with
  | .ok (i, _) => some i
  | .error _ => none

/-! ## The encoder (30 R74 to R94, R100 to R102) -/

/-- A 5-bit register field. -/
def regField (r : RegIdx) : BitVec 5 := BitVec.ofNat 5 r.val

/-- A 3-bit register field. -/
def cregField (r : CReg) : BitVec 3 := BitVec.ofNat 3 r.val

/-- Format CIW with nzuimm[5:4|9:6|2|3] (30 R74, R84). -/
def encodeCIW (f3 : BitVec 3) (imm : BitVec 8) (rd : CReg) (q : BitVec 2) : Parcel :=
  f3 ++ imm.extractLsb' 2 2 ++ imm.extractLsb' 4 4 ++ imm.extractLsb' 0 1 ++ imm.extractLsb' 1 1 ++
    cregField rd ++ q

/-- Formats CL and CS with uimm[5:3] and uimm[2|6] (30 R75, R76, R85). -/
def encodeCLS (f3 : BitVec 3) (imm : BitVec 5) (rs1 low : CReg) (q : BitVec 2) : Parcel :=
  f3 ++ imm.extractLsb' 1 3 ++ cregField rs1 ++ imm.extractLsb' 0 1 ++ imm.extractLsb' 4 1 ++
    cregField low ++ q

/-- Format CI: a 6-bit field split at inst[12] and inst[6:2] (30 R77). -/
def encodeCI (f3 : BitVec 3) (field : BitVec 6) (reg : BitVec 5) (q : BitVec 2) : Parcel :=
  f3 ++ field.extractLsb' 5 1 ++ reg ++ field.extractLsb' 0 5 ++ q

/-- The 6-bit field of C.ADDI16SP: nzimm[9], then nzimm[4|6|8:7|5] (30 R87). -/
def scatterAddi16sp (imm : BitVec 6) : BitVec 6 :=
  imm.extractLsb' 5 1 ++ imm.extractLsb' 0 1 ++ imm.extractLsb' 2 1 ++ imm.extractLsb' 3 2 ++
    imm.extractLsb' 1 1

/-- The 6-bit field of C.LWSP: uimm[5], then uimm[4:2|7:6] (30 R91). -/
def scatterLwsp (imm : BitVec 6) : BitVec 6 :=
  imm.extractLsb' 3 1 ++ imm.extractLsb' 0 3 ++ imm.extractLsb' 4 2

/-- Format CJ with imm[11|4|9:8|10|6|7|3:1|5] (30 R78, R89). -/
def encodeCJ (f3 : BitVec 3) (imm : BitVec 11) (q : BitVec 2) : Parcel :=
  f3 ++ imm.extractLsb' 10 1 ++ imm.extractLsb' 3 1 ++ imm.extractLsb' 7 2 ++ imm.extractLsb' 9 1 ++
    imm.extractLsb' 5 1 ++ imm.extractLsb' 6 1 ++ imm.extractLsb' 0 3 ++ imm.extractLsb' 4 1 ++ q

/-- Format CB, branch form, with imm[8|4:3] and imm[7:6|2:1|5] (30 R79, R90). -/
def encodeCBranch (f3 : BitVec 3) (rs1 : CReg) (imm : BitVec 8) (q : BitVec 2) : Parcel :=
  f3 ++ imm.extractLsb' 7 1 ++ imm.extractLsb' 2 2 ++ cregField rs1 ++ imm.extractLsb' 5 2 ++
    imm.extractLsb' 0 2 ++ imm.extractLsb' 4 1 ++ q

/-- Format CB, immediate-ALU form, funct3 100 of quadrant 1 (30 R79). -/
def encodeCBAlu (field : BitVec 6) (f2 : BitVec 2) (rd : CReg) : Parcel :=
  0b100#3 ++ field.extractLsb' 5 1 ++ f2 ++ cregField rd ++ field.extractLsb' 0 5 ++ 0b01#2

/-- Format CA (30 R80). -/
def encodeCA (rd : CReg) (f2 : BitVec 2) (rs2 : CReg) : Parcel :=
  0b100#3 ++ 0b0#1 ++ 0b11#2 ++ cregField rd ++ f2 ++ cregField rs2 ++ 0b01#2

/-- Format CR (30 R81). -/
def encodeCR (f1 : BitVec 1) (high low : BitVec 5) : Parcel :=
  0b100#3 ++ f1 ++ high ++ low ++ 0b10#2

/-- Format CSS with uimm[5:2|7:6] (30 R82, R92). -/
def encodeCSS (f3 : BitVec 3) (imm : BitVec 6) (rs2 : RegIdx) (q : BitVec 2) : Parcel :=
  f3 ++ imm.extractLsb' 0 4 ++ imm.extractLsb' 4 2 ++ regField rs2 ++ q

/-- The parcel of an instruction. -/
def encode (i : Instr) : Parcel :=
  match i with
  | .cIllegal => 0x0000
  | .cAddi4spnRes p => p
  | .cAddi4spn rd imm => encodeCIW 0b000 imm rd 0b00
  | .cFld p => p
  | .cLw rd rs1 imm => encodeCLS 0b010 imm rs1 rd 0b00
  | .cFlw p => p
  | .q0Reserved p => p
  | .cFsd p => p
  | .cSw rs2 rs1 imm => encodeCLS 0b110 imm rs1 rs2 0b00
  | .cFsw p => p
  | .cNop => 0x0001
  | .cNopHint imm => encodeCI 0b000 imm 0 0b01
  | .cAddi rd imm => encodeCI 0b000 imm (regField rd) 0b01
  | .cAddiHint rd => encodeCI 0b000 0 (regField rd) 0b01
  | .cAddiRv32e p => p
  | .cJal off => encodeCJ 0b001 off 0b01
  | .cLi rd imm => encodeCI 0b010 imm (regField rd) 0b01
  | .cLiHint imm => encodeCI 0b010 imm 0 0b01
  | .cLiRv32e p => p
  | .cAddi16spRes => 0x6101
  | .cAddi16sp imm => encodeCI 0b011 (scatterAddi16sp imm) 2 0b01
  | .cLuiRes p => p
  | .cLui rd imm => encodeCI 0b011 imm (regField rd) 0b01
  | .cLuiHint imm => encodeCI 0b011 imm 0 0b01
  | .cLuiRv32e p => p
  | .cSrli rd shamt => encodeCBAlu (0#1 ++ shamt) 0b00 rd
  | .cSrli64Hint rd => encodeCBAlu 0 0b00 rd
  | .cSrliCustom p => p
  | .cSrai rd shamt => encodeCBAlu (0#1 ++ shamt) 0b01 rd
  | .cSrai64Hint rd => encodeCBAlu 0 0b01 rd
  | .cSraiCustom p => p
  | .cAndi rd imm => encodeCBAlu imm 0b10 rd
  | .cSub rd rs2 => encodeCA rd 0b00 rs2
  | .cXor rd rs2 => encodeCA rd 0b01 rs2
  | .cOr rd rs2 => encodeCA rd 0b10 rs2
  | .cAnd rd rs2 => encodeCA rd 0b11 rs2
  | .cSubwRes p => p
  | .cAddwRes p => p
  | .q1Reserved10 p => p
  | .q1Reserved11 p => p
  | .cJ off => encodeCJ 0b101 off 0b01
  | .cBeqz rs1 off => encodeCBranch 0b110 rs1 off 0b01
  | .cBnez rs1 off => encodeCBranch 0b111 rs1 off 0b01
  | .cSlliCustom p => p
  | .cSlli rd shamt => encodeCI 0b000 (0#1 ++ shamt) (regField rd) 0b10
  | .cSlliHint shamt => encodeCI 0b000 (0#1 ++ shamt) 0 0b10
  | .cSlli64Hint rd => encodeCI 0b000 0 (regField rd) 0b10
  | .cSlliRv32e p => p
  | .cFldsp p => p
  | .cLwsp rd imm => encodeCI 0b010 (scatterLwsp imm) (regField rd) 0b10
  | .cLwspRes p => p
  | .cLwspRv32e p => p
  | .cFlwsp p => p
  | .cJrRes => 0x8002
  | .cJr rs1 => encodeCR 0 (regField rs1) 0
  | .cJrRv32e p => p
  | .cMv rd rs2 => encodeCR 0 (regField rd) (regField rs2)
  | .cMvHint rs2 => encodeCR 0 0 (regField rs2)
  | .cMvRv32eRd p => p
  | .cMvRv32eRs2 p => p
  | .cEbreak => 0x9002
  | .cJalr rs1 => encodeCR 1 (regField rs1) 0
  | .cJalrRv32e p => p
  | .cAdd rd rs2 => encodeCR 1 (regField rd) (regField rs2)
  | .cAddHint rs2 => encodeCR 1 0 (regField rs2)
  | .cAddRv32eRd p => p
  | .cAddRv32eRs2 p => p
  | .cFsdsp p => p
  | .cSwsp rs2 imm => encodeCSS 0b110 imm rs2 0b10
  | .cSwspRv32e p => p
  | .cFswsp p => p
  | .wide p => p

end Sys2Proof
end

