-- ==== Sys2Proof/Config.lean ====
section
/-!
DEFINITION. The values that the spec leaves to the launch of a run (92_eei_decisions.md section 1) and
that `State.reset` needs one of. Each is a DESIGN CHOICE of the model, unsafe, with its log entry; the
statements about launches quantify over all of them through `State.launch`.
-/

namespace Sys2Proof.Config

/-- DESIGN CHOICE (log 1): the value of `RESET_PC` in `State.reset`. The spec asks only that it is even
(70 R250). Unsafe. -/
def resetPc : Word := 0

/-- DESIGN CHOICE (log 2): the value of each of x1 to x15 in `State.reset`; the spec leaves them launch
inputs (10 R33). Unsafe. -/
def resetRegister : Word := 0

/-- DESIGN CHOICE (log 3): what a byte of memory that is not listed reads as. Every launch image of
70 R250 can be listed, so the choice matters for `State.reset` alone. Unsafe. -/
def unlistedByte : Byte := 0

end Sys2Proof.Config
end

