-- ==== Sys2Proof/Machine/State.lean ====
section
/-!
DEFINITION. The state of the machine as plain data (10_state.md R20 to R33), the exceptions
(60_exceptions.md R210), the reasons a step can stop (00_scope.md R17), and the state at launch and
after reset (70_reset_and_hazards.md R250).
-/

namespace Sys2Proof.Machine

/-- The three permissions of an address (20 R49). -/
inductive Perm where
  /-- Needed by every byte of a load. -/
  | read
  /-- Needed by every byte of a store. -/
  | write
  /-- Needed by every byte of a fetch. -/
  | execute
  deriving DecidableEq, Repr

/-- A stretch of addresses `first` to `last`, both included, and the permissions it gives (20 R49).
`MemMap` is a list of regions; an address has every permission that some region holding it gives
(log 5). -/
structure Region where
  first : Word
  last : Word
  read : Bool
  write : Bool
  execute : Bool
  deriving DecidableEq, Repr

/-- `MemMap`, the OPEN parameter of 20 R49, as data. -/
abbrev MemMap := List Region

/-- Memory as (address, byte) pairs (10 R31). An address that is not listed reads as
`Config.unlistedByte`. -/
abbrev Memory := List Host.Cell

/-- The one canonical form of a memory: addresses strictly rising and inside the 32-bit address space
(10 R31), no entry equal to what an unlisted address reads as. -/
abbrev Memory.wf (m : Memory) : Prop :=
  (m.map Prod.fst).Pairwise (· < ·) ∧ ∀ c ∈ m, c.1 < 2 ^ 32 ∧ c.2 ≠ Config.unlistedByte

/-- `Dirty`, the set of byte addresses stored to since launch (20 R55), as a strictly rising list. -/
abbrev DirtySet := List Nat

/-- The canonical form of `Dirty`: strictly rising addresses of the 32-bit address space. -/
abbrev DirtySet.wf (d : DirtySet) : Prop := d.Pairwise (· < ·) ∧ ∀ a ∈ d, a < 2 ^ 32

/-- The synchronous exceptions (60 R210). -/
inductive Exception where
  /-- Raised by `Fetch` where pc is odd (unreachable from an even pc, 60 R213). -/
  | instructionAddressMisaligned
  /-- Raised by `Fetch` where a byte of the parcel lacks execute permission. -/
  | instructionAccessFault
  /-- Raised in decode: an illegal, reserved, custom, absent-extension or x16 to x31 parcel. -/
  | illegalInstruction
  /-- Raised by C.EBREAK, always. -/
  | breakpoint
  /-- Raised by C.LW and C.LWSP where the address is not a multiple of 4. -/
  | loadAddressMisaligned
  /-- Raised by C.LW and C.LWSP where a byte of the word lacks read permission. -/
  | loadAccessFault
  /-- Raised by C.SW and C.SWSP where the address is not a multiple of 4. -/
  | storeAddressMisaligned
  /-- Raised by C.SW and C.SWSP where a byte of the word lacks write permission. -/
  | storeAccessFault
  deriving DecidableEq, Repr

/-- Why the machine stops with a fault. -/
inductive Fault where
  /-- `Trap(E, information, pc)` (60 R215): the exception, its information (60 R210) and the address of
  the raising instruction; the architectural state is that before the step and the run is over. Raised
  by `raise` in Machine/Ops.lean alone. Safe: nothing is said of what the hardware does after it (60
  R215). -/
  | trap (exception : Exception) (information : Word) (pc : Word)
  deriving DecidableEq, Repr

/-- Why a step has no meaning. -/
inductive Refusal where
  /-- An instruction whose meaning is not written, refused in its arm of `exec`; no arm of this model
  does. Safe. -/
  | notModelled (mnemonic : String)
  /-- `Refuse(WideInstruction, pc)`: the parcel at pc has inst[1:0] = 11 (30 R70). Raised by the meaning
  of WIDE. Safe. -/
  | wideInstruction (pc : Word)
  /-- `Refuse(FetchOfModifiedCode, pc)`: the parcel at pc was stored to since launch (20 R55). Raised by
  `fetch`. Safe. -/
  | fetchOfModifiedCode (pc : Word)
  deriving DecidableEq, Repr

/-- Everything the spec gives the machine. -/
structure State where
  /-- x1 to x15; x(n) is entry n - 1. x0 has no storage (10 R20, R21, log 15). -/
  regs : Vector Word 15
  /-- The address of the instruction being executed (10 R26). -/
  pc : Word
  /-- The one address space (10 R31). -/
  mem : Memory
  /-- `Dirty` (20 R55). -/
  dirty : DirtySet
  /-- `MemMap`, constant during a run (20 R49, log 4). -/
  memMap : MemMap
  deriving DecidableEq, Repr

/-- The launch state from its four inputs (70 R250): `RESET_PC`, `MemMap`, the memory image, and x1 to
x15. -/
def State.launch (resetPc : Word) (memMap : MemMap) (image : Memory) (registers : Vector Word 15) :
    State :=
  { regs := registers, pc := resetPc, mem := image, dirty := [], memMap := memMap }

/-- DESIGN CHOICE (log 4): the `MemMap` of `State.reset`, the whole address space with every permission.
The spec leaves it open (20 R49). Unsafe. -/
def resetMemMap : MemMap :=
  [{ first := 0, last := 0xFFFFFFFF, read := true, write := true, execute := true }]

/-- The machine after reset, which is a launch (70 R250) with the values that log 1 to 4 choose for the
open inputs; `Dirty` is empty (10 R33). -/
def State.reset : State :=
  State.launch Config.resetPc resetMemMap [] (Vector.replicate 15 Config.resetRegister)

end Sys2Proof.Machine
end

