-- ==== Sys2Proof/Machine/Ops.lean ====
section
/-!
DEFINITION. The named operations every meaning is written over: registers (10_state.md R20, R21), pc
(10 R27), bytes and permissions of memory (20_memory.md R40, R41, R49), the word load, the word store
and the fetch (20 R42 to R45), and taking an exception (60_exceptions.md R215). There is no return from
an exception (60 R217), so there is no operation for it.
-/

namespace Sys2Proof.Machine

/-- The outcome of an operation that gives a value or stops the step (00 R17). -/
abbrev Outcome (α : Type) := Host.Outcome α Fault Refusal

/-- Go on with the value of an operation, or stop as it stopped: the first exception met ends the
instruction (60 R214). -/
def andThen {α β : Type} (o : Outcome α) (f : α → Outcome β) : Outcome β :=
  match o with
  | .next v => f v
  | .fault r => .fault r
  | .refused r => .refused r

/-! ## Taking an exception -/

/-- `raise E(info)` (00 R16, 60 R215): the step's outcome is `Trap(E, info, pc)`, no register, no memory
byte and not pc has changed, nothing is saved and the run is over. -/
def raise {α : Type} (e : Exception) (information : Word) (s : State) : Outcome α :=
  .fault (.trap e information s.pc)

/-- The code column of the table of exceptions (60 R210): what the RISC-V privileged architecture calls
the exception. No operation reads it: there is no cause register (10 R29). -/
def exceptionCode : Exception → Nat
  | .instructionAddressMisaligned => 0
  | .instructionAccessFault => 1
  | .illegalInstruction => 2
  | .breakpoint => 3
  | .loadAddressMisaligned => 4
  | .loadAccessFault => 5
  | .storeAddressMisaligned => 6
  | .storeAccessFault => 7

/-! ## Registers and pc -/

/-- `x[r]`; x0 is 0 (10 R21, 00 R14). -/
def readReg (r : RegIdx) (s : State) : Word :=
  if h : r.val = 0 then 0 else s.regs[r.val - 1]'(by omega)

/-- `x[r] <- v`; a write to x0 is discarded (10 R21, 00 R14). -/
def writeReg (r : RegIdx) (v : Word) (s : State) : State :=
  if h : r.val = 0 then s else { s with regs := s.regs.set (r.val - 1) v (by omega) }

/-- `pc <- t` (00 R16). -/
def setPc (t : Word) (s : State) : State := { s with pc := t }

/-- The address of the next instruction in memory order, modulo 2^32; the link value (10 R27). -/
def nextPc (s : State) : Word := s.pc + 2

/-- `pc <- pc + 2`, which completes an instruction that does not assign pc (00 R16, 10 R27). -/
def advance (s : State) : State := setPc (nextPc s) s

/-- An instruction whose whole effect besides the pc's advance is `x[r] <- v`. -/
def writeAndAdvance (r : RegIdx) (v : Word) (s : State) : Outcome State :=
  .next (advance (writeReg r v s))

/-! ## Bytes of memory -/

/-- The byte at an address; an unlisted address reads as `Config.unlistedByte` (log 3). -/
def lookupByte : Memory → Nat → Byte
  | [], _ => Config.unlistedByte
  | (k, v) :: rest, a => if k = a then v else lookupByte rest a

/-- Put a listed byte at its place in the rising order of addresses, over the one that is there. -/
def insertCell (a : Nat) (v : Byte) : Memory → Memory
  | [] => [(a, v)]
  | (k, w) :: rest =>
    if a < k then (a, v) :: (k, w) :: rest
    else if a = k then (a, v) :: rest
    else (k, w) :: insertCell a v rest

/-- Write one byte in the canonical form: the value an unlisted address reads as removes the entry. -/
def storeByte (a : Nat) (v : Byte) (m : Memory) : Memory :=
  if v = Config.unlistedByte then m.filter (fun c => c.1 != a) else insertCell a v m

/-- `mem[a]` (10 R31). -/
def byteAt (a : Word) (s : State) : Byte := lookupByte s.mem a.toNat

/-- `mem[a] <- v`. -/
def writeByte (a : Word) (v : Byte) (s : State) : State :=
  { s with mem := storeByte a.toNat v s.mem }

/-! ## Dirty -/

/-- Add an address to a strictly rising list. -/
def insertAddr (a : Nat) : DirtySet → DirtySet
  | [] => [a]
  | k :: rest =>
    if a < k then a :: k :: rest
    else if a = k then k :: rest
    else k :: insertAddr a rest

/-- The byte at `a` was stored to since launch (20 R55). -/
def isDirty (a : Word) (s : State) : Bool := s.dirty.contains a.toNat

/-- Add the address of a byte to `Dirty` (20 R43). -/
def markDirty (a : Word) (s : State) : State := { s with dirty := insertAddr a.toNat s.dirty }

/-! ## MemMap -/

/-- The region holds the address. -/
def regionHolds (r : Region) (a : Word) : Bool := decide (r.first ≤ a) && decide (a ≤ r.last)

/-- The region gives the permission. -/
def regionGrants (r : Region) : Perm → Bool
  | .read => r.read
  | .write => r.write
  | .execute => r.execute

/-- `MemMap` gives the byte at `a` the permission (20 R49). -/
def permits (p : Perm) (a : Word) (s : State) : Bool :=
  s.memMap.any (fun r => regionHolds r a && regionGrants r p)

/-- Every byte of the word at `a` has the permission (20 R42, R43, R49). -/
def permitsWord (p : Perm) (a : Word) (s : State) : Bool :=
  permits p a s && permits p (a + 1) s && permits p (a + 2) s && permits p (a + 3) s

/-! ## The accesses -/

/-- The little-endian word of the four bytes at `a` (20 R41). -/
def wordAt (a : Word) (s : State) : Word :=
  byteAt (a + 3) s ++ byteAt (a + 2) s ++ byteAt (a + 1) s ++ byteAt a s

/-- `MemRead(a, 4)` (20 R42): alignment, then permission (20 R45). -/
def memRead (a : Word) (s : State) : Outcome Word :=
  if a.toNat % 4 ≠ 0 then raise .loadAddressMisaligned a s
  else if permitsWord .read a s then .next (wordAt a s)
  else raise .loadAccessFault a s

/-- Store one byte and add its address to `Dirty` (20 R43). -/
def storeDirty (a : Word) (v : Byte) (s : State) : State := markDirty a (writeByte a v s)

/-- The four bytes of a word, little-endian, each marked in `Dirty` (20 R41, R43). -/
def storeWord (a : Word) (v : Word) (s : State) : State :=
  storeDirty (a + 3) (v.extractLsb' 24 8)
    (storeDirty (a + 2) (v.extractLsb' 16 8)
      (storeDirty (a + 1) (v.extractLsb' 8 8)
        (storeDirty a (v.extractLsb' 0 8) s)))

/-- `MemWrite(a, 4, v)` (20 R43): alignment, then permission (20 R45); all or nothing. -/
def memWrite (a : Word) (v : Word) (s : State) : Outcome State :=
  if a.toNat % 4 ≠ 0 then raise .storeAddressMisaligned a s
  else if permitsWord .write a s then .next (storeWord a v s)
  else raise .storeAccessFault a s

/-- The parcel of the two bytes at `a` (20 R41, R44). -/
def parcelAt (a : Word) (s : State) : Parcel := parcelOfBytes (byteAt a s) (byteAt (a + 1) s)

/-- `Fetch(pc)` (20 R44): alignment, then permission, then `Dirty` (20 R45). -/
def fetch (s : State) : Outcome Parcel :=
  if s.pc.toNat % 2 ≠ 0 then raise .instructionAddressMisaligned s.pc s
  else if !(permits .execute s.pc s && permits .execute (s.pc + 1) s) then
    raise .instructionAccessFault s.pc s
  else if isDirty s.pc s || isDirty (s.pc + 1) s then .refused (.fetchOfModifiedCode s.pc)
  else .next (parcelAt s.pc s)

/-- Executing a parcel that is illegal, reserved, custom, of an absent extension, or names x16 to x31:
`raise IllegalInstruction(zext_32(inst))` (30 R104 to R106, R108, R109). -/
def raiseIllegal (inst : Parcel) (s : State) : Outcome State :=
  raise .illegalInstruction (inst.setWidth 32) s

/-! ## Placing a program from outside the machine (log 6) -/

/-- Give the byte at `a` execute permission where `MemMap` does not, by one region of one byte. -/
def grantExecute (a : Word) (s : State) : State :=
  if permits .execute a s then s
  else
    { s with
      memMap :=
        { first := a, last := a, read := false, write := false, execute := true } :: s.memMap }

/-- Place one byte of a program from outside the machine: the byte is part of the launch image, so it is
not in `Dirty`, and it may be executed (70 R250, log 6). -/
def placeCodeByte (a : Word) (v : Byte) (s : State) : State :=
  let t := grantExecute a (writeByte a v s)
  { t with dirty := t.dirty.filter (fun k => k != a.toNat) }

/-- Place a parcel where the next step fetches: at pc with bit 0 cleared, in the byte order of 20 R41. -/
def placeParcel (p : Parcel) (s : State) : State :=
  let a := s.pc &&& 0xFFFFFFFE
  placeCodeByte (a + 1) (p.extractLsb' 8 8) (placeCodeByte a (p.extractLsb' 0 8) (setPc a s))

end Sys2Proof.Machine
end

