-- ==== Sys2Proof/Machine/Arith.lean ====
section
/-!
DEFINITION. The meanings of the instructions that compute a register: immediate and register arithmetic,
logic, shifts, moves (40_quadrant0.md R121; 41_quadrant1.md R140 to R152; 42_quadrant2.md R180, R184,
R188). All arithmetic is modulo 2^32 and nothing traps (41 R159). The operations themselves are general
knowledge that the spec adopts (UNVERIFIED, log 17).
-/

namespace Sys2Proof.Machine

/-- C.ADDI4SPN (40 R121): `x[8 + rd'] <- x[2] + nzuimm`. -/
def execCAddi4spn (rd : CReg) (nzuimm : BitVec 8) (s : State) : Outcome State :=
  writeAndAdvance (cregIdx rd) (readReg stackReg s + nzuimmAddi4spn nzuimm) s

/-- C.NOP (41 R140): `pc <- pc + 2` and nothing else. -/
def execCNop (s : State) : Outcome State := .next (advance s)

/-- C.ADDI (41 R141): `x[rd] <- x[rd] + sext_32(nzimm)`. -/
def execCAddi (rd : RegIdx) (nzimm : BitVec 6) (s : State) : Outcome State :=
  writeAndAdvance rd (readReg rd s + immSigned6 nzimm) s

/-- C.LI (41 R143): `x[rd] <- sext_32(imm)`. -/
def execCLi (rd : RegIdx) (imm : BitVec 6) (s : State) : Outcome State :=
  writeAndAdvance rd (immSigned6 imm) s

/-- C.ADDI16SP (41 R144): `x[2] <- x[2] + sext_32(nzimm)`. -/
def execCAddi16sp (nzimm : BitVec 6) (s : State) : Outcome State :=
  writeAndAdvance stackReg (readReg stackReg s + nzimmAddi16sp nzimm) s

/-- C.LUI (41 R145): `x[rd] <- sext_32(nzimm)`, nzimm[17:12] above twelve zero bits. -/
def execCLui (rd : RegIdx) (nzimm : BitVec 6) (s : State) : Outcome State :=
  writeAndAdvance rd (nzimmLui nzimm) s

/-- C.SRLI (41 R146): `x[8 + rd'] <- x[8 + rd'] >>u shamt`. -/
def execCSrli (rd : CReg) (shamt : BitVec 5) (s : State) : Outcome State :=
  writeAndAdvance (cregIdx rd) (readReg (cregIdx rd) s >>> shamt.toNat) s

/-- C.SRAI (41 R147): `x[8 + rd'] <- x[8 + rd'] >>s shamt`. -/
def execCSrai (rd : CReg) (shamt : BitVec 5) (s : State) : Outcome State :=
  writeAndAdvance (cregIdx rd) ((readReg (cregIdx rd) s).sshiftRight shamt.toNat) s

/-- C.ANDI (41 R148): `x[8 + rd'] <- x[8 + rd'] & sext_32(imm)`. -/
def execCAndi (rd : CReg) (imm : BitVec 6) (s : State) : Outcome State :=
  writeAndAdvance (cregIdx rd) (readReg (cregIdx rd) s &&& immSigned6 imm) s

/-- C.SUB (41 R149): `x[8 + rd'] <- x[8 + rd'] - x[8 + rs2']`. -/
def execCSub (rd rs2 : CReg) (s : State) : Outcome State :=
  writeAndAdvance (cregIdx rd) (readReg (cregIdx rd) s - readReg (cregIdx rs2) s) s

/-- C.XOR (41 R150): `x[8 + rd'] <- x[8 + rd'] ^ x[8 + rs2']`. -/
def execCXor (rd rs2 : CReg) (s : State) : Outcome State :=
  writeAndAdvance (cregIdx rd) (readReg (cregIdx rd) s ^^^ readReg (cregIdx rs2) s) s

/-- C.OR (41 R151): `x[8 + rd'] <- x[8 + rd'] | x[8 + rs2']`. -/
def execCOr (rd rs2 : CReg) (s : State) : Outcome State :=
  writeAndAdvance (cregIdx rd) (readReg (cregIdx rd) s ||| readReg (cregIdx rs2) s) s

/-- C.AND (41 R152): `x[8 + rd'] <- x[8 + rd'] & x[8 + rs2']`. -/
def execCAnd (rd rs2 : CReg) (s : State) : Outcome State :=
  writeAndAdvance (cregIdx rd) (readReg (cregIdx rd) s &&& readReg (cregIdx rs2) s) s

/-- C.SLLI (42 R180): `x[rd] <- x[rd] << shamt`. -/
def execCSlli (rd : RegIdx) (shamt : BitVec 5) (s : State) : Outcome State :=
  writeAndAdvance rd (readReg rd s <<< shamt.toNat) s

/-- C.MV (42 R184): `x[rd] <- x[rs2]`. -/
def execCMv (rd rs2 : RegIdx) (s : State) : Outcome State :=
  writeAndAdvance rd (readReg rs2 s) s

/-- C.ADD (42 R188): `x[rd] <- x[rd] + x[rs2]`. -/
def execCAdd (rd rs2 : RegIdx) (s : State) : Outcome State :=
  writeAndAdvance rd (readReg rd s + readReg rs2 s) s

end Sys2Proof.Machine
end

