-- ==== Sys2Proof/Machine/Flags.lean ====
section
/-!
DEFINITION. The hart has no status flags, no condition codes and no predicate registers (10_state.md
R28): no instruction computes one. What stands in their place is the test of a register against zero
that the two conditional branches make.
-/

namespace Sys2Proof.Machine

/-- The test of C.BEQZ and, negated, of C.BNEZ: all 32 bits are compared with zero (41 R154, R155). -/
def isZero (v : Word) : Bool := v == 0

end Sys2Proof.Machine
end

