-- ==== Sys2Proof/Machine/Control.lean ====
section
/-!
DEFINITION. The meanings of the jumps and branches (41_quadrant1.md R142, R153 to R155, R160;
42_quadrant2.md R183, R187, R193). A target is relative to the address of the instruction itself; a
transfer takes effect at once; every sum is modulo 2^32 (10_state.md R27).
-/

namespace Sys2Proof.Machine

/-- C.JAL (41 R142): `x[1] <- pc + 2; pc <- pc + sext_32(offset)`. -/
def execCJal (offset : BitVec 11) (s : State) : Outcome State :=
  .next (setPc (s.pc + offsetJump offset) (writeReg linkReg (nextPc s) s))

/-- C.J (41 R153): `pc <- pc + sext_32(offset)`. -/
def execCJ (offset : BitVec 11) (s : State) : Outcome State :=
  .next (setPc (s.pc + offsetJump offset) s)

/-- C.BEQZ (41 R154): `if x[8 + rs1'] = 0 then pc <- pc + sext_32(offset) else pc <- pc + 2`. -/
def execCBeqz (rs1 : CReg) (offset : BitVec 8) (s : State) : Outcome State :=
  if isZero (readReg (cregIdx rs1) s) then .next (setPc (s.pc + offsetBranch offset) s)
  else .next (advance s)

/-- C.BNEZ (41 R155): `if x[8 + rs1'] != 0 then pc <- pc + sext_32(offset) else pc <- pc + 2`. -/
def execCBnez (rs1 : CReg) (offset : BitVec 8) (s : State) : Outcome State :=
  if isZero (readReg (cregIdx rs1) s) then .next (advance s)
  else .next (setPc (s.pc + offsetBranch offset) s)

/-- C.JR (42 R183): `pc <- x[rs1] & 0xFFFFFFFE`. -/
def execCJr (rs1 : RegIdx) (s : State) : Outcome State :=
  .next (setPc (jumpTarget (readReg rs1 s)) s)

/-- C.JALR (42 R187): `t <- x[rs1]; x[1] <- pc + 2; pc <- t & 0xFFFFFFFE`: the register is read before
x1 is written. -/
def execCJalr (rs1 : RegIdx) (s : State) : Outcome State :=
  .next (setPc (jumpTarget (readReg rs1 s)) (writeReg linkReg (nextPc s) s))

end Sys2Proof.Machine
end

