-- ==== Sys2Proof/Machine/Hint.lean ====
section
/-!
DEFINITION. The meanings of the ten HINT rows (30_encoding.md R107; 41_quadrant1.md R156;
42_quadrant2.md R189): a HINT reads no register, writes no register, accesses no memory, raises no
exception and sets `pc <- pc + 2` (UNVERIFIED, log 14).
-/

namespace Sys2Proof.Machine

/-- C.NOP.HINT (41 R156, 30 R107): no operation. -/
def execCNopHint (_nzimm : BitVec 6) (s : State) : Outcome State := .next (advance s)

/-- C.ADDI.HINT (41 R156, 30 R107): no operation. -/
def execCAddiHint (_rd : RegIdx) (s : State) : Outcome State := .next (advance s)

/-- C.LI.HINT (41 R156, 30 R107): no operation. -/
def execCLiHint (_imm : BitVec 6) (s : State) : Outcome State := .next (advance s)

/-- C.LUI.HINT (41 R156, 30 R107): no operation. -/
def execCLuiHint (_nzimm : BitVec 6) (s : State) : Outcome State := .next (advance s)

/-- C.SRLI64.HINT (41 R156, 30 R107): no operation. -/
def execCSrli64Hint (_rd : CReg) (s : State) : Outcome State := .next (advance s)

/-- C.SRAI64.HINT (41 R156, 30 R107): no operation. -/
def execCSrai64Hint (_rd : CReg) (s : State) : Outcome State := .next (advance s)

/-- C.SLLI.HINT (42 R189, 30 R107): no operation. -/
def execCSlliHint (_shamt : BitVec 5) (s : State) : Outcome State := .next (advance s)

/-- C.SLLI64.HINT (42 R189, 30 R107): no operation. -/
def execCSlli64Hint (_rd : RegIdx) (s : State) : Outcome State := .next (advance s)

/-- C.MV.HINT (42 R189, 30 R107): no operation. -/
def execCMvHint (_rs2 : RegIdx) (s : State) : Outcome State := .next (advance s)

/-- C.ADD.HINT (42 R189, 30 R107): no operation. -/
def execCAddHint (_rs2 : RegIdx) (s : State) : Outcome State := .next (advance s)

end Sys2Proof.Machine
end

