-- ==== Sys2Proof/Machine/LoadStore.lean ====
section
/-!
DEFINITION. The meanings of the word loads and stores (40_quadrant0.md R122, R123; 42_quadrant2.md R181,
R190). The address and every source register are read from the state before the instruction (10_state.md
R24); on an exception nothing changes (20_memory.md R42, R43).
-/

namespace Sys2Proof.Machine

/-- `x[rd] <- MemRead(a, 4)`, then the pc's advance. -/
def loadInto (rd : RegIdx) (a : Word) (s : State) : Outcome State :=
  andThen (memRead a s) fun v => writeAndAdvance rd v s

/-- `MemWrite(a, 4, v)`, then the pc's advance. -/
def storeFrom (v : Word) (a : Word) (s : State) : Outcome State :=
  andThen (memWrite a v s) fun t => .next (advance t)

/-- C.LW (40 R122): `addr <- x[8 + rs1'] + uimm; x[8 + rd'] <- MemRead(addr, 4)`. -/
def execCLw (rd rs1 : CReg) (uimm : BitVec 5) (s : State) : Outcome State :=
  loadInto (cregIdx rd) (effAddr (readReg (cregIdx rs1) s) (uimmLwSw uimm)) s

/-- C.SW (40 R123): `addr <- x[8 + rs1'] + uimm; MemWrite(addr, 4, x[8 + rs2'])`. -/
def execCSw (rs2 rs1 : CReg) (uimm : BitVec 5) (s : State) : Outcome State :=
  storeFrom (readReg (cregIdx rs2) s) (effAddr (readReg (cregIdx rs1) s) (uimmLwSw uimm)) s

/-- C.LWSP (42 R181): `addr <- x[2] + uimm; x[rd] <- MemRead(addr, 4)`. -/
def execCLwsp (rd : RegIdx) (uimm : BitVec 6) (s : State) : Outcome State :=
  loadInto rd (effAddr (readReg stackReg s) (uimmSp uimm)) s

/-- C.SWSP (42 R190): `addr <- x[2] + uimm; MemWrite(addr, 4, x[rs2])`. -/
def execCSwsp (rs2 : RegIdx) (uimm : BitVec 6) (s : State) : Outcome State :=
  storeFrom (readReg rs2 s) (effAddr (readReg stackReg s) (uimmSp uimm)) s

end Sys2Proof.Machine
end

