-- ==== Sys2Proof/Machine/NonInstruction.lean ====
section
/-!
DEFINITION. The meanings of the rows that are not instructions of this hardware: the illegal, reserved,
custom and absent-extension rows and the rows that name x16 to x31 raise
`IllegalInstruction(zext_32(inst))` (30_encoding.md R104 to R106, R108, R109); the row WIDE is refused
(30 R70, R111).
-/

namespace Sys2Proof.Machine

/-- C.ILLEGAL (40 R120): the illegal instruction, the parcel 0x0000. -/
def execCIllegal (s : State) : Outcome State := raiseIllegal 0x0000 s

/-- C.ADDI4SPN.RES (30 R105): reserved. -/
def execCAddi4spnRes (parcel : Parcel) (s : State) : Outcome State := raiseIllegal parcel s

/-- C.FLD (40 R125): an encoding of an absent extension. -/
def execCFld (parcel : Parcel) (s : State) : Outcome State := raiseIllegal parcel s

/-- C.FLW (40 R125): an encoding of an absent extension. -/
def execCFlw (parcel : Parcel) (s : State) : Outcome State := raiseIllegal parcel s

/-- Q0.RESERVED (40 R124): reserved. -/
def execQ0Reserved (parcel : Parcel) (s : State) : Outcome State := raiseIllegal parcel s

/-- C.FSD (40 R125): an encoding of an absent extension. -/
def execCFsd (parcel : Parcel) (s : State) : Outcome State := raiseIllegal parcel s

/-- C.FSW (40 R125): an encoding of an absent extension. -/
def execCFsw (parcel : Parcel) (s : State) : Outcome State := raiseIllegal parcel s

/-- C.ADDI.RV32E (30 R108): names a register of x16 to x31. -/
def execCAddiRv32e (parcel : Parcel) (s : State) : Outcome State := raiseIllegal parcel s

/-- C.LI.RV32E (30 R108): names a register of x16 to x31. -/
def execCLiRv32e (parcel : Parcel) (s : State) : Outcome State := raiseIllegal parcel s

/-- C.ADDI16SP.RES (41 R157): reserved, the parcel 0x6101. -/
def execCAddi16spRes (s : State) : Outcome State := raiseIllegal 0x6101 s

/-- C.LUI.RES (41 R157): reserved. -/
def execCLuiRes (parcel : Parcel) (s : State) : Outcome State := raiseIllegal parcel s

/-- C.LUI.RV32E (30 R108): names a register of x16 to x31. -/
def execCLuiRv32e (parcel : Parcel) (s : State) : Outcome State := raiseIllegal parcel s

/-- C.SRLI.CUSTOM (41 R158): a custom encoding. -/
def execCSrliCustom (parcel : Parcel) (s : State) : Outcome State := raiseIllegal parcel s

/-- C.SRAI.CUSTOM (41 R158): a custom encoding. -/
def execCSraiCustom (parcel : Parcel) (s : State) : Outcome State := raiseIllegal parcel s

/-- C.SUBW.RES (41 R157): reserved. -/
def execCSubwRes (parcel : Parcel) (s : State) : Outcome State := raiseIllegal parcel s

/-- C.ADDW.RES (41 R157): reserved. -/
def execCAddwRes (parcel : Parcel) (s : State) : Outcome State := raiseIllegal parcel s

/-- Q1.RESERVED.10 (41 R157): reserved. -/
def execQ1Reserved10 (parcel : Parcel) (s : State) : Outcome State := raiseIllegal parcel s

/-- Q1.RESERVED.11 (41 R157): reserved. -/
def execQ1Reserved11 (parcel : Parcel) (s : State) : Outcome State := raiseIllegal parcel s

/-- C.SLLI.CUSTOM (42 R192): a custom encoding. -/
def execCSlliCustom (parcel : Parcel) (s : State) : Outcome State := raiseIllegal parcel s

/-- C.SLLI.RV32E (30 R108): names a register of x16 to x31. -/
def execCSlliRv32e (parcel : Parcel) (s : State) : Outcome State := raiseIllegal parcel s

/-- C.FLDSP (42 R182): an encoding of an absent extension. -/
def execCFldsp (parcel : Parcel) (s : State) : Outcome State := raiseIllegal parcel s

/-- C.LWSP.RES (42 R191): reserved. -/
def execCLwspRes (parcel : Parcel) (s : State) : Outcome State := raiseIllegal parcel s

/-- C.LWSP.RV32E (30 R108): names a register of x16 to x31. -/
def execCLwspRv32e (parcel : Parcel) (s : State) : Outcome State := raiseIllegal parcel s

/-- C.FLWSP (42 R182): an encoding of an absent extension. -/
def execCFlwsp (parcel : Parcel) (s : State) : Outcome State := raiseIllegal parcel s

/-- C.JR.RES (42 R191): reserved, the parcel 0x8002. -/
def execCJrRes (s : State) : Outcome State := raiseIllegal 0x8002 s

/-- C.JR.RV32E (30 R108): names a register of x16 to x31. -/
def execCJrRv32e (parcel : Parcel) (s : State) : Outcome State := raiseIllegal parcel s

/-- C.MV.RV32E.rd (30 R108): names a register of x16 to x31. -/
def execCMvRv32eRd (parcel : Parcel) (s : State) : Outcome State := raiseIllegal parcel s

/-- C.MV.RV32E.rs2 (30 R108): names a register of x16 to x31. -/
def execCMvRv32eRs2 (parcel : Parcel) (s : State) : Outcome State := raiseIllegal parcel s

/-- C.JALR.RV32E (30 R108): names a register of x16 to x31. -/
def execCJalrRv32e (parcel : Parcel) (s : State) : Outcome State := raiseIllegal parcel s

/-- C.ADD.RV32E.rd (30 R108): names a register of x16 to x31. -/
def execCAddRv32eRd (parcel : Parcel) (s : State) : Outcome State := raiseIllegal parcel s

/-- C.ADD.RV32E.rs2 (30 R108): names a register of x16 to x31. -/
def execCAddRv32eRs2 (parcel : Parcel) (s : State) : Outcome State := raiseIllegal parcel s

/-- C.FSDSP (42 R182): an encoding of an absent extension. -/
def execCFsdsp (parcel : Parcel) (s : State) : Outcome State := raiseIllegal parcel s

/-- C.SWSP.RV32E (30 R108): names a register of x16 to x31. -/
def execCSwspRv32e (parcel : Parcel) (s : State) : Outcome State := raiseIllegal parcel s

/-- C.FSWSP (42 R182): an encoding of an absent extension. -/
def execCFswsp (parcel : Parcel) (s : State) : Outcome State := raiseIllegal parcel s

/-- WIDE (30 R70, R111): the outcome is `Refuse(WideInstruction, pc)`; the parcel at pc + 2 is not read
(20 R44). -/
def execWide (_parcel : Parcel) (s : State) : Outcome State := .refused (.wideInstruction s.pc)

end Sys2Proof.Machine
end

