-- ==== Sys2Proof/Machine/System.lean ====
section
/-!
DEFINITION. The one system instruction (60_exceptions.md R226): C.EBREAK.
-/

namespace Sys2Proof.Machine

/-- C.EBREAK (42 R186): `raise Breakpoint(pc)`. The exception is the whole effect; pc is not advanced
(42 R186, 60 R215). -/
def execCEbreak (s : State) : Outcome State := raise .breakpoint s.pc s

end Sys2Proof.Machine
end

