-- ==== Sys2Proof/Machine/Dispatch.lean ====
section
/-!
DEFINITION. The meaning of every instruction: one arm per constructor of `Instr`, in the order of
spec/opcode_table.json, each one direct call of the instruction's own definition.
-/

namespace Sys2Proof.Machine

def exec (i : Instr) (s : State) : Host.Outcome State Fault Refusal :=
  match i with
  | .cIllegal => Sys2Proof.Machine.execCIllegal s
  | .cAddi4spnRes parcel => Sys2Proof.Machine.execCAddi4spnRes parcel s
  | .cAddi4spn rd nzuimm => Sys2Proof.Machine.execCAddi4spn rd nzuimm s
  | .cFld parcel => Sys2Proof.Machine.execCFld parcel s
  | .cLw rd rs1 uimm => Sys2Proof.Machine.execCLw rd rs1 uimm s
  | .cFlw parcel => Sys2Proof.Machine.execCFlw parcel s
  | .q0Reserved parcel => Sys2Proof.Machine.execQ0Reserved parcel s
  | .cFsd parcel => Sys2Proof.Machine.execCFsd parcel s
  | .cSw rs2 rs1 uimm => Sys2Proof.Machine.execCSw rs2 rs1 uimm s
  | .cFsw parcel => Sys2Proof.Machine.execCFsw parcel s
  | .cNop => Sys2Proof.Machine.execCNop s
  | .cNopHint nzimm => Sys2Proof.Machine.execCNopHint nzimm s
  | .cAddi rd nzimm => Sys2Proof.Machine.execCAddi rd nzimm s
  | .cAddiHint rd => Sys2Proof.Machine.execCAddiHint rd s
  | .cAddiRv32e parcel => Sys2Proof.Machine.execCAddiRv32e parcel s
  | .cJal offset => Sys2Proof.Machine.execCJal offset s
  | .cLi rd imm => Sys2Proof.Machine.execCLi rd imm s
  | .cLiHint imm => Sys2Proof.Machine.execCLiHint imm s
  | .cLiRv32e parcel => Sys2Proof.Machine.execCLiRv32e parcel s
  | .cAddi16spRes => Sys2Proof.Machine.execCAddi16spRes s
  | .cAddi16sp nzimm => Sys2Proof.Machine.execCAddi16sp nzimm s
  | .cLuiRes parcel => Sys2Proof.Machine.execCLuiRes parcel s
  | .cLui rd nzimm => Sys2Proof.Machine.execCLui rd nzimm s
  | .cLuiHint nzimm => Sys2Proof.Machine.execCLuiHint nzimm s
  | .cLuiRv32e parcel => Sys2Proof.Machine.execCLuiRv32e parcel s
  | .cSrli rd shamt => Sys2Proof.Machine.execCSrli rd shamt s
  | .cSrli64Hint rd => Sys2Proof.Machine.execCSrli64Hint rd s
  | .cSrliCustom parcel => Sys2Proof.Machine.execCSrliCustom parcel s
  | .cSrai rd shamt => Sys2Proof.Machine.execCSrai rd shamt s
  | .cSrai64Hint rd => Sys2Proof.Machine.execCSrai64Hint rd s
  | .cSraiCustom parcel => Sys2Proof.Machine.execCSraiCustom parcel s
  | .cAndi rd imm => Sys2Proof.Machine.execCAndi rd imm s
  | .cSub rd rs2 => Sys2Proof.Machine.execCSub rd rs2 s
  | .cXor rd rs2 => Sys2Proof.Machine.execCXor rd rs2 s
  | .cOr rd rs2 => Sys2Proof.Machine.execCOr rd rs2 s
  | .cAnd rd rs2 => Sys2Proof.Machine.execCAnd rd rs2 s
  | .cSubwRes parcel => Sys2Proof.Machine.execCSubwRes parcel s
  | .cAddwRes parcel => Sys2Proof.Machine.execCAddwRes parcel s
  | .q1Reserved10 parcel => Sys2Proof.Machine.execQ1Reserved10 parcel s
  | .q1Reserved11 parcel => Sys2Proof.Machine.execQ1Reserved11 parcel s
  | .cJ offset => Sys2Proof.Machine.execCJ offset s
  | .cBeqz rs1 offset => Sys2Proof.Machine.execCBeqz rs1 offset s
  | .cBnez rs1 offset => Sys2Proof.Machine.execCBnez rs1 offset s
  | .cSlliCustom parcel => Sys2Proof.Machine.execCSlliCustom parcel s
  | .cSlli rd shamt => Sys2Proof.Machine.execCSlli rd shamt s
  | .cSlliHint shamt => Sys2Proof.Machine.execCSlliHint shamt s
  | .cSlli64Hint rd => Sys2Proof.Machine.execCSlli64Hint rd s
  | .cSlliRv32e parcel => Sys2Proof.Machine.execCSlliRv32e parcel s
  | .cFldsp parcel => Sys2Proof.Machine.execCFldsp parcel s
  | .cLwsp rd uimm => Sys2Proof.Machine.execCLwsp rd uimm s
  | .cLwspRes parcel => Sys2Proof.Machine.execCLwspRes parcel s
  | .cLwspRv32e parcel => Sys2Proof.Machine.execCLwspRv32e parcel s
  | .cFlwsp parcel => Sys2Proof.Machine.execCFlwsp parcel s
  | .cJrRes => Sys2Proof.Machine.execCJrRes s
  | .cJr rs1 => Sys2Proof.Machine.execCJr rs1 s
  | .cJrRv32e parcel => Sys2Proof.Machine.execCJrRv32e parcel s
  | .cMv rd rs2 => Sys2Proof.Machine.execCMv rd rs2 s
  | .cMvHint rs2 => Sys2Proof.Machine.execCMvHint rs2 s
  | .cMvRv32eRd parcel => Sys2Proof.Machine.execCMvRv32eRd parcel s
  | .cMvRv32eRs2 parcel => Sys2Proof.Machine.execCMvRv32eRs2 parcel s
  | .cEbreak => Sys2Proof.Machine.execCEbreak s
  | .cJalr rs1 => Sys2Proof.Machine.execCJalr rs1 s
  | .cJalrRv32e parcel => Sys2Proof.Machine.execCJalrRv32e parcel s
  | .cAdd rd rs2 => Sys2Proof.Machine.execCAdd rd rs2 s
  | .cAddHint rs2 => Sys2Proof.Machine.execCAddHint rs2 s
  | .cAddRv32eRd parcel => Sys2Proof.Machine.execCAddRv32eRd parcel s
  | .cAddRv32eRs2 parcel => Sys2Proof.Machine.execCAddRv32eRs2 parcel s
  | .cFsdsp parcel => Sys2Proof.Machine.execCFsdsp parcel s
  | .cSwsp rs2 uimm => Sys2Proof.Machine.execCSwsp rs2 uimm s
  | .cSwspRv32e parcel => Sys2Proof.Machine.execCSwspRv32e parcel s
  | .cFswsp parcel => Sys2Proof.Machine.execCFswsp parcel s
  | .wide parcel => Sys2Proof.Machine.execWide parcel s

end Sys2Proof.Machine
end

