-- ==== Sys2Proof/Machine/Step.lean ====
section
/-!
DEFINITION. One step of the hart: fetch, decode, execute of one parcel (00_scope.md R17,
60_exceptions.md R214); and the host's way of placing one instruction where the next step fetches.
-/

namespace Sys2Proof.Machine

/-- Fetch the parcel at pc, decode it and execute it, stopping at the first exception or refusal met
(60 R214). -/
def step (s : State) : Host.Outcome State Fault Refusal :=
  andThen (fetch s) fun p => exec (decode p) s

/-- `s` with the instruction of `nbits` bits `w` (every higher bit 0, one parcel long) placed where the
next step fetches: at pc with bit 0 cleared, in the byte order of 20 R41. It stands for the load of a
program from outside the machine (log 6). -/
def State.withFetchWord (s : State) (nbits w : Nat) : State :=
  placeParcel (BitVec.ofNat 16 (w % 2 ^ nbits)) s

end Sys2Proof.Machine
end

