-- ==== Sys2Proof/WellFormed.lean ====
section
/-!
DEFINITION. Which terms of `Instr` are instructions of the hardware: the conditions of the rows of
spec/opcode_table.json (30_encoding.md R118), as a Bool. Register numbers and immediate widths are
bounded by their types, so what is left are the conditions "not zero", "not 2", and, for a row that
carries its parcel, the row's mask, match and `where` conditions as the table has them.
-/

namespace Sys2Proof

/-- `inst & mask = match`, the first condition of a row (30 R118). -/
def matchesRow (mask mtch p : Parcel) : Bool := p &&& mask == mtch

/-- The conditions of the instruction's row of spec/opcode_table.json (30 R100 to R109, R118). -/
def Instr.wellFormed (i : Instr) : Bool :=
  match i with
  | .cIllegal => true
  | .cAddi4spnRes p => matchesRow 0xFFE3 0x0000 p && slice p 4 2 != 0
  | .cAddi4spn _ n => n != 0
  | .cFld p => matchesRow 0xE003 0x2000 p
  | .cLw _ _ _ => true
  | .cFlw p => matchesRow 0xE003 0x6000 p
  | .q0Reserved p => matchesRow 0xE003 0x8000 p
  | .cFsd p => matchesRow 0xE003 0xA000 p
  | .cSw _ _ _ => true
  | .cFsw p => matchesRow 0xE003 0xE000 p
  | .cNop => true
  | .cNopHint n => n != 0
  | .cAddi rd n => rd != 0 && n != 0
  | .cAddiHint rd => rd != 0
  | .cAddiRv32e p => matchesRow 0xE003 0x0001 p && decide (16 ≤ slice p 11 7)
  | .cJal _ => true
  | .cLi rd _ => rd != 0
  | .cLiHint _ => true
  | .cLiRv32e p => matchesRow 0xE003 0x4001 p && decide (16 ≤ slice p 11 7)
  | .cAddi16spRes => true
  | .cAddi16sp n => n != 0
  | .cLuiRes p => matchesRow 0xF07F 0x6001 p && slice p 11 7 != 2
  | .cLui rd n => rd != 0 && rd != 2 && n != 0
  | .cLuiHint n => n != 0
  | .cLuiRv32e p => matchesRow 0xE003 0x6001 p && decide (16 ≤ slice p 11 7) && (slice p 12 12 != 0 || slice p 6 2 != 0)
  | .cSrli _ n => n != 0
  | .cSrli64Hint _ => true
  | .cSrliCustom p => matchesRow 0xFC03 0x9001 p
  | .cSrai _ n => n != 0
  | .cSrai64Hint _ => true
  | .cSraiCustom p => matchesRow 0xFC03 0x9401 p
  | .cAndi _ _ => true
  | .cSub _ _ => true
  | .cXor _ _ => true
  | .cOr _ _ => true
  | .cAnd _ _ => true
  | .cSubwRes p => matchesRow 0xFC63 0x9C01 p
  | .cAddwRes p => matchesRow 0xFC63 0x9C21 p
  | .q1Reserved10 p => matchesRow 0xFC63 0x9C41 p
  | .q1Reserved11 p => matchesRow 0xFC63 0x9C61 p
  | .cJ _ => true
  | .cBeqz _ _ => true
  | .cBnez _ _ => true
  | .cSlliCustom p => matchesRow 0xF003 0x1002 p
  | .cSlli rd n => rd != 0 && n != 0
  | .cSlliHint n => n != 0
  | .cSlli64Hint _ => true
  | .cSlliRv32e p => matchesRow 0xF003 0x0002 p && decide (16 ≤ slice p 11 7)
  | .cFldsp p => matchesRow 0xE003 0x2002 p
  | .cLwsp rd _ => rd != 0
  | .cLwspRes p => matchesRow 0xEF83 0x4002 p
  | .cLwspRv32e p => matchesRow 0xE003 0x4002 p && decide (16 ≤ slice p 11 7)
  | .cFlwsp p => matchesRow 0xE003 0x6002 p
  | .cJrRes => true
  | .cJr rs1 => rs1 != 0
  | .cJrRv32e p => matchesRow 0xF07F 0x8002 p && decide (16 ≤ slice p 11 7)
  | .cMv rd rs2 => rd != 0 && rs2 != 0
  | .cMvHint rs2 => rs2 != 0
  | .cMvRv32eRd p => matchesRow 0xF003 0x8002 p && decide (16 ≤ slice p 11 7) && slice p 6 2 != 0
  | .cMvRv32eRs2 p => matchesRow 0xF003 0x8002 p && decide (slice p 11 7 < 16) && decide (16 ≤ slice p 6 2)
  | .cEbreak => true
  | .cJalr rs1 => rs1 != 0
  | .cJalrRv32e p => matchesRow 0xF07F 0x9002 p && decide (16 ≤ slice p 11 7)
  | .cAdd rd rs2 => rd != 0 && rs2 != 0
  | .cAddHint rs2 => rs2 != 0
  | .cAddRv32eRd p => matchesRow 0xF003 0x9002 p && decide (16 ≤ slice p 11 7) && slice p 6 2 != 0
  | .cAddRv32eRs2 p => matchesRow 0xF003 0x9002 p && decide (slice p 11 7 < 16) && decide (16 ≤ slice p 6 2)
  | .cFsdsp p => matchesRow 0xE003 0xA002 p
  | .cSwsp _ _ => true
  | .cSwspRv32e p => matchesRow 0xE003 0xC002 p && decide (16 ≤ slice p 6 2)
  | .cFswsp p => matchesRow 0xE003 0xE002 p
  | .wide p => matchesRow 0x0003 0x0003 p

end Sys2Proof
end

