-- ==== Sys2Proof/Safety.lean ====
section
/-!
DEFINITION. The terms the statements are made in: what a state keeps and changes, the invariant, the
operands of a parcel as the spec's rules write them (read through `slice`, not through the decoder),
which registers and addresses an instruction uses (10_state.md R24), the classes of parcels
(30_encoding.md R103 to R111), and the normal end of a run (70_reset_and_hazards.md R258).
-/

namespace Sys2Proof.Machine

/-! ## What a step keeps and changes -/

/-- Every byte of memory, `Dirty` and `MemMap` are as before. -/
def SameMemory (s t : State) : Prop :=
  (∀ a : Word, byteAt a t = byteAt a s) ∧ t.dirty = s.dirty ∧ t.memMap = s.memMap

/-- Every register is as before. -/
def SameRegs (s t : State) : Prop := ∀ r : RegIdx, readReg r t = readReg r s

/-- Every register but `rd` is as before. -/
def SameRegsBut (rd : RegIdx) (s t : State) : Prop := ∀ r : RegIdx, r ≠ rd → readReg r t = readReg r s

/-- `x[rd] <- v; pc <- pc + 2`, and nothing else changes. -/
def SetsRegister (rd : RegIdx) (v : Word) (s t : State) : Prop :=
  readReg rd t = v ∧ SameRegsBut rd s t ∧ SameMemory s t ∧ t.pc = s.pc + 2

/-- `pc <- target`, and nothing else changes. -/
def GoesTo (target : Word) (s t : State) : Prop := t.pc = target ∧ SameRegs s t ∧ SameMemory s t

/-- `x[1] <- pc + 2; pc <- target`, and nothing else changes. -/
def LinksAndGoesTo (target : Word) (s t : State) : Prop :=
  t.pc = target ∧ readReg 1 t = s.pc + 2 ∧ SameRegsBut 1 s t ∧ SameMemory s t

/-- The four addresses of the word at `a`, each modulo 2^32 (20 R40). -/
def InWord (a b : Word) : Prop := b = a ∨ b = a + 1 ∨ b = a + 2 ∨ b = a + 3

/-- `mem[a + k] <- v[8k+7 : 8k]` for k = 0 to 3, the four addresses join `Dirty`, every other byte and
`MemMap` are as before (20 R41, R43). -/
def StoresWord (a v : Word) (s t : State) : Prop :=
  (byteAt a t).toNat = v.toNat % 256 ∧
  (byteAt (a + 1) t).toNat = v.toNat / 2 ^ 8 % 256 ∧
  (byteAt (a + 2) t).toNat = v.toNat / 2 ^ 16 % 256 ∧
  (byteAt (a + 3) t).toNat = v.toNat / 2 ^ 24 % 256 ∧
  (∀ b : Word, ¬ InWord a b → byteAt b t = byteAt b s) ∧
  (∀ b : Word, isDirty b t = true ↔ isDirty b s = true ∨ InWord a b) ∧
  t.memMap = s.memMap

/-- The little-endian value of the four bytes at `a` (20 R42). -/
def wordValue (a : Word) (s : State) : Nat :=
  (byteAt a s).toNat + 2 ^ 8 * (byteAt (a + 1) s).toNat + 2 ^ 16 * (byteAt (a + 2) s).toNat +
    2 ^ 24 * (byteAt (a + 3) s).toNat

/-- Every byte of the word at `a` has the permission (20 R49). -/
def WordPermitted (p : Perm) (a : Word) (s : State) : Prop :=
  ∀ b : Word, InWord a b → permits p b s = true

/-- The outcome of a load of the word at `a` into `rd` (20 R42, 60 R210): misaligned, not readable, or
done, with the pc's advance and nothing else changed. -/
def LoadOutcome (rd : RegIdx) (a : Word) (s : State) (o : Outcome State) : Prop :=
  (a.toNat % 4 ≠ 0 → o = .fault (.trap .loadAddressMisaligned a s.pc)) ∧
  (a.toNat % 4 = 0 → ¬ WordPermitted .read a s → o = .fault (.trap .loadAccessFault a s.pc)) ∧
  (a.toNat % 4 = 0 → WordPermitted .read a s →
    ∃ t, o = .next t ∧ SetsRegister rd (BitVec.ofNat 32 (wordValue a s)) s t)

/-- The outcome of a store of `v` to the word at `a` (20 R43, 60 R210): misaligned, not writable, or
done, with the pc's advance and nothing else changed. -/
def StoreOutcome (a v : Word) (s : State) (o : Outcome State) : Prop :=
  (a.toNat % 4 ≠ 0 → o = .fault (.trap .storeAddressMisaligned a s.pc)) ∧
  (a.toNat % 4 = 0 → ¬ WordPermitted .write a s → o = .fault (.trap .storeAccessFault a s.pc)) ∧
  (a.toNat % 4 = 0 → WordPermitted .write a s →
    ∃ t, o = .next t ∧ StoresWord a v s t ∧ SameRegs s t ∧ t.pc = s.pc + 2)

/-- `Trap(IllegalInstruction, zext_32(inst), pc)` (30 R104 to R109). -/
def illegalTrap (p : Parcel) (s : State) : Outcome State :=
  .fault (.trap .illegalInstruction (BitVec.ofNat 32 p.toNat) s.pc)

/-! ## The invariant of the machine -/

/-- pc is even (10 R26), memory and `Dirty` have their canonical form, and every byte in `Dirty` may be
written (20 R43, R49). -/
def Inv (s : State) : Prop :=
  s.pc.toNat % 2 = 0 ∧ Memory.wf s.mem ∧ DirtySet.wf s.dirty ∧
    ∀ a : Word, isDirty a s = true → permits .write a s = true

/-! ## Registers and immediates of a parcel, as the rules of 30_encoding.md write them -/

/-- The register a 5-bit field of value `n` names, n below 16 (30 R94). -/
def xReg (n : Nat) : RegIdx := Fin.ofNat 16 n

/-- The register a 3-bit field of value `n` names, x(8 + n) (10 R23). -/
def xPrime (n : Nat) : RegIdx := Fin.ofNat 16 (8 + n)

/-- nzuimm of C.ADDI4SPN (30 R84). -/
def addi4spnOf (p : Parcel) : Nat :=
  64 * slice p 10 7 + 16 * slice p 12 11 + 8 * slice p 5 5 + 4 * slice p 6 6

/-- uimm of C.LW and C.SW (30 R85). -/
def lwOffsetOf (p : Parcel) : Nat := 64 * slice p 5 5 + 8 * slice p 12 10 + 4 * slice p 6 6

/-- imm of C.NOP, C.ADDI, C.LI and C.ANDI (30 R86). -/
def imm6Of (p : Parcel) : Int := (slice p 6 2 : Int) - 32 * slice p 12 12

/-- nzimm of C.ADDI16SP (30 R87). -/
def addi16spOf (p : Parcel) : Int :=
  128 * (slice p 4 3 : Int) + 64 * slice p 5 5 + 32 * slice p 2 2 + 16 * slice p 6 6 - 512 * slice p 12 12

/-- nzimm of C.LUI (30 R88). -/
def luiOf (p : Parcel) : Int := 4096 * (slice p 6 2 : Int) - 131072 * slice p 12 12

/-- The offset of C.JAL and C.J (30 R89). -/
def jumpOf (p : Parcel) : Int :=
  1024 * (slice p 8 8 : Int) + 256 * slice p 10 9 + 128 * slice p 6 6 + 64 * slice p 7 7 +
    32 * slice p 2 2 + 16 * slice p 11 11 + 2 * slice p 5 3 - 2048 * slice p 12 12

/-- The offset of C.BEQZ and C.BNEZ (30 R90). -/
def branchOf (p : Parcel) : Int :=
  64 * (slice p 6 5 : Int) + 32 * slice p 2 2 + 8 * slice p 11 10 + 2 * slice p 4 3 - 256 * slice p 12 12

/-- uimm of C.LWSP (30 R91). -/
def lwspOffsetOf (p : Parcel) : Nat := 64 * slice p 3 2 + 32 * slice p 12 12 + 4 * slice p 6 4

/-- uimm of C.SWSP (30 R92). -/
def swspOffsetOf (p : Parcel) : Nat := 64 * slice p 8 7 + 4 * slice p 12 9

/-! ## The classes of parcels (30 R104 to R111), by their bits -/

/-- The reserved encodings of 30 R105, groups (1) to (7). -/
def ReservedRow (p : Parcel) : Prop :=
  (slice p 1 0 = 0 ∧ slice p 15 13 = 0 ∧ slice p 12 5 = 0 ∧ slice p 4 2 ≠ 0) ∨
  (slice p 1 0 = 0 ∧ slice p 15 13 = 4) ∨
  p = 0x6101 ∨
  (slice p 1 0 = 1 ∧ slice p 15 13 = 3 ∧ slice p 12 12 = 0 ∧ slice p 6 2 = 0 ∧ slice p 11 7 ≠ 2) ∨
  (slice p 1 0 = 1 ∧ slice p 15 13 = 4 ∧ slice p 12 12 = 1 ∧ slice p 11 10 = 3) ∨
  (slice p 1 0 = 2 ∧ slice p 15 13 = 2 ∧ slice p 11 7 = 0) ∨
  p = 0x8002

/-- The custom encodings (30 R106). -/
def CustomRow (p : Parcel) : Prop :=
  (slice p 1 0 = 1 ∧ slice p 15 13 = 4 ∧ slice p 12 12 = 1 ∧ slice p 11 10 = 0) ∨
  (slice p 1 0 = 1 ∧ slice p 15 13 = 4 ∧ slice p 12 12 = 1 ∧ slice p 11 10 = 1) ∨
  (slice p 1 0 = 2 ∧ slice p 15 13 = 0 ∧ slice p 12 12 = 1)

/-- The encodings of absent extensions (30 R109). -/
def AbsentExtensionRow (p : Parcel) : Prop :=
  (slice p 1 0 = 0 ∨ slice p 1 0 = 2) ∧
    (slice p 15 13 = 1 ∨ slice p 15 13 = 3 ∨ slice p 15 13 = 5 ∨ slice p 15 13 = 7)

/-- A 5-bit register field that its row leaves free holds 16 to 31 (30 R108): inst[11:7] of C.ADDI,
C.LI, C.LUI, C.SLLI, C.LWSP, C.JR, C.JALR, C.MV and C.ADD, inst[6:2] of C.MV, C.ADD and C.SWSP. -/
def FreeFieldNamesAbsentReg (p : Parcel) : Prop :=
  (slice p 1 0 = 1 ∧ (slice p 15 13 = 0 ∨ slice p 15 13 = 2 ∨ slice p 15 13 = 3) ∧ 16 ≤ slice p 11 7) ∨
  (slice p 1 0 = 2 ∧ (slice p 15 13 = 0 ∨ slice p 15 13 = 2) ∧ 16 ≤ slice p 11 7) ∨
  (slice p 1 0 = 2 ∧ slice p 15 13 = 4 ∧ (16 ≤ slice p 11 7 ∨ 16 ≤ slice p 6 2)) ∨
  (slice p 1 0 = 2 ∧ slice p 15 13 = 6 ∧ 16 ≤ slice p 6 2)

/-- Not already illegal, reserved, custom or unimplemented, and a free register field names x16 to x31
(30 R108). -/
def AbsentRegRow (p : Parcel) : Prop :=
  FreeFieldNamesAbsentReg p ∧ p ≠ 0 ∧ ¬ ReservedRow p ∧ ¬ CustomRow p ∧ ¬ AbsentExtensionRow p

/-- The ten groups of HINT encodings (30 R107). -/
def HintRow (p : Parcel) : Prop :=
  (slice p 1 0 = 1 ∧ slice p 15 13 = 0 ∧ slice p 11 7 = 0 ∧ (slice p 12 12 ≠ 0 ∨ slice p 6 2 ≠ 0)) ∨
  (slice p 1 0 = 1 ∧ slice p 15 13 = 0 ∧ slice p 11 7 ≠ 0 ∧ slice p 11 7 < 16 ∧ slice p 12 12 = 0 ∧
    slice p 6 2 = 0) ∨
  (slice p 1 0 = 1 ∧ slice p 15 13 = 2 ∧ slice p 11 7 = 0) ∨
  (slice p 1 0 = 1 ∧ slice p 15 13 = 3 ∧ slice p 11 7 = 0 ∧ (slice p 12 12 ≠ 0 ∨ slice p 6 2 ≠ 0)) ∨
  (slice p 1 0 = 1 ∧ slice p 15 13 = 4 ∧ slice p 12 12 = 0 ∧ slice p 11 10 = 0 ∧ slice p 6 2 = 0) ∨
  (slice p 1 0 = 1 ∧ slice p 15 13 = 4 ∧ slice p 12 12 = 0 ∧ slice p 11 10 = 1 ∧ slice p 6 2 = 0) ∨
  (slice p 1 0 = 2 ∧ slice p 15 13 = 0 ∧ slice p 12 12 = 0 ∧ slice p 11 7 = 0 ∧ slice p 6 2 ≠ 0) ∨
  (slice p 1 0 = 2 ∧ slice p 15 13 = 0 ∧ slice p 12 12 = 0 ∧ slice p 6 2 = 0 ∧ slice p 11 7 < 16) ∨
  (slice p 1 0 = 2 ∧ slice p 15 13 = 4 ∧ slice p 12 12 = 0 ∧ slice p 11 7 = 0 ∧ slice p 6 2 ≠ 0 ∧
    slice p 6 2 < 16) ∨
  (slice p 1 0 = 2 ∧ slice p 15 13 = 4 ∧ slice p 12 12 = 1 ∧ slice p 11 7 = 0 ∧ slice p 6 2 ≠ 0 ∧
    slice p 6 2 < 16)

/-- The parcels that raise `IllegalInstruction` (60 R210): the illegal one, reserved, custom, of an
absent extension, or naming x16 to x31. -/
def IllegalRow (p : Parcel) : Prop :=
  p = 0 ∨ ReservedRow p ∨ CustomRow p ∨ AbsentExtensionRow p ∨ AbsentRegRow p

/-- A constructor of class HINT (30 R107). -/
def isHint : Instr → Bool
  | .cNopHint _ => true
  | .cAddiHint _ => true
  | .cLiHint _ => true
  | .cLuiHint _ => true
  | .cSrli64Hint _ => true
  | .cSrai64Hint _ => true
  | .cSlliHint _ => true
  | .cSlli64Hint _ => true
  | .cMvHint _ => true
  | .cAddHint _ => true
  | _ => false

/-! ## What an instruction reads, writes and addresses (10 R24, 20 R47) -/

/-- The registers an instruction reads (10 R24); a HINT reads none, and a parcel that traps or is
refused reads none. -/
def regsRead : Instr → List RegIdx
  | .cAddi4spn _ _ => [2]
  | .cLw _ rs1 _ => [cregIdx rs1]
  | .cSw rs2 rs1 _ => [cregIdx rs1, cregIdx rs2]
  | .cAddi rd _ => [rd]
  | .cAddi16sp _ => [2]
  | .cSrli rd _ => [cregIdx rd]
  | .cSrai rd _ => [cregIdx rd]
  | .cAndi rd _ => [cregIdx rd]
  | .cSub rd rs2 => [cregIdx rd, cregIdx rs2]
  | .cXor rd rs2 => [cregIdx rd, cregIdx rs2]
  | .cOr rd rs2 => [cregIdx rd, cregIdx rs2]
  | .cAnd rd rs2 => [cregIdx rd, cregIdx rs2]
  | .cBeqz rs1 _ => [cregIdx rs1]
  | .cBnez rs1 _ => [cregIdx rs1]
  | .cSlli rd _ => [rd]
  | .cLwsp _ _ => [2]
  | .cJr rs1 => [rs1]
  | .cMv _ rs2 => [rs2]
  | .cJalr rs1 => [rs1]
  | .cAdd rd rs2 => [rd, rs2]
  | .cSwsp rs2 _ => [2, rs2]
  | _ => []

/-- The register an instruction writes (10 R24). -/
def regWritten : Instr → Option RegIdx
  | .cAddi4spn rd _ => some (cregIdx rd)
  | .cLw rd _ _ => some (cregIdx rd)
  | .cAddi rd _ => some rd
  | .cJal _ => some 1
  | .cLi rd _ => some rd
  | .cAddi16sp _ => some 2
  | .cLui rd _ => some rd
  | .cSrli rd _ => some (cregIdx rd)
  | .cSrai rd _ => some (cregIdx rd)
  | .cAndi rd _ => some (cregIdx rd)
  | .cSub rd _ => some (cregIdx rd)
  | .cXor rd _ => some (cregIdx rd)
  | .cOr rd _ => some (cregIdx rd)
  | .cAnd rd _ => some (cregIdx rd)
  | .cSlli rd _ => some rd
  | .cLwsp rd _ => some rd
  | .cMv rd _ => some rd
  | .cJalr _ => some 1
  | .cAdd rd _ => some rd
  | _ => none

/-- The address a load reads at: C.LW and C.LWSP alone (20 R47). -/
def loadAddress (i : Instr) (s : State) : Option Word :=
  match i with
  | .cLw _ rs1 uimm => some (effAddr (readReg (cregIdx rs1) s) (uimmLwSw uimm))
  | .cLwsp _ uimm => some (effAddr (readReg stackReg s) (uimmSp uimm))
  | _ => none

/-- The address a store writes at: C.SW and C.SWSP alone (20 R47). -/
def storeAddress (i : Instr) (s : State) : Option Word :=
  match i with
  | .cSw _ rs1 uimm => some (effAddr (readReg (cregIdx rs1) s) (uimmLwSw uimm))
  | .cSwsp _ uimm => some (effAddr (readReg stackReg s) (uimmSp uimm))
  | _ => none

/-- The word a store writes: x(8 + rs2') of C.SW, x[rs2] of C.SWSP (10 R24). -/
def storeData (i : Instr) (s : State) : Word :=
  match i with
  | .cSw rs2 _ _ => readReg (cregIdx rs2) s
  | .cSwsp rs2 _ => readReg rs2 s
  | _ => 0

/-- Where a control transfer goes, `none` for an instruction that goes on at pc + 2: C.J, C.JAL, C.JR,
C.JALR, and C.BEQZ and C.BNEZ when taken (10 R27). -/
def transferTarget (i : Instr) (s : State) : Option Word :=
  match i with
  | .cJ offset => some (s.pc + offsetJump offset)
  | .cJal offset => some (s.pc + offsetJump offset)
  | .cJr rs1 => some (jumpTarget (readReg rs1 s))
  | .cJalr rs1 => some (jumpTarget (readReg rs1 s))
  | .cBeqz rs1 offset => if readReg (cregIdx rs1) s = 0 then some (s.pc + offsetBranch offset) else none
  | .cBnez rs1 offset => if readReg (cregIdx rs1) s = 0 then none else some (s.pc + offsetBranch offset)
  | _ => none

/-! ## What a step fetches, stores and raises -/

/-- The parcel at pc can be fetched (20 R44): pc is even, both bytes are executable, neither was stored
to. -/
def Fetchable (s : State) : Prop :=
  s.pc.toNat % 2 = 0 ∧ permits .execute s.pc s = true ∧ permits .execute (s.pc + 1) s = true ∧
    isDirty s.pc s = false ∧ isDirty (s.pc + 1) s = false

/-- The step from `s` stores to the byte at `b`: the parcel it fetches is a store to a word that holds
the byte, and the step goes on. -/
def StepStoresTo (s : State) (b : Word) : Prop :=
  ∃ p a t, fetch s = .next p ∧ storeAddress (decode p) s = some a ∧ InWord a b ∧ step s = .next t

/-- The row of the table of 60 R210 for the exception `e` with information `info`: what raises it in a
step from `s`, and when. -/
def RaisedBy (e : Exception) (info : Word) (s : State) : Prop :=
  match e with
  | .instructionAddressMisaligned => s.pc.toNat % 2 ≠ 0 ∧ info = s.pc
  | .instructionAccessFault =>
    s.pc.toNat % 2 = 0 ∧ ¬ (permits .execute s.pc s = true ∧ permits .execute (s.pc + 1) s = true) ∧
      info = s.pc
  | .illegalInstruction =>
    ∃ p, fetch s = .next p ∧ IllegalRow p ∧ info = BitVec.ofNat 32 p.toNat
  | .breakpoint => fetch s = .next 0x9002 ∧ info = s.pc
  | .loadAddressMisaligned =>
    ∃ p, fetch s = .next p ∧ loadAddress (decode p) s = some info ∧ info.toNat % 4 ≠ 0
  | .loadAccessFault =>
    ∃ p, fetch s = .next p ∧ loadAddress (decode p) s = some info ∧ info.toNat % 4 = 0 ∧
      ¬ WordPermitted .read info s
  | .storeAddressMisaligned =>
    ∃ p, fetch s = .next p ∧ storeAddress (decode p) s = some info ∧ info.toNat % 4 ≠ 0
  | .storeAccessFault =>
    ∃ p, fetch s = .next p ∧ storeAddress (decode p) s = some info ∧ info.toNat % 4 = 0 ∧
      ¬ WordPermitted .write info s

/-- What refuses a step from `s`, by the reason of 00 R17: the parcel that can be fetched at pc begins a
wider instruction (30 R70), or an executable parcel at an even pc was stored to since launch (20 R44,
R55). Nothing else does. -/
def RefusedFor (r : Refusal) (s : State) : Prop :=
  match r with
  | .wideInstruction q => q = s.pc ∧ Fetchable s ∧ slice (parcelAt s.pc s) 1 0 = 3
  | .fetchOfModifiedCode q =>
    q = s.pc ∧ s.pc.toNat % 2 = 0 ∧ permits .execute s.pc s = true ∧
      permits .execute (s.pc + 1) s = true ∧ (isDirty s.pc s = true ∨ isDirty (s.pc + 1) s = true)
  | _ => False

/-! ## Comparing two states -/

/-- The two states differ at most in registers that are not in `rs`. -/
def AgreeOnRegs (rs : List RegIdx) (s1 s2 : State) : Prop :=
  s1.pc = s2.pc ∧ s1.mem = s2.mem ∧ s1.dirty = s2.dirty ∧ s1.memMap = s2.memMap ∧
    ∀ r ∈ rs, readReg r s1 = readReg r s2

/-- The two states differ at most in the bytes of memory that have neither read nor execute
permission. -/
def AgreeOnAccessible (s1 s2 : State) : Prop :=
  s1.pc = s2.pc ∧ s1.dirty = s2.dirty ∧ s1.memMap = s2.memMap ∧ SameRegs s1 s2 ∧
    ∀ a : Word, permits .read a s1 = true ∨ permits .execute a s1 = true → byteAt a s1 = byteAt a s2

/-- Two outcomes that stop in the same way, or go on in states related by `R`. -/
def OutcomesRelated (R : State → State → Prop) (o1 o2 : Outcome State) : Prop :=
  match o1, o2 with
  | .next t1, .next t2 => R t1 t2
  | .fault f1, .fault f2 => f1 = f2
  | .refused r1, .refused r2 => r1 = r2
  | _, _ => False

/-! ## Runs (70 R258) -/

/-- The state after `n` steps, each with outcome `Next`. -/
def Reaches (s : State) (n : Nat) (t : State) : Prop := Sys2Proof.core.run n s = .next t

/-- The run from `s` ends normally at `q`: its final outcome is `Trap(Breakpoint, q, q)` (70 R258). -/
def EndsNormally (s : State) (q : Word) : Prop :=
  ∃ n t, Reaches s n t ∧ step t = .fault (.trap .breakpoint q q)

end Sys2Proof.Machine
end

