-- ==== Sys2Proof/Certificates/Slice0/Obligations.lean ====
section
/-!
DEFINITION. The statements for the provers. A statement about parcels reads them through `slice`
(`inst[hi:lo]`, 00_scope.md R9) and the operand formulas of Safety.lean, which are written from
30_encoding.md R84 to R93 and share no code with the decoder. Registers, memory bytes, `Dirty`, `MemMap`
and pc are the whole state, so `SetsRegister`, `GoesTo`, `LinksAndGoesTo`, `LoadOutcome` and
`StoreOutcome` say the frame of an instruction as well as its effect.
-/

section

open Sys2Proof Sys2Proof.Machine

/-! ## Decoding and encoding -/

/-- DERIVED (30 R70, R84 to R94, R103): decoding the parcel of a well-formed instruction gives the
instruction back, for every constructor and every operand. -/
def Obligations.DecodeOfEncodeIsTheInstruction : Prop :=
  ∀ i : Instr, i.wellFormed = true → decode (encode i) = i

/-- DERIVED (30 R103, R118): every one of the 65,536 parcels decodes to an instruction that meets its
row's conditions, and that instruction's parcel is the parcel: no two parcels share an instruction. -/
def Obligations.EveryParcelIsItsInstructionsEncoding : Prop :=
  ∀ p : Parcel, (decode p).wellFormed = true ∧ encode (decode p) = p

/-- DERIVED (the examples of 40 R121 to R123, 41 R141 to R155, 42 R181 to R190): a word of each format
decodes to the instruction and the operands that the rule's example names. -/
def Obligations.ExampleParcelsDecode : Prop :=
  decode 0x0808 = .cAddi4spn 2 4 ∧ decode 0x4588 = .cLw 2 3 2 ∧ decode 0xC588 = .cSw 2 3 2 ∧
  decode 0x157D = .cAddi 10 0b111111 ∧ decode 0x2801 = .cJal 8 ∧ decode 0x47FD = .cLi 15 31 ∧
  decode 0x7139 = .cAddi16sp 0b111100 ∧ decode 0x7501 = .cLui 10 0b100000 ∧
  decode 0x8405 = .cSrai 0 1 ∧ decode 0x8D0D = .cSub 2 3 ∧ decode 0xBFFD = .cJ 0b11111111111 ∧
  decode 0xFCED = .cBnez 1 0b11111101 ∧ decode 0x00FE = .cSlli 1 31 ∧ decode 0x4522 = .cLwsp 10 2 ∧
  decode 0x9282 = .cJalr 5 ∧ decode 0x852E = .cMv 10 11 ∧ decode 0x9002 = .cEbreak ∧
  decode 0xDF82 = .cSwsp 0 0b111111

/-! ## Quadrant 0 -/

/-- 40 R120: the parcel 0x0000 is the illegal instruction, not C.ADDI4SPN; executing it raises
`IllegalInstruction` with information 0 in every state. -/
def Obligations.AllZeroParcelIsIllegal : Prop :=
  decode 0x0000 = .cIllegal ∧
  ∀ s : State, exec .cIllegal s = .fault (.trap .illegalInstruction 0 s.pc)

/-- 40 R121: C.ADDI4SPN, and its RES form. -/
def Obligations.Addi4spnAddsToStackPointer : Prop :=
  ∀ (p : Parcel) (s : State), slice p 1 0 = 0 → slice p 15 13 = 0 →
    (slice p 12 5 ≠ 0 → ∃ n, decode p = .cAddi4spn (Fin.ofNat 8 (slice p 4 2)) n ∧
      ∃ t, exec (.cAddi4spn (Fin.ofNat 8 (slice p 4 2)) n) s = .next t ∧
        SetsRegister (xPrime (slice p 4 2)) (readReg 2 s + BitVec.ofNat 32 (addi4spnOf p)) s t) ∧
    (slice p 12 5 = 0 → slice p 4 2 ≠ 0 →
      decode p = .cAddi4spnRes p ∧ exec (.cAddi4spnRes p) s = illegalTrap p s) ∧
    (slice p 12 2 = 0 → decode p = .cIllegal ∧ exec .cIllegal s = illegalTrap p s)

/-- 40 R122: C.LW. -/
def Obligations.LwLoadsWord : Prop :=
  ∀ (p : Parcel) (s : State), slice p 1 0 = 0 → slice p 15 13 = 2 →
    ∃ n, decode p = .cLw (Fin.ofNat 8 (slice p 4 2)) (Fin.ofNat 8 (slice p 9 7)) n ∧
      LoadOutcome (xPrime (slice p 4 2))
        (readReg (xPrime (slice p 9 7)) s + BitVec.ofNat 32 (lwOffsetOf p)) s
        (exec (.cLw (Fin.ofNat 8 (slice p 4 2)) (Fin.ofNat 8 (slice p 9 7)) n) s)

/-- 40 R123: C.SW. -/
def Obligations.SwStoresWord : Prop :=
  ∀ (p : Parcel) (s : State), slice p 1 0 = 0 → slice p 15 13 = 6 →
    ∃ n, decode p = .cSw (Fin.ofNat 8 (slice p 4 2)) (Fin.ofNat 8 (slice p 9 7)) n ∧
      StoreOutcome (readReg (xPrime (slice p 9 7)) s + BitVec.ofNat 32 (lwOffsetOf p))
        (readReg (xPrime (slice p 4 2)) s) s
        (exec (.cSw (Fin.ofNat 8 (slice p 4 2)) (Fin.ofNat 8 (slice p 9 7)) n) s)

/-- 40 R124, 40 R125 and 42 R182: the reserved row of quadrant 0 and the eight rows of compressed
floating-point loads and stores raise `IllegalInstruction`. -/
def Obligations.ReservedSlotAndFloatingRowsTrap : Prop :=
  ∀ (p : Parcel) (s : State),
    (slice p 1 0 = 0 → slice p 15 13 = 4 →
      decode p = .q0Reserved p ∧ exec (.q0Reserved p) s = illegalTrap p s) ∧
    (slice p 1 0 = 0 → slice p 15 13 = 1 → decode p = .cFld p ∧ exec (.cFld p) s = illegalTrap p s) ∧
    (slice p 1 0 = 0 → slice p 15 13 = 3 → decode p = .cFlw p ∧ exec (.cFlw p) s = illegalTrap p s) ∧
    (slice p 1 0 = 0 → slice p 15 13 = 5 → decode p = .cFsd p ∧ exec (.cFsd p) s = illegalTrap p s) ∧
    (slice p 1 0 = 0 → slice p 15 13 = 7 → decode p = .cFsw p ∧ exec (.cFsw p) s = illegalTrap p s) ∧
    (slice p 1 0 = 2 → slice p 15 13 = 1 →
      decode p = .cFldsp p ∧ exec (.cFldsp p) s = illegalTrap p s) ∧
    (slice p 1 0 = 2 → slice p 15 13 = 3 →
      decode p = .cFlwsp p ∧ exec (.cFlwsp p) s = illegalTrap p s) ∧
    (slice p 1 0 = 2 → slice p 15 13 = 5 →
      decode p = .cFsdsp p ∧ exec (.cFsdsp p) s = illegalTrap p s) ∧
    (slice p 1 0 = 2 → slice p 15 13 = 7 →
      decode p = .cFswsp p ∧ exec (.cFswsp p) s = illegalTrap p s)

/-! ## Quadrant 1 -/

/-- 41 R140: C.NOP, and its HINT form, advance pc and do nothing else. -/
def Obligations.NopOnlyAdvancesPc : Prop :=
  ∀ (p : Parcel) (s : State), slice p 1 0 = 1 → slice p 15 13 = 0 → slice p 11 7 = 0 →
    (slice p 12 12 = 0 → slice p 6 2 = 0 →
      p = 0x0001 ∧ decode p = .cNop ∧ ∃ t, exec .cNop s = .next t ∧ GoesTo (s.pc + 2) s t) ∧
    (slice p 12 12 ≠ 0 ∨ slice p 6 2 ≠ 0 →
      ∃ n, decode p = .cNopHint n ∧ ∃ t, exec (.cNopHint n) s = .next t ∧ GoesTo (s.pc + 2) s t)

/-- 41 R141: C.ADDI, its HINT form and its forms that name x16 to x31. -/
def Obligations.AddiAddsImmediate : Prop :=
  ∀ (p : Parcel) (s : State), slice p 1 0 = 1 → slice p 15 13 = 0 → slice p 11 7 ≠ 0 →
    (slice p 11 7 < 16 → imm6Of p ≠ 0 → ∃ n, decode p = .cAddi (xReg (slice p 11 7)) n ∧
      ∃ t, exec (.cAddi (xReg (slice p 11 7)) n) s = .next t ∧
        SetsRegister (xReg (slice p 11 7))
          (readReg (xReg (slice p 11 7)) s + BitVec.ofInt 32 (imm6Of p)) s t) ∧
    (slice p 11 7 < 16 → imm6Of p = 0 → decode p = .cAddiHint (xReg (slice p 11 7)) ∧
      ∃ t, exec (.cAddiHint (xReg (slice p 11 7))) s = .next t ∧ GoesTo (s.pc + 2) s t) ∧
    (16 ≤ slice p 11 7 → decode p = .cAddiRv32e p ∧ exec (.cAddiRv32e p) s = illegalTrap p s)

/-- 41 R142: C.JAL. -/
def Obligations.JalJumpsAndLinks : Prop :=
  ∀ (p : Parcel) (s : State), slice p 1 0 = 1 → slice p 15 13 = 1 →
    ∃ n, decode p = .cJal n ∧ ∃ t, exec (.cJal n) s = .next t ∧
      LinksAndGoesTo (s.pc + BitVec.ofInt 32 (jumpOf p)) s t

/-- 41 R143: C.LI, its HINT form and its forms that name x16 to x31. -/
def Obligations.LiLoadsImmediate : Prop :=
  ∀ (p : Parcel) (s : State), slice p 1 0 = 1 → slice p 15 13 = 2 →
    (slice p 11 7 ≠ 0 → slice p 11 7 < 16 → ∃ n, decode p = .cLi (xReg (slice p 11 7)) n ∧
      ∃ t, exec (.cLi (xReg (slice p 11 7)) n) s = .next t ∧
        SetsRegister (xReg (slice p 11 7)) (BitVec.ofInt 32 (imm6Of p)) s t) ∧
    (slice p 11 7 = 0 → ∃ n, decode p = .cLiHint n ∧
      ∃ t, exec (.cLiHint n) s = .next t ∧ GoesTo (s.pc + 2) s t) ∧
    (16 ≤ slice p 11 7 → decode p = .cLiRv32e p ∧ exec (.cLiRv32e p) s = illegalTrap p s)

/-- 41 R144: C.ADDI16SP, and its RES form 0x6101. -/
def Obligations.Addi16spAddsToStackPointer : Prop :=
  ∀ (p : Parcel) (s : State), slice p 1 0 = 1 → slice p 15 13 = 3 → slice p 11 7 = 2 →
    (slice p 12 12 ≠ 0 ∨ slice p 6 2 ≠ 0 → ∃ n, decode p = .cAddi16sp n ∧
      ∃ t, exec (.cAddi16sp n) s = .next t ∧
        SetsRegister 2 (readReg 2 s + BitVec.ofInt 32 (addi16spOf p)) s t) ∧
    (slice p 12 12 = 0 → slice p 6 2 = 0 →
      p = 0x6101 ∧ decode p = .cAddi16spRes ∧ exec .cAddi16spRes s = illegalTrap p s)

/-- 41 R145: C.LUI, its RES and HINT forms and its forms that name x16 to x31. -/
def Obligations.LuiLoadsUpperImmediate : Prop :=
  ∀ (p : Parcel) (s : State), slice p 1 0 = 1 → slice p 15 13 = 3 → slice p 11 7 ≠ 2 →
    (slice p 11 7 ≠ 0 → slice p 11 7 < 16 → luiOf p ≠ 0 →
      ∃ n, decode p = .cLui (xReg (slice p 11 7)) n ∧
        ∃ t, exec (.cLui (xReg (slice p 11 7)) n) s = .next t ∧
          SetsRegister (xReg (slice p 11 7)) (BitVec.ofInt 32 (luiOf p)) s t) ∧
    (luiOf p = 0 → decode p = .cLuiRes p ∧ exec (.cLuiRes p) s = illegalTrap p s) ∧
    (slice p 11 7 = 0 → luiOf p ≠ 0 → ∃ n, decode p = .cLuiHint n ∧
      ∃ t, exec (.cLuiHint n) s = .next t ∧ GoesTo (s.pc + 2) s t) ∧
    (16 ≤ slice p 11 7 → luiOf p ≠ 0 →
      decode p = .cLuiRv32e p ∧ exec (.cLuiRv32e p) s = illegalTrap p s)

/-- 41 R146: C.SRLI, its Custom form and C.SRLI64. -/
def Obligations.SrliShiftsRightLogically : Prop :=
  ∀ (p : Parcel) (s : State), slice p 1 0 = 1 → slice p 15 13 = 4 → slice p 11 10 = 0 →
    (slice p 12 12 = 0 → slice p 6 2 ≠ 0 →
      ∃ n, decode p = .cSrli (Fin.ofNat 8 (slice p 9 7)) n ∧
        ∃ t, exec (.cSrli (Fin.ofNat 8 (slice p 9 7)) n) s = .next t ∧
          SetsRegister (xPrime (slice p 9 7))
            (BitVec.ofNat 32 ((readReg (xPrime (slice p 9 7)) s).toNat / 2 ^ slice p 6 2)) s t) ∧
    (slice p 12 12 = 0 → slice p 6 2 = 0 → decode p = .cSrli64Hint (Fin.ofNat 8 (slice p 9 7)) ∧
      ∃ t, exec (.cSrli64Hint (Fin.ofNat 8 (slice p 9 7))) s = .next t ∧ GoesTo (s.pc + 2) s t) ∧
    (slice p 12 12 = 1 → decode p = .cSrliCustom p ∧ exec (.cSrliCustom p) s = illegalTrap p s)

/-- 41 R147: C.SRAI, its Custom form and C.SRAI64. -/
def Obligations.SraiShiftsRightArithmetically : Prop :=
  ∀ (p : Parcel) (s : State), slice p 1 0 = 1 → slice p 15 13 = 4 → slice p 11 10 = 1 →
    (slice p 12 12 = 0 → slice p 6 2 ≠ 0 →
      ∃ n, decode p = .cSrai (Fin.ofNat 8 (slice p 9 7)) n ∧
        ∃ t, exec (.cSrai (Fin.ofNat 8 (slice p 9 7)) n) s = .next t ∧
          SetsRegister (xPrime (slice p 9 7))
            (BitVec.ofInt 32 ((readReg (xPrime (slice p 9 7)) s).toInt / 2 ^ slice p 6 2)) s t) ∧
    (slice p 12 12 = 0 → slice p 6 2 = 0 → decode p = .cSrai64Hint (Fin.ofNat 8 (slice p 9 7)) ∧
      ∃ t, exec (.cSrai64Hint (Fin.ofNat 8 (slice p 9 7))) s = .next t ∧ GoesTo (s.pc + 2) s t) ∧
    (slice p 12 12 = 1 → decode p = .cSraiCustom p ∧ exec (.cSraiCustom p) s = illegalTrap p s)

/-- 41 R148: C.ANDI. -/
def Obligations.AndiMasksWithImmediate : Prop :=
  ∀ (p : Parcel) (s : State), slice p 1 0 = 1 → slice p 15 13 = 4 → slice p 11 10 = 2 →
    ∃ n, decode p = .cAndi (Fin.ofNat 8 (slice p 9 7)) n ∧
      ∃ t, exec (.cAndi (Fin.ofNat 8 (slice p 9 7)) n) s = .next t ∧
        SetsRegister (xPrime (slice p 9 7))
          (readReg (xPrime (slice p 9 7)) s &&& BitVec.ofInt 32 (imm6Of p)) s t

/-- 41 R149 to R152: C.SUB, C.XOR, C.OR and C.AND. -/
def Obligations.RegisterArithmeticComputes : Prop :=
  ∀ (p : Parcel) (s : State), slice p 1 0 = 1 → slice p 15 13 = 4 → slice p 12 12 = 0 →
    slice p 11 10 = 3 →
    let rd : CReg := Fin.ofNat 8 (slice p 9 7)
    let rs2 : CReg := Fin.ofNat 8 (slice p 4 2)
    let a := readReg (xPrime (slice p 9 7)) s
    let b := readReg (xPrime (slice p 4 2)) s
    (slice p 6 5 = 0 → decode p = .cSub rd rs2 ∧
      ∃ t, exec (.cSub rd rs2) s = .next t ∧ SetsRegister (xPrime (slice p 9 7)) (a - b) s t) ∧
    (slice p 6 5 = 1 → decode p = .cXor rd rs2 ∧
      ∃ t, exec (.cXor rd rs2) s = .next t ∧ SetsRegister (xPrime (slice p 9 7)) (a ^^^ b) s t) ∧
    (slice p 6 5 = 2 → decode p = .cOr rd rs2 ∧
      ∃ t, exec (.cOr rd rs2) s = .next t ∧ SetsRegister (xPrime (slice p 9 7)) (a ||| b) s t) ∧
    (slice p 6 5 = 3 → decode p = .cAnd rd rs2 ∧
      ∃ t, exec (.cAnd rd rs2) s = .next t ∧ SetsRegister (xPrime (slice p 9 7)) (a &&& b) s t)

/-- 41 R153: C.J. -/
def Obligations.JJumps : Prop :=
  ∀ (p : Parcel) (s : State), slice p 1 0 = 1 → slice p 15 13 = 5 →
    ∃ n, decode p = .cJ n ∧ ∃ t, exec (.cJ n) s = .next t ∧
      GoesTo (s.pc + BitVec.ofInt 32 (jumpOf p)) s t

/-- 41 R154 and R155: C.BEQZ and C.BNEZ. -/
def Obligations.BranchesTestAgainstZero : Prop :=
  ∀ (p : Parcel) (s : State), slice p 1 0 = 1 →
    (slice p 15 13 = 6 → ∃ n, decode p = .cBeqz (Fin.ofNat 8 (slice p 9 7)) n ∧
      ∃ t, exec (.cBeqz (Fin.ofNat 8 (slice p 9 7)) n) s = .next t ∧
        GoesTo (if readReg (xPrime (slice p 9 7)) s = 0 then s.pc + BitVec.ofInt 32 (branchOf p)
          else s.pc + 2) s t) ∧
    (slice p 15 13 = 7 → ∃ n, decode p = .cBnez (Fin.ofNat 8 (slice p 9 7)) n ∧
      ∃ t, exec (.cBnez (Fin.ofNat 8 (slice p 9 7)) n) s = .next t ∧
        GoesTo (if readReg (xPrime (slice p 9 7)) s = 0 then s.pc + 2
          else s.pc + BitVec.ofInt 32 (branchOf p)) s t)

/-! ## Quadrant 2 -/

/-- 42 R180: C.SLLI, its Custom, HINT and C.SLLI64 forms and its forms that name x16 to x31. -/
def Obligations.SlliShiftsLeft : Prop :=
  ∀ (p : Parcel) (s : State), slice p 1 0 = 2 → slice p 15 13 = 0 →
    (slice p 12 12 = 0 → slice p 11 7 ≠ 0 → slice p 11 7 < 16 → slice p 6 2 ≠ 0 →
      ∃ n, decode p = .cSlli (xReg (slice p 11 7)) n ∧
        ∃ t, exec (.cSlli (xReg (slice p 11 7)) n) s = .next t ∧
          SetsRegister (xReg (slice p 11 7))
            (BitVec.ofNat 32 ((readReg (xReg (slice p 11 7)) s).toNat * 2 ^ slice p 6 2)) s t) ∧
    (slice p 12 12 = 1 → decode p = .cSlliCustom p ∧ exec (.cSlliCustom p) s = illegalTrap p s) ∧
    (slice p 12 12 = 0 → 16 ≤ slice p 11 7 →
      decode p = .cSlliRv32e p ∧ exec (.cSlliRv32e p) s = illegalTrap p s) ∧
    (slice p 12 12 = 0 → slice p 11 7 = 0 → slice p 6 2 ≠ 0 → ∃ n, decode p = .cSlliHint n ∧
      ∃ t, exec (.cSlliHint n) s = .next t ∧ GoesTo (s.pc + 2) s t) ∧
    (slice p 12 12 = 0 → slice p 11 7 < 16 → slice p 6 2 = 0 →
      decode p = .cSlli64Hint (xReg (slice p 11 7)) ∧
        ∃ t, exec (.cSlli64Hint (xReg (slice p 11 7))) s = .next t ∧ GoesTo (s.pc + 2) s t)

/-- 42 R181: C.LWSP, its RES form and its forms that name x16 to x31. -/
def Obligations.LwspLoadsWord : Prop :=
  ∀ (p : Parcel) (s : State), slice p 1 0 = 2 → slice p 15 13 = 2 →
    (slice p 11 7 ≠ 0 → slice p 11 7 < 16 → ∃ n, decode p = .cLwsp (xReg (slice p 11 7)) n ∧
      LoadOutcome (xReg (slice p 11 7)) (readReg 2 s + BitVec.ofNat 32 (lwspOffsetOf p)) s
        (exec (.cLwsp (xReg (slice p 11 7)) n) s)) ∧
    (slice p 11 7 = 0 → decode p = .cLwspRes p ∧ exec (.cLwspRes p) s = illegalTrap p s) ∧
    (16 ≤ slice p 11 7 → decode p = .cLwspRv32e p ∧ exec (.cLwspRv32e p) s = illegalTrap p s)

/-- 42 R183: C.JR, its RES form 0x8002 and its forms that name x16 to x31. -/
def Obligations.JrJumpsToRegister : Prop :=
  ∀ (p : Parcel) (s : State), slice p 1 0 = 2 → slice p 15 12 = 8 → slice p 6 2 = 0 →
    (slice p 11 7 ≠ 0 → slice p 11 7 < 16 → decode p = .cJr (xReg (slice p 11 7)) ∧
      ∃ t, exec (.cJr (xReg (slice p 11 7))) s = .next t ∧
        GoesTo (BitVec.ofNat 32 ((readReg (xReg (slice p 11 7)) s).toNat / 2 * 2)) s t) ∧
    (slice p 11 7 = 0 → p = 0x8002 ∧ decode p = .cJrRes ∧ exec .cJrRes s = illegalTrap p s) ∧
    (16 ≤ slice p 11 7 → decode p = .cJrRv32e p ∧ exec (.cJrRv32e p) s = illegalTrap p s)

/-- 42 R184: C.MV, its HINT form and its forms that name x16 to x31. -/
def Obligations.MvCopiesRegister : Prop :=
  ∀ (p : Parcel) (s : State), slice p 1 0 = 2 → slice p 15 12 = 8 → slice p 6 2 ≠ 0 →
    (slice p 11 7 ≠ 0 → slice p 11 7 < 16 → slice p 6 2 < 16 →
      decode p = .cMv (xReg (slice p 11 7)) (xReg (slice p 6 2)) ∧
        ∃ t, exec (.cMv (xReg (slice p 11 7)) (xReg (slice p 6 2))) s = .next t ∧
          SetsRegister (xReg (slice p 11 7)) (readReg (xReg (slice p 6 2)) s) s t) ∧
    (slice p 11 7 = 0 → slice p 6 2 < 16 → decode p = .cMvHint (xReg (slice p 6 2)) ∧
      ∃ t, exec (.cMvHint (xReg (slice p 6 2))) s = .next t ∧ GoesTo (s.pc + 2) s t) ∧
    (16 ≤ slice p 11 7 → decode p = .cMvRv32eRd p ∧ exec (.cMvRv32eRd p) s = illegalTrap p s) ∧
    (slice p 11 7 < 16 → 16 ≤ slice p 6 2 →
      decode p = .cMvRv32eRs2 p ∧ exec (.cMvRv32eRs2 p) s = illegalTrap p s)

/-- 42 R186: C.EBREAK always raises `Breakpoint(pc)` and does nothing else. -/
def Obligations.EbreakRaisesBreakpoint : Prop :=
  ∀ p : Parcel, slice p 1 0 = 2 → slice p 15 12 = 9 → slice p 11 7 = 0 → slice p 6 2 = 0 →
    p = 0x9002 ∧ decode p = .cEbreak ∧
      ∀ s : State, exec .cEbreak s = .fault (.trap .breakpoint s.pc s.pc)

/-- 42 R187: C.JALR and its forms that name x16 to x31; the register is read before x1 is written. -/
def Obligations.JalrJumpsToRegisterAndLinks : Prop :=
  ∀ (p : Parcel) (s : State), slice p 1 0 = 2 → slice p 15 12 = 9 → slice p 6 2 = 0 →
    (slice p 11 7 ≠ 0 → slice p 11 7 < 16 → decode p = .cJalr (xReg (slice p 11 7)) ∧
      ∃ t, exec (.cJalr (xReg (slice p 11 7))) s = .next t ∧
        LinksAndGoesTo (BitVec.ofNat 32 ((readReg (xReg (slice p 11 7)) s).toNat / 2 * 2)) s t) ∧
    (16 ≤ slice p 11 7 → decode p = .cJalrRv32e p ∧ exec (.cJalrRv32e p) s = illegalTrap p s) ∧
    (slice p 11 7 = 0 → decode p = .cEbreak)

/-- 42 R188: C.ADD, its HINT form and its forms that name x16 to x31. -/
def Obligations.AddAddsRegisters : Prop :=
  ∀ (p : Parcel) (s : State), slice p 1 0 = 2 → slice p 15 12 = 9 → slice p 6 2 ≠ 0 →
    (slice p 11 7 ≠ 0 → slice p 11 7 < 16 → slice p 6 2 < 16 →
      decode p = .cAdd (xReg (slice p 11 7)) (xReg (slice p 6 2)) ∧
        ∃ t, exec (.cAdd (xReg (slice p 11 7)) (xReg (slice p 6 2))) s = .next t ∧
          SetsRegister (xReg (slice p 11 7))
            (readReg (xReg (slice p 11 7)) s + readReg (xReg (slice p 6 2)) s) s t) ∧
    (slice p 11 7 = 0 → slice p 6 2 < 16 → decode p = .cAddHint (xReg (slice p 6 2)) ∧
      ∃ t, exec (.cAddHint (xReg (slice p 6 2))) s = .next t ∧ GoesTo (s.pc + 2) s t) ∧
    (16 ≤ slice p 11 7 → decode p = .cAddRv32eRd p ∧ exec (.cAddRv32eRd p) s = illegalTrap p s) ∧
    (slice p 11 7 < 16 → 16 ≤ slice p 6 2 →
      decode p = .cAddRv32eRs2 p ∧ exec (.cAddRv32eRs2 p) s = illegalTrap p s)

/-- 42 R190: C.SWSP (rs2 = 0 included, which stores the word 0) and its forms that name x16 to x31. -/
def Obligations.SwspStoresWord : Prop :=
  ∀ (p : Parcel) (s : State), slice p 1 0 = 2 → slice p 15 13 = 6 →
    (slice p 6 2 < 16 → ∃ n, decode p = .cSwsp (xReg (slice p 6 2)) n ∧
      StoreOutcome (readReg 2 s + BitVec.ofNat 32 (swspOffsetOf p)) (readReg (xReg (slice p 6 2)) s) s
        (exec (.cSwsp (xReg (slice p 6 2)) n) s)) ∧
    (16 ≤ slice p 6 2 → decode p = .cSwspRv32e p ∧ exec (.cSwspRv32e p) s = illegalTrap p s)

/-! ## Rows that are no instruction of the hardware, over all quadrants -/

/-- 41 R156 and 42 R189: the HINT rows of quadrants 1 and 2 advance pc and change nothing else. -/
def Obligations.HintRowsOnlyAdvancePc : Prop :=
  ∀ (p : Parcel) (s : State),
    (slice p 1 0 = 1 → slice p 15 13 = 0 → slice p 11 7 = 0 → imm6Of p ≠ 0 →
      ∃ n, decode p = .cNopHint n ∧
      ∃ t, exec (.cNopHint n) s = .next t ∧ GoesTo (s.pc + 2) s t) ∧
    (slice p 1 0 = 1 → slice p 15 13 = 0 → slice p 11 7 ≠ 0 → slice p 11 7 < 16 → imm6Of p = 0 →
      ∃ r, decode p = .cAddiHint r ∧ ∃ t, exec (.cAddiHint r) s = .next t ∧ GoesTo (s.pc + 2) s t) ∧
    (slice p 1 0 = 1 → slice p 15 13 = 2 → slice p 11 7 = 0 → ∃ n, decode p = .cLiHint n ∧
      ∃ t, exec (.cLiHint n) s = .next t ∧ GoesTo (s.pc + 2) s t) ∧
    (slice p 1 0 = 1 → slice p 15 13 = 3 → slice p 11 7 = 0 → imm6Of p ≠ 0 →
      ∃ n, decode p = .cLuiHint n ∧
      ∃ t, exec (.cLuiHint n) s = .next t ∧ GoesTo (s.pc + 2) s t) ∧
    (slice p 1 0 = 1 → slice p 15 13 = 4 → slice p 12 10 = 0 → slice p 6 2 = 0 →
      ∃ r, decode p = .cSrli64Hint r ∧
      ∃ t, exec (.cSrli64Hint r) s = .next t ∧ GoesTo (s.pc + 2) s t) ∧
    (slice p 1 0 = 1 → slice p 15 13 = 4 → slice p 12 10 = 1 → slice p 6 2 = 0 →
      ∃ r, decode p = .cSrai64Hint r ∧
      ∃ t, exec (.cSrai64Hint r) s = .next t ∧ GoesTo (s.pc + 2) s t) ∧
    (slice p 1 0 = 2 → slice p 15 12 = 0 → slice p 11 7 = 0 → slice p 6 2 ≠ 0 →
      ∃ n, decode p = .cSlliHint n ∧
      ∃ t, exec (.cSlliHint n) s = .next t ∧ GoesTo (s.pc + 2) s t) ∧
    (slice p 1 0 = 2 → slice p 15 12 = 0 → slice p 11 7 < 16 → slice p 6 2 = 0 →
      ∃ r, decode p = .cSlli64Hint r ∧
      ∃ t, exec (.cSlli64Hint r) s = .next t ∧ GoesTo (s.pc + 2) s t) ∧
    (slice p 1 0 = 2 → slice p 15 12 = 8 → slice p 11 7 = 0 → slice p 6 2 ≠ 0 → slice p 6 2 < 16 →
      ∃ r, decode p = .cMvHint r ∧ ∃ t, exec (.cMvHint r) s = .next t ∧ GoesTo (s.pc + 2) s t) ∧
    (slice p 1 0 = 2 → slice p 15 12 = 9 → slice p 11 7 = 0 → slice p 6 2 ≠ 0 → slice p 6 2 < 16 →
      ∃ r, decode p = .cAddHint r ∧ ∃ t, exec (.cAddHint r) s = .next t ∧ GoesTo (s.pc + 2) s t)

/-- 41 R157 and 42 R191: the reserved rows of quadrants 1 and 2, and the parcels of quadrant 2 that name
x16 to x31. -/
def Obligations.ReservedRowsTrap : Prop :=
  (∀ s : State, decode 0x6101 = .cAddi16spRes ∧ exec .cAddi16spRes s = illegalTrap 0x6101 s) ∧
  (∀ s : State, decode 0x8002 = .cJrRes ∧ exec .cJrRes s = illegalTrap 0x8002 s) ∧
  ∀ (p : Parcel) (s : State),
    (slice p 1 0 = 1 → slice p 15 13 = 3 → slice p 12 12 = 0 → slice p 6 2 = 0 → slice p 11 7 ≠ 2 →
      decode p = .cLuiRes p ∧ exec (.cLuiRes p) s = illegalTrap p s) ∧
    (slice p 1 0 = 1 → slice p 15 10 = 0b100111 → slice p 6 5 = 0 →
      decode p = .cSubwRes p ∧ exec (.cSubwRes p) s = illegalTrap p s) ∧
    (slice p 1 0 = 1 → slice p 15 10 = 0b100111 → slice p 6 5 = 1 →
      decode p = .cAddwRes p ∧ exec (.cAddwRes p) s = illegalTrap p s) ∧
    (slice p 1 0 = 1 → slice p 15 10 = 0b100111 → slice p 6 5 = 2 →
      decode p = .q1Reserved10 p ∧ exec (.q1Reserved10 p) s = illegalTrap p s) ∧
    (slice p 1 0 = 1 → slice p 15 10 = 0b100111 → slice p 6 5 = 3 →
      decode p = .q1Reserved11 p ∧ exec (.q1Reserved11 p) s = illegalTrap p s) ∧
    (slice p 1 0 = 2 → slice p 15 13 = 2 → slice p 11 7 = 0 →
      decode p = .cLwspRes p ∧ exec (.cLwspRes p) s = illegalTrap p s) ∧
    (slice p 1 0 = 2 → AbsentRegRow p → exec (decode p) s = illegalTrap p s)

/-- 41 R158 and 42 R192: the custom rows. -/
def Obligations.CustomRowsTrap : Prop :=
  ∀ (p : Parcel) (s : State),
    (slice p 1 0 = 1 → slice p 15 10 = 0b100100 →
      decode p = .cSrliCustom p ∧ exec (.cSrliCustom p) s = illegalTrap p s) ∧
    (slice p 1 0 = 1 → slice p 15 10 = 0b100101 →
      decode p = .cSraiCustom p ∧ exec (.cSraiCustom p) s = illegalTrap p s) ∧
    (slice p 1 0 = 2 → slice p 15 12 = 1 →
      decode p = .cSlliCustom p ∧ exec (.cSlliCustom p) s = illegalTrap p s)

/-- 30 R111: every parcel of quadrant 3 is refused, in every state. -/
def Obligations.QuadrantThreeIsRefused : Prop :=
  ∀ (p : Parcel) (s : State), slice p 1 0 = 3 →
    decode p = .wide p ∧ exec (.wide p) s = .refused (.wideInstruction s.pc)

/-- 30 R108 (and 10 R25): a parcel outside the other classes of non-instructions that names x16 to x31 in
a free 5-bit field raises `IllegalInstruction`, and is one of the twelve RV32E rows. -/
def Obligations.AbsentRegistersTrap : Prop :=
  ∀ (p : Parcel) (s : State), AbsentRegRow p →
    exec (decode p) s = illegalTrap p s ∧
    (decode p = .cAddiRv32e p ∨ decode p = .cLiRv32e p ∨ decode p = .cLuiRv32e p ∨
      decode p = .cSlliRv32e p ∨ decode p = .cLwspRv32e p ∨ decode p = .cJrRv32e p ∨
      decode p = .cJalrRv32e p ∨ decode p = .cMvRv32eRd p ∨ decode p = .cMvRv32eRs2 p ∨
      decode p = .cAddRv32eRd p ∨ decode p = .cAddRv32eRs2 p ∨ decode p = .cSwspRv32e p)

/-- DERIVED (30 R103 to R109, 60 R210): a parcel raises `IllegalInstruction` exactly when it is the
illegal one, reserved, custom, of an absent extension, or names x16 to x31. -/
def Obligations.IllegalParcelsAreExact : Prop :=
  ∀ (p : Parcel) (s : State),
    (∃ info q, exec (decode p) s = .fault (.trap .illegalInstruction info q)) ↔ IllegalRow p

/-- DERIVED (30 R103, R107): the parcels that decode to a HINT row are exactly those of the ten groups,
and the HINT rows only advance pc. -/
def Obligations.HintParcelsAreExact : Prop :=
  ∀ p : Parcel, (isHint (decode p) = true ↔ HintRow p) ∧
    (HintRow p → ∀ s : State, ∃ t, exec (decode p) s = .next t ∧ GoesTo (s.pc + 2) s t)

/-! ## Registers and memory operations -/

/-- 10 R21 (and 00 R14): x0 reads 0 and discards writes; any other register holds what is written to it,
and no other register changes. -/
def Obligations.ZeroRegisterIsHardwired : Prop :=
  ∀ (r q : RegIdx) (v : Word) (s : State),
    readReg 0 s = 0 ∧ writeReg 0 v s = s ∧
    (r ≠ 0 → readReg r (writeReg r v s) = v) ∧
    (q ≠ r → readReg q (writeReg r v s) = readReg q s)

/-- 20 R42: `MemRead(a, 4)`; a load changes no byte of memory and not `Dirty`. -/
def Obligations.MemReadFollowsRule : Prop :=
  ∀ (a : Word) (s : State),
    (a.toNat % 4 ≠ 0 → memRead a s = .fault (.trap .loadAddressMisaligned a s.pc)) ∧
    (a.toNat % 4 = 0 → ¬ WordPermitted .read a s →
      memRead a s = .fault (.trap .loadAccessFault a s.pc)) ∧
    (a.toNat % 4 = 0 → WordPermitted .read a s →
      ∃ v, memRead a s = .next v ∧ v.toNat = wordValue a s) ∧
    (∀ (rd : RegIdx) (t : State), loadInto rd a s = .next t → SameMemory s t)

/-- 20 R43: `MemWrite(a, 4, v)`. -/
def Obligations.MemWriteFollowsRule : Prop :=
  ∀ (a v : Word) (s : State),
    (a.toNat % 4 ≠ 0 → memWrite a v s = .fault (.trap .storeAddressMisaligned a s.pc)) ∧
    (a.toNat % 4 = 0 → ¬ WordPermitted .write a s →
      memWrite a v s = .fault (.trap .storeAccessFault a s.pc)) ∧
    (a.toNat % 4 = 0 → WordPermitted .write a s →
      ∃ t, memWrite a v s = .next t ∧ StoresWord a v s t ∧ SameRegs s t ∧ t.pc = s.pc)

/-- 20 R44: `Fetch(pc)`; it depends on pc, `MemMap`, `Dirty` and the two bytes at pc alone, so never on
the parcel at pc + 2. -/
def Obligations.FetchFollowsRule : Prop :=
  ∀ s : State,
    (s.pc.toNat % 2 ≠ 0 → fetch s = .fault (.trap .instructionAddressMisaligned s.pc s.pc)) ∧
    (s.pc.toNat % 2 = 0 →
      ¬ (permits .execute s.pc s = true ∧ permits .execute (s.pc + 1) s = true) →
      fetch s = .fault (.trap .instructionAccessFault s.pc s.pc)) ∧
    (s.pc.toNat % 2 = 0 → permits .execute s.pc s = true → permits .execute (s.pc + 1) s = true →
      (isDirty s.pc s = true ∨ isDirty (s.pc + 1) s = true) →
      fetch s = .refused (.fetchOfModifiedCode s.pc)) ∧
    (Fetchable s → ∃ p, fetch s = .next p ∧
      p.toNat = (byteAt s.pc s).toNat + 2 ^ 8 * (byteAt (s.pc + 1) s).toNat) ∧
    (∀ t : State, t.pc = s.pc → t.memMap = s.memMap → t.dirty = s.dirty →
      byteAt s.pc t = byteAt s.pc s → byteAt (s.pc + 1) t = byteAt (s.pc + 1) s → fetch t = fetch s)

/-- 20 R57: a word holds the parcel at its lower address in bits 15 to 0; a parcel fetched from a stored
word would be its half, but the fetch is refused. -/
def Obligations.WordIsTwoParcels : Prop :=
  (∀ (a : Word) (s : State) (v : Word), memRead a s = .next v →
    v.toNat = (parcelAt a s).toNat + 2 ^ 16 * (parcelAt (a + 2) s).toNat) ∧
  ∀ (a w : Word) (s t : State), memWrite a w s = .next t →
    (parcelAt a t).toNat = w.toNat % 2 ^ 16 ∧ (parcelAt (a + 2) t).toNat = w.toNat / 2 ^ 16 ∧
    ∀ b : Word, b = a ∨ b = a + 2 → permits .execute b t = true → permits .execute (b + 1) t = true →
      fetch (setPc b t) = .refused (.fetchOfModifiedCode b)

/-! ## The step -/

/-- DERIVED (00 R17, 20 R44, 30 R70): when the two bytes at pc, read in the hardware's order, decode to a
well-formed instruction and can be fetched, the step is that instruction's meaning, nothing around it. -/
def Obligations.StepRunsDecodedInstruction : Prop :=
  ∀ (s : State) (i : Instr) (rest : List Byte), Fetchable s →
    decodeBytes [byteAt s.pc s, byteAt (s.pc + 1) s] = .ok (i, rest) → i.wellFormed = true →
    step s = exec i s

/-- 60 R214 (and 20 R45): the order of the checks of one step. -/
def Obligations.StepChecksInOrder : Prop :=
  ∀ s : State,
    (s.pc.toNat % 2 ≠ 0 → step s = .fault (.trap .instructionAddressMisaligned s.pc s.pc)) ∧
    (s.pc.toNat % 2 = 0 →
      ¬ (permits .execute s.pc s = true ∧ permits .execute (s.pc + 1) s = true) →
      step s = .fault (.trap .instructionAccessFault s.pc s.pc)) ∧
    (s.pc.toNat % 2 = 0 → permits .execute s.pc s = true → permits .execute (s.pc + 1) s = true →
      (isDirty s.pc s = true ∨ isDirty (s.pc + 1) s = true) →
      step s = .refused (.fetchOfModifiedCode s.pc)) ∧
    (Fetchable s →
      (slice (parcelAt s.pc s) 1 0 = 3 → step s = .refused (.wideInstruction s.pc)) ∧
      (IllegalRow (parcelAt s.pc s) → step s = illegalTrap (parcelAt s.pc s) s) ∧
      (parcelAt s.pc s = 0x9002 → step s = .fault (.trap .breakpoint s.pc s.pc)) ∧
      (∀ a, loadAddress (decode (parcelAt s.pc s)) s = some a →
        (a.toNat % 4 ≠ 0 → step s = .fault (.trap .loadAddressMisaligned a s.pc)) ∧
        (a.toNat % 4 = 0 → ¬ WordPermitted .read a s →
          step s = .fault (.trap .loadAccessFault a s.pc)) ∧
        (a.toNat % 4 = 0 → WordPermitted .read a s → ∃ t, step s = .next t)) ∧
      (∀ a, storeAddress (decode (parcelAt s.pc s)) s = some a →
        (a.toNat % 4 ≠ 0 → step s = .fault (.trap .storeAddressMisaligned a s.pc)) ∧
        (a.toNat % 4 = 0 → ¬ WordPermitted .write a s →
          step s = .fault (.trap .storeAccessFault a s.pc)) ∧
        (a.toNat % 4 = 0 → WordPermitted .write a s → ∃ t, step s = .next t)) ∧
      (slice (parcelAt s.pc s) 1 0 ≠ 3 → ¬ IllegalRow (parcelAt s.pc s) → parcelAt s.pc s ≠ 0x9002 →
        loadAddress (decode (parcelAt s.pc s)) s = none →
        storeAddress (decode (parcelAt s.pc s)) s = none → ∃ t, step s = .next t))

/-- 60 R210: the table of exceptions. A step traps with an exception exactly where the table's row says,
with the row's information and its own pc, and the codes are the table's. -/
def Obligations.TrapsFollowExceptionTable : Prop :=
  (∀ (s : State) (e : Exception) (info q : Word),
    step s = .fault (.trap e info q) ↔ q = s.pc ∧ RaisedBy e info s) ∧
  exceptionCode .instructionAddressMisaligned = 0 ∧ exceptionCode .instructionAccessFault = 1 ∧
  exceptionCode .illegalInstruction = 2 ∧ exceptionCode .breakpoint = 3 ∧
  exceptionCode .loadAddressMisaligned = 4 ∧ exceptionCode .loadAccessFault = 5 ∧
  exceptionCode .storeAddressMisaligned = 6 ∧ exceptionCode .storeAccessFault = 7

/-- DERIVED (60 R211): every instruction that raises nothing in its execute stage, and every HINT,
completes in every state with every operand; the loads and stores complete where the word is aligned and
permitted. -/
def Obligations.InstructionsComplete : Prop :=
  ∀ s : State,
    (∀ rd n, ∃ t, exec (.cAddi4spn rd n) s = .next t) ∧ (∃ t, exec .cNop s = .next t) ∧
    (∀ rd n, ∃ t, exec (.cAddi rd n) s = .next t) ∧ (∀ n, ∃ t, exec (.cJal n) s = .next t) ∧
    (∀ rd n, ∃ t, exec (.cLi rd n) s = .next t) ∧ (∀ n, ∃ t, exec (.cAddi16sp n) s = .next t) ∧
    (∀ rd n, ∃ t, exec (.cLui rd n) s = .next t) ∧ (∀ rd n, ∃ t, exec (.cSrli rd n) s = .next t) ∧
    (∀ rd n, ∃ t, exec (.cSrai rd n) s = .next t) ∧ (∀ rd n, ∃ t, exec (.cAndi rd n) s = .next t) ∧
    (∀ rd rs2, ∃ t, exec (.cSub rd rs2) s = .next t) ∧
    (∀ rd rs2, ∃ t, exec (.cXor rd rs2) s = .next t) ∧
    (∀ rd rs2, ∃ t, exec (.cOr rd rs2) s = .next t) ∧
    (∀ rd rs2, ∃ t, exec (.cAnd rd rs2) s = .next t) ∧
    (∀ n, ∃ t, exec (.cJ n) s = .next t) ∧ (∀ rs1 n, ∃ t, exec (.cBeqz rs1 n) s = .next t) ∧
    (∀ rs1 n, ∃ t, exec (.cBnez rs1 n) s = .next t) ∧ (∀ rd n, ∃ t, exec (.cSlli rd n) s = .next t) ∧
    (∀ rs1, ∃ t, exec (.cJr rs1) s = .next t) ∧ (∀ rd rs2, ∃ t, exec (.cMv rd rs2) s = .next t) ∧
    (∀ rs1, ∃ t, exec (.cJalr rs1) s = .next t) ∧ (∀ rd rs2, ∃ t, exec (.cAdd rd rs2) s = .next t) ∧
    (∀ n, ∃ t, exec (.cNopHint n) s = .next t) ∧ (∀ rd, ∃ t, exec (.cAddiHint rd) s = .next t) ∧
    (∀ n, ∃ t, exec (.cLiHint n) s = .next t) ∧ (∀ n, ∃ t, exec (.cLuiHint n) s = .next t) ∧
    (∀ rd, ∃ t, exec (.cSrli64Hint rd) s = .next t) ∧
    (∀ rd, ∃ t, exec (.cSrai64Hint rd) s = .next t) ∧
    (∀ n, ∃ t, exec (.cSlliHint n) s = .next t) ∧ (∀ rd, ∃ t, exec (.cSlli64Hint rd) s = .next t) ∧
    (∀ rs2, ∃ t, exec (.cMvHint rs2) s = .next t) ∧ (∀ rs2, ∃ t, exec (.cAddHint rs2) s = .next t) ∧
    (∀ rd rs1 n a, loadAddress (.cLw rd rs1 n) s = some a → a.toNat % 4 = 0 → WordPermitted .read a s →
      ∃ t, exec (.cLw rd rs1 n) s = .next t) ∧
    (∀ rd n a, loadAddress (.cLwsp rd n) s = some a → a.toNat % 4 = 0 → WordPermitted .read a s →
      ∃ t, exec (.cLwsp rd n) s = .next t) ∧
    (∀ rs2 rs1 n a, storeAddress (.cSw rs2 rs1 n) s = some a → a.toNat % 4 = 0 →
      WordPermitted .write a s → ∃ t, exec (.cSw rs2 rs1 n) s = .next t) ∧
    (∀ rs2 n a, storeAddress (.cSwsp rs2 n) s = some a → a.toNat % 4 = 0 →
      WordPermitted .write a s → ∃ t, exec (.cSwsp rs2 n) s = .next t)

/-- 10 R27: where pc is after an instruction that goes on, its wrap, and that one that traps leaves it. -/
def Obligations.PcAdvancesByTwoOrTransfers : Prop :=
  ∀ (i : Instr) (s : State),
    (∀ t, exec i s = .next t → t.pc = (transferTarget i s).getD (s.pc + 2)) ∧
    (∀ t, exec i s = .next t → transferTarget i s = none → s.pc = 0xFFFFFFFE → t.pc = 0) ∧
    (∀ e info q, exec i s = .fault (.trap e info q) → q = s.pc) ∧
    (isHint i = true → ∃ t, exec i s = .next t ∧ t.pc = s.pc + 2)

/-! ## Frames and dependence -/

/-- DERIVED (20 R47, R43): only C.SW and C.SWSP change memory or `Dirty`, and only the four bytes of the
word at the address they compute; every other instruction leaves all of memory as it is. -/
def Obligations.OnlyStoresChangeMemory : Prop :=
  ∀ (i : Instr) (s t : State), exec i s = .next t →
    (storeAddress i s = none → SameMemory s t) ∧
    ∀ a, storeAddress i s = some a → StoresWord a (storeData i s) s t

/-- DERIVED (10 R24): what an instruction does depends on no register outside the table's list of registers read,
and it writes the table's register alone. -/
def Obligations.OnlyTheNamedRegistersMatter : Prop :=
  (∀ (i : Instr) (s1 s2 : State), AgreeOnRegs (regsRead i) s1 s2 →
    OutcomesRelated (AgreeOnRegs (regWritten i).toList) (exec i s1) (exec i s2)) ∧
  ∀ (i : Instr) (s t : State), exec i s = .next t →
    ∀ r : RegIdx, regWritten i ≠ some r → readReg r t = readReg r s

/-- DERIVED (20 R42 to R44, R49): two states that differ only in bytes with neither read nor execute
permission step alike: such bytes can never be learnt. -/
def Obligations.InaccessibleBytesNeverMatter : Prop :=
  ∀ s1 s2 : State, AgreeOnAccessible s1 s2 →
    OutcomesRelated AgreeOnAccessible (step s1) (step s2)

/-! ## Invariants and runs -/

/-- DERIVED (10 R26, R31, 20 R43, R49): a step keeps pc even, memory and `Dirty` canonical, and every
byte of `Dirty` writable. -/
def Obligations.StepKeepsInvariant : Prop :=
  ∀ s t : State, Inv s → step s = .next t → Inv t

/-- DERIVED (70 R250): a launch from an even `RESET_PC` and a canonical image meets the invariant, and so
does the model's reset state (its values are the model's choice, log 1 to 4). -/
def Obligations.LaunchMeetsInvariant : Prop :=
  (∀ (pc : Word) (m : MemMap) (image : Memory) (regs : Vector Word 15),
    pc.toNat % 2 = 0 → Memory.wf image → Inv (State.launch pc m image regs)) ∧
  Inv State.reset

/-- 70 R250 (and 10 R33): the launch state. -/
def Obligations.LaunchStateIsItsInputs : Prop :=
  ∀ (pc : Word) (m : MemMap) (image : Memory) (regs : Vector Word 15),
    pc.toNat % 2 = 0 → Memory.wf image →
    (State.launch pc m image regs).pc = pc ∧
    readReg 0 (State.launch pc m image regs) = 0 ∧
    (∀ n : Fin 15, readReg n.succ (State.launch pc m image regs) = regs[n]) ∧
    (∀ (a : Word) (v : Byte), (a.toNat, v) ∈ image → byteAt a (State.launch pc m image regs) = v) ∧
    (∀ a : Word, isDirty a (State.launch pc m image regs) = false) ∧
    (State.launch pc m image regs).memMap = m

/-- DERIVED (the model's choice, log 1 to 4, where 10 R33 and 70 R250 leave the launch inputs open): what
the machine is right after reset. -/
def Obligations.ResetValuesAreTheModelsChoice : Prop :=
  State.reset.pc = 0 ∧ (∀ r : RegIdx, readReg r State.reset = 0) ∧
  (∀ a : Word, byteAt a State.reset = 0) ∧ (∀ a : Word, isDirty a State.reset = false) ∧
  ∀ (q : Perm) (a : Word), permits q a State.reset = true

/-- 60 R213: from a launch with an even `RESET_PC`, pc is even in every state of the run and
`InstructionAddressMisaligned` is never raised. -/
def Obligations.MisalignedFetchIsUnreachable : Prop :=
  ∀ (pc : Word) (m : MemMap) (image : Memory) (regs : Vector Word 15) (n : Nat) (t : State),
    pc.toNat % 2 = 0 → Reaches (State.launch pc m image regs) n t →
    t.pc.toNat % 2 = 0 ∧
    ∀ info q : Word, step t ≠ .fault (.trap .instructionAddressMisaligned info q)

/-- DERIVED (20 R55): in a run from launch, `Dirty` is exactly the set of byte addresses that an earlier step
stored to, it only grows, and a fetch of an executable parcel that touches it is refused. -/
def Obligations.DirtyIsTheBytesStoredSinceLaunch : Prop :=
  ∀ (pc : Word) (m : MemMap) (image : Memory) (regs : Vector Word 15) (n : Nat) (t : State),
    Reaches (State.launch pc m image regs) n t →
    (∀ b : Word, isDirty b t = true ↔
      ∃ k u, k < n ∧ Reaches (State.launch pc m image regs) k u ∧ StepStoresTo u b) ∧
    (∀ (b : Word) (u : State), step t = .next u → isDirty b t = true → isDirty b u = true) ∧
    (t.pc.toNat % 2 = 0 → permits .execute t.pc t = true → permits .execute (t.pc + 1) t = true →
      (isDirty t.pc t = true ∨ isDirty (t.pc + 1) t = true) →
      step t = .refused (.fetchOfModifiedCode t.pc))

/-- DERIVED (20 R49, R43): no step changes `MemMap`, and a byte of memory that a step changes could be
written and is in `Dirty` afterwards. -/
def Obligations.StepRespectsMemMap : Prop :=
  ∀ s t : State, step s = .next t → t.memMap = s.memMap ∧
    ∀ b : Word, byteAt b t ≠ byteAt b s → permits .write b s = true ∧ isDirty b t = true

/-- DERIVED (20 R52): over any number of steps a byte that no step stores to keeps its value; and after a
step that stores the word `v` at `a`, each byte of that word holds its part of `v` until a later step
stores to it: a load sees the most recent store, or the launch image. -/
def Obligations.LoadsSeeTheLatestStore : Prop :=
  (∀ (s u : State) (n : Nat) (b : Word), Reaches s n u →
    (∀ k t, k < n → Reaches s k t → ¬ StepStoresTo t b) → byteAt b u = byteAt b s) ∧
  ∀ (s t u : State) (n : Nat) (p : Parcel) (a b : Word), fetch s = .next p →
    storeAddress (decode p) s = some a → InWord a b → step s = .next t → Reaches t n u →
    (∀ k w, k < n → Reaches t k w → ¬ StepStoresTo w b) →
    StoresWord a (storeData (decode p) s) s t ∧ byteAt b u = byteAt b t

/-- DERIVED (00 R17, 20 R55, 30 R70, 60 R210, 70 R258): where a run of at most `n` steps stops, and with
what. It has trapped with an exception, its information and an address exactly when one of its states
before the n-th step has that pc and meets the exception's row of the table; it has been refused exactly
when one of them has a wider instruction or modified code at its pc; and it has gone on exactly when none
of them does either. So a trap or a refusal is final: the same state stops every longer run, alike. -/
def Obligations.TrapsAndRefusalsAreFinal : Prop :=
  ∀ (s : State) (n : Nat),
    (∀ (e : Exception) (info q : Word), Sys2Proof.core.run n s = .fault (.trap e info q) ↔
      ∃ k t, k < n ∧ Reaches s k t ∧ q = t.pc ∧ RaisedBy e info t) ∧
    (∀ r : Refusal, Sys2Proof.core.run n s = .refused r ↔
      ∃ k t, k < n ∧ Reaches s k t ∧ RefusedFor r t) ∧
    ((∃ t, Reaches s n t) ↔ ∀ k t, k < n → Reaches s k t →
      (∀ e info, ¬ RaisedBy e info t) ∧ ∀ r, ¬ RefusedFor r t)

/-- DERIVED (70 R258): a run ends normally at `q` exactly when it reaches, without a trap or a refusal, a
state with pc = `q` whose fetch gives the parcel 0x9002, and then the final state is that one. -/
def Obligations.NormalEndIsAtEbreak : Prop :=
  ∀ (s : State) (q : Word), EndsNormally s q ↔
    ∃ n t, Reaches s n t ∧ t.pc = q ∧ fetch t = .next 0x9002

/-- DERIVED (the model's representation of 10 R31, log 3): two canonical memories that read alike at every
address are the same data. -/
def Obligations.EqualReadsAreEqualMemories : Prop :=
  ∀ s t : State, Memory.wf s.mem → Memory.wf t.mem → (∀ a : Word, byteAt a s = byteAt a t) →
    s.mem = t.mem

end
end

