-- ==== Sys2Proof/Laws/Decode.lean ====
section
/-!
SUPPORT. The decoder's fields and the operand forms as arithmetic on the parcel's slices `inst[hi:lo]`
(00_scope.md R9), so that a proof about a parcel is a proof about numbers.
-/

namespace Sys2Proof

/-! ### Concatenation and extraction as numbers -/

/-- A concatenation as a sum. -/
theorem toNat_append_add {m n : Nat} (x : BitVec m) (y : BitVec n) :
    (x ++ y).toNat = x.toNat * 2 ^ n + y.toNat := by
  rw [BitVec.toNat_append, ← Nat.shiftLeft_add_eq_or_of_lt y.isLt, Nat.shiftLeft_eq]

/-- An extraction as division and remainder. -/
theorem toNat_extract {n : Nat} (start len : Nat) (x : BitVec n) :
    (x.extractLsb' start len).toNat = x.toNat / 2 ^ start % 2 ^ len := by
  rw [BitVec.extractLsb'_toNat, Nat.shiftRight_eq_div_pow]

/-- A slice is below the power of two of its width. -/
theorem slice_lt (p : Parcel) (hi lo : Nat) : slice p hi lo < 2 ^ (hi + 1 - lo) :=
  Nat.mod_lt _ (Nat.two_pow_pos _)

/-! ### Fields of a parcel -/

section
variable (p : Parcel)

theorem quadrantOf_toNat : (quadrantOf p).toNat = slice p 1 0 := by
  simp only [quadrantOf, toNat_extract, slice]

theorem funct3Of_toNat : (funct3Of p).toNat = slice p 15 13 := by
  simp only [funct3Of, toNat_extract, slice]

theorem regFieldHigh_toNat : (regFieldHigh p).toNat = slice p 11 7 := by
  simp only [regFieldHigh, toNat_extract, slice]

theorem regFieldLow_toNat : (regFieldLow p).toNat = slice p 6 2 := by
  simp only [regFieldLow, toNat_extract, slice]

theorem cregHigh_val : (cregHigh p).val = slice p 9 7 := by
  simp only [cregHigh, Fin.val_ofNat, toNat_extract, slice]
  omega

theorem cregLow_val : (cregLow p).val = slice p 4 2 := by
  simp only [cregLow, Fin.val_ofNat, toNat_extract, slice]
  omega

/-! A field as the literal of its slice, for the tests of the decoder. -/

theorem quadrantOf_eq : quadrantOf p = BitVec.ofNat 2 (slice p 1 0) := by
  rw [← quadrantOf_toNat, BitVec.ofNat_toNat, BitVec.setWidth_eq]

theorem funct3Of_eq : funct3Of p = BitVec.ofNat 3 (slice p 15 13) := by
  rw [← funct3Of_toNat, BitVec.ofNat_toNat, BitVec.setWidth_eq]

theorem regFieldHigh_eq : regFieldHigh p = BitVec.ofNat 5 (slice p 11 7) := by
  rw [← regFieldHigh_toNat, BitVec.ofNat_toNat, BitVec.setWidth_eq]

theorem regFieldLow_eq : regFieldLow p = BitVec.ofNat 5 (slice p 6 2) := by
  rw [← regFieldLow_toNat, BitVec.ofNat_toNat, BitVec.setWidth_eq]

theorem bit12_eq : p.extractLsb' 12 1 = BitVec.ofNat 1 (slice p 12 12) := by
  apply BitVec.eq_of_toNat_eq
  simp only [toNat_extract, slice, BitVec.toNat_ofNat]
  omega

theorem bits11to10_eq : p.extractLsb' 10 2 = BitVec.ofNat 2 (slice p 11 10) := by
  apply BitVec.eq_of_toNat_eq
  simp only [toNat_extract, slice, BitVec.toNat_ofNat]
  omega

theorem bits6to5_eq : p.extractLsb' 5 2 = BitVec.ofNat 2 (slice p 6 5) := by
  apply BitVec.eq_of_toNat_eq
  simp only [toNat_extract, slice, BitVec.toNat_ofNat]
  omega

theorem cregHigh_eq : cregHigh p = Fin.ofNat 8 (slice p 9 7) := by
  apply Fin.ext
  rw [cregHigh_val, Fin.val_ofNat]
  exact (Nat.mod_eq_of_lt (slice_lt p 9 7)).symm

theorem cregLow_eq : cregLow p = Fin.ofNat 8 (slice p 4 2) := by
  apply Fin.ext
  rw [cregLow_val, Fin.val_ofNat]
  exact (Nat.mod_eq_of_lt (slice_lt p 4 2)).symm

theorem immAddi4spn_toNat :
    (immAddi4spn p).toNat =
      16 * slice p 10 7 + 4 * slice p 12 11 + 2 * slice p 5 5 + slice p 6 6 := by
  simp only [immAddi4spn, toNat_append_add, toNat_extract, slice]
  omega

theorem immLwSw_toNat :
    (immLwSw p).toNat = 16 * slice p 5 5 + 2 * slice p 12 10 + slice p 6 6 := by
  simp only [immLwSw, toNat_append_add, toNat_extract, slice]
  omega

theorem immSix_toNat : (immSix p).toNat = 32 * slice p 12 12 + slice p 6 2 := by
  simp only [immSix, toNat_append_add, toNat_extract, slice]
  omega

theorem immAddi16sp_toNat :
    (immAddi16sp p).toNat =
      32 * slice p 12 12 + 8 * slice p 4 3 + 4 * slice p 5 5 + 2 * slice p 2 2 + slice p 6 6 := by
  simp only [immAddi16sp, toNat_append_add, toNat_extract, slice]
  omega

theorem immJump_toNat :
    (immJump p).toNat =
      1024 * slice p 12 12 + 512 * slice p 8 8 + 128 * slice p 10 9 + 64 * slice p 6 6 +
        32 * slice p 7 7 + 16 * slice p 2 2 + 8 * slice p 11 11 + slice p 5 3 := by
  simp only [immJump, toNat_append_add, toNat_extract, slice]
  omega

theorem immBranch_toNat :
    (immBranch p).toNat =
      128 * slice p 12 12 + 32 * slice p 6 5 + 16 * slice p 2 2 + 4 * slice p 11 10 +
        slice p 4 3 := by
  simp only [immBranch, toNat_append_add, toNat_extract, slice]
  omega

theorem immLwsp_toNat :
    (immLwsp p).toNat = 16 * slice p 3 2 + 8 * slice p 12 12 + slice p 6 4 := by
  simp only [immLwsp, toNat_append_add, toNat_extract, slice]
  omega

theorem immSwsp_toNat : (immSwsp p).toNat = 16 * slice p 8 7 + slice p 12 9 := by
  simp only [immSwsp, toNat_append_add, toNat_extract, slice]
  omega

end

/-- The register of a field below 16 is the field's number. -/
theorem regOfField_val (f : BitVec 5) (h : f.toNat < 16) : (regOfField f).val = f.toNat := by
  simp [regOfField, Nat.mod_eq_of_lt h]

/-- A field names an absent register exactly when it is 16 or more. -/
theorem namesAbsentReg_iff (f : BitVec 5) : namesAbsentReg f = true ↔ 16 ≤ f.toNat := by
  simp [namesAbsentReg]

/-- A parcel is its low byte and its high byte. -/
theorem parcelOfBytes_toNat (low high : Byte) :
    (parcelOfBytes low high).toNat = high.toNat * 256 + low.toNat := by
  simp only [parcelOfBytes, toNat_append_add]; rfl

/-- The bytes of a parcel, put together again, are the parcel. -/
theorem parcelOfBytes_bytes (p : Parcel) :
    parcelOfBytes (p.extractLsb' 0 8) (p.extractLsb' 8 8) = p := by
  apply BitVec.eq_of_toNat_eq
  rw [parcelOfBytes_toNat, toNat_extract, toNat_extract]
  omega

/-! ### Operand forms -/

namespace Machine

/-- Scaling by a power of two and zero extension, as a number. -/
theorem zeroExtend_scaled_toNat {w : Nat} (k : Nat) (x : BitVec w) (h : w + k ≤ 32) :
    ((x ++ (0#k)).setWidth 32).toNat = x.toNat * 2 ^ k := by
  have hx : x.toNat * 2 ^ k < 2 ^ 32 :=
    calc x.toNat * 2 ^ k < 2 ^ w * 2 ^ k := Nat.mul_lt_mul_of_pos_right x.isLt (Nat.two_pow_pos k)
      _ = 2 ^ (w + k) := (Nat.pow_add 2 w k).symm
      _ ≤ 2 ^ 32 := Nat.pow_le_pow_right (by omega) h
  rw [BitVec.toNat_setWidth, toNat_append_add, BitVec.toNat_ofNat, Nat.zero_mod, Nat.add_zero,
    Nat.mod_eq_of_lt hx]

/-- Scaling by a power of two, as an integer. -/
theorem append_zero_toInt {w : Nat} (k : Nat) (x : BitVec w) :
    (x ++ (0#k)).toInt = x.toInt * 2 ^ k := by
  rw [BitVec.toInt_append]
  rcases Nat.eq_zero_or_pos w with rfl | hw
  · simp [BitVec.eq_nil x]
  · simp [Nat.ne_of_gt hw, Int.mul_comm]

/-- Scaling by a power of two and sign extension, as a number. -/
theorem signExtend_scaled {w : Nat} (k : Nat) (x : BitVec w) :
    (x ++ (0#k)).signExtend 32 = BitVec.ofInt 32 (x.toInt * 2 ^ k) := by
  rw [BitVec.signExtend, append_zero_toInt]

theorem nzuimmAddi4spn_toNat (x : BitVec 8) : (nzuimmAddi4spn x).toNat = x.toNat * 4 :=
  zeroExtend_scaled_toNat 2 x (by omega)

theorem uimmLwSw_toNat (x : BitVec 5) : (uimmLwSw x).toNat = x.toNat * 4 :=
  zeroExtend_scaled_toNat 2 x (by omega)

theorem uimmSp_toNat (x : BitVec 6) : (uimmSp x).toNat = x.toNat * 4 :=
  zeroExtend_scaled_toNat 2 x (by omega)

theorem immSigned6_eq (x : BitVec 6) : immSigned6 x = BitVec.ofInt 32 x.toInt := rfl

theorem nzimmAddi16sp_eq (x : BitVec 6) : nzimmAddi16sp x = BitVec.ofInt 32 (x.toInt * 16) :=
  signExtend_scaled 4 x

theorem nzimmLui_eq (x : BitVec 6) : nzimmLui x = BitVec.ofInt 32 (x.toInt * 4096) :=
  signExtend_scaled 12 x

theorem offsetJump_eq (x : BitVec 11) : offsetJump x = BitVec.ofInt 32 (x.toInt * 2) :=
  signExtend_scaled 1 x

theorem offsetBranch_eq (x : BitVec 8) : offsetBranch x = BitVec.ofInt 32 (x.toInt * 2) :=
  signExtend_scaled 1 x

/-- Clearing bit 0, as a number. -/
theorem jumpTarget_toNat (v : Word) : (jumpTarget v).toNat = v.toNat / 2 * 2 := by
  have h : jumpTarget v = (v >>> 1) <<< 1 := by
    unfold jumpTarget
    ext i hi
    by_cases h0 : i = 0
    · subst h0; simp
    · have h1 : (4294967294#32).getLsbD i = true := by
        have : ∀ j : Fin 32, j.val ≠ 0 → (4294967294#32).getLsbD j.val = true := by decide
        exact this ⟨i, hi⟩ h0
      have h2 : ¬ i < 1 := by omega
      have h3 : 1 + (i - 1) = i := by omega
      simp_all [BitVec.getLsbD_eq_getElem]
  rw [h, BitVec.toNat_shiftLeft, BitVec.toNat_ushiftRight, Nat.shiftRight_eq_div_pow,
    Nat.shiftLeft_eq]
  have := v.isLt
  omega

end Machine

end Sys2Proof
end

