-- ==== Sys2Proof/Laws/State.lean ====
section
/-!
SUPPORT. What each field and each read of the state is after each update: one lemma per field per
update, so that no proof unfolds a record update.
-/

namespace Sys2Proof.Machine

section
variable (s : State) (a b t v : Word) (w : Byte) (r q : RegIdx) (p : Perm)

/-! ### setPc, nextPc and advance -/

@[simp] theorem setPc_regs : (setPc t s).regs = s.regs := rfl
@[simp] theorem setPc_pc : (setPc t s).pc = t := rfl
@[simp] theorem setPc_mem : (setPc t s).mem = s.mem := rfl
@[simp] theorem setPc_dirty : (setPc t s).dirty = s.dirty := rfl
@[simp] theorem setPc_memMap : (setPc t s).memMap = s.memMap := rfl
@[simp] theorem readReg_setPc : readReg r (setPc t s) = readReg r s := rfl
@[simp] theorem byteAt_setPc : byteAt a (setPc t s) = byteAt a s := rfl
@[simp] theorem isDirty_setPc : isDirty a (setPc t s) = isDirty a s := rfl
@[simp] theorem permits_setPc : permits p a (setPc t s) = permits p a s := rfl

@[simp] theorem advance_regs : (advance s).regs = s.regs := rfl
@[simp] theorem advance_pc : (advance s).pc = s.pc + 2 := rfl
@[simp] theorem advance_mem : (advance s).mem = s.mem := rfl
@[simp] theorem advance_dirty : (advance s).dirty = s.dirty := rfl
@[simp] theorem advance_memMap : (advance s).memMap = s.memMap := rfl
@[simp] theorem readReg_advance : readReg r (advance s) = readReg r s := rfl
@[simp] theorem byteAt_advance : byteAt a (advance s) = byteAt a s := rfl
@[simp] theorem isDirty_advance : isDirty a (advance s) = isDirty a s := rfl
@[simp] theorem permits_advance : permits p a (advance s) = permits p a s := rfl

/-! ### writeReg -/

@[simp] theorem writeReg_pc : (writeReg r v s).pc = s.pc := by unfold writeReg; split <;> rfl
@[simp] theorem writeReg_mem : (writeReg r v s).mem = s.mem := by unfold writeReg; split <;> rfl
@[simp] theorem writeReg_dirty : (writeReg r v s).dirty = s.dirty := by unfold writeReg; split <;> rfl
@[simp] theorem writeReg_memMap : (writeReg r v s).memMap = s.memMap := by
  unfold writeReg; split <;> rfl
@[simp] theorem byteAt_writeReg : byteAt a (writeReg r v s) = byteAt a s := by simp [byteAt]
@[simp] theorem isDirty_writeReg : isDirty a (writeReg r v s) = isDirty a s := by simp [isDirty]
@[simp] theorem permits_writeReg : permits p a (writeReg r v s) = permits p a s := by simp [permits]

/-- What every register reads after a write: x0 is 0, the written register holds the value, every other
one is as before (10 R21). -/
theorem readReg_writeReg :
    readReg q (writeReg r v s) = if q.val ≠ 0 ∧ q = r then v else readReg q s := by
  unfold readReg writeReg
  by_cases hq : q.val = 0
  · simp [hq]
  · by_cases hr : r.val = 0
    · have : q ≠ r := fun h => hq (h ▸ hr)
      simp [hq, hr, this]
    · by_cases hqr : q = r
      · subst hqr; simp [hq]
      · have h1 : r.val - 1 ≠ q.val - 1 := fun h => hqr (Fin.ext (by omega))
        simp [hq, hr, hqr, h1]

@[simp] theorem readReg_writeReg_self (h : r.val ≠ 0) : readReg r (writeReg r v s) = v := by
  simp [readReg_writeReg, h]

@[simp] theorem readReg_writeReg_of_ne (h : q ≠ r) : readReg q (writeReg r v s) = readReg q s := by
  simp [readReg_writeReg, h]

@[simp] theorem readReg_zero : readReg 0 s = 0 := rfl
@[simp] theorem writeReg_zero : writeReg 0 v s = s := rfl

/-! ### writeByte, markDirty and storeDirty -/

@[simp] theorem writeByte_regs : (writeByte a w s).regs = s.regs := rfl
@[simp] theorem writeByte_pc : (writeByte a w s).pc = s.pc := rfl
@[simp] theorem writeByte_mem : (writeByte a w s).mem = storeByte a.toNat w s.mem := rfl
@[simp] theorem writeByte_dirty : (writeByte a w s).dirty = s.dirty := rfl
@[simp] theorem writeByte_memMap : (writeByte a w s).memMap = s.memMap := rfl

@[simp] theorem markDirty_regs : (markDirty a s).regs = s.regs := rfl
@[simp] theorem markDirty_pc : (markDirty a s).pc = s.pc := rfl
@[simp] theorem markDirty_mem : (markDirty a s).mem = s.mem := rfl
@[simp] theorem markDirty_dirty : (markDirty a s).dirty = insertAddr a.toNat s.dirty := rfl
@[simp] theorem markDirty_memMap : (markDirty a s).memMap = s.memMap := rfl

@[simp] theorem storeDirty_regs : (storeDirty a w s).regs = s.regs := rfl
@[simp] theorem storeDirty_pc : (storeDirty a w s).pc = s.pc := rfl
@[simp] theorem storeDirty_mem : (storeDirty a w s).mem = storeByte a.toNat w s.mem := rfl
@[simp] theorem storeDirty_dirty : (storeDirty a w s).dirty = insertAddr a.toNat s.dirty := rfl
@[simp] theorem storeDirty_memMap : (storeDirty a w s).memMap = s.memMap := rfl
@[simp] theorem readReg_storeDirty : readReg r (storeDirty a w s) = readReg r s := rfl
@[simp] theorem permits_storeDirty : permits p b (storeDirty a w s) = permits p b s := rfl

/-! ### storeWord -/

@[simp] theorem storeWord_regs : (storeWord a v s).regs = s.regs := by
  simp only [storeWord, storeDirty_regs]
@[simp] theorem storeWord_pc : (storeWord a v s).pc = s.pc := by
  simp only [storeWord, storeDirty_pc]
@[simp] theorem storeWord_memMap : (storeWord a v s).memMap = s.memMap := by
  simp only [storeWord, storeDirty_memMap]
@[simp] theorem readReg_storeWord : readReg r (storeWord a v s) = readReg r s := by
  simp only [storeWord, readReg_storeDirty]
@[simp] theorem permits_storeWord : permits p b (storeWord a v s) = permits p b s := by
  simp only [storeWord, permits_storeDirty]

end

/-! ### launch -/

section
variable (pc : Word) (m : MemMap) (image : Memory) (regs : Vector Word 15)

@[simp] theorem launch_regs : (State.launch pc m image regs).regs = regs := rfl
@[simp] theorem launch_pc : (State.launch pc m image regs).pc = pc := rfl
@[simp] theorem launch_mem : (State.launch pc m image regs).mem = image := rfl
@[simp] theorem launch_dirty : (State.launch pc m image regs).dirty = [] := rfl
@[simp] theorem launch_memMap : (State.launch pc m image regs).memMap = m := rfl

end

end Sys2Proof.Machine
end

