-- ==== Sys2Proof/Laws/Memory.lean ====
section
/-!
SUPPORT. Memory and `Dirty` as data: what a byte reads after a store, and that every operation keeps the
canonical form. The read laws hold of every list of cells, canonical or not.
-/

namespace Sys2Proof.Machine

/-! ### One cell list -/

/-- A byte read after a listed byte is put in. -/
theorem lookupByte_insertCell (m : Memory) (a b : Nat) (v : Byte) :
    lookupByte (insertCell a v m) b = if b = a then v else lookupByte m b := by
  induction m with
  | nil => simp [insertCell, lookupByte, eq_comm]
  | cons c m ih =>
    obtain ⟨k, w⟩ := c
    unfold insertCell
    split
    · simp [lookupByte, eq_comm]
    · split
      · rename_i h; subst h
        by_cases hb : b = a
        · simp [lookupByte, hb]
        · simp [lookupByte, hb, Ne.symm hb]
      · rename_i h1 h2
        simp only [lookupByte, ih]
        by_cases hb : b = a
        · subst hb; simp [Ne.symm h2]
        · simp [hb]

/-- A byte read after every entry of one address is taken out. -/
theorem lookupByte_filter (m : Memory) (a b : Nat) :
    lookupByte (m.filter (fun c => c.1 != a)) b =
      if b = a then Config.unlistedByte else lookupByte m b := by
  induction m with
  | nil => simp [lookupByte]
  | cons c m ih =>
    obtain ⟨k, w⟩ := c
    by_cases hk : k = a
    · subst hk
      by_cases hb : b = k
      · subst hb; simpa using ih
      · simp [ih, hb, lookupByte, Ne.symm hb]
    · by_cases hb : b = a
      · subst hb; simp [ih, hk, lookupByte]
      · simp [hk, lookupByte, ih, hb]

/-- Read after write: the written address holds the value, every other one is as before. -/
theorem lookupByte_storeByte (m : Memory) (a b : Nat) (v : Byte) :
    lookupByte (storeByte a v m) b = if b = a then v else lookupByte m b := by
  unfold storeByte
  split
  · rename_i h; rw [lookupByte_filter, h]
  · exact lookupByte_insertCell m a b v

/-- The entries after a listed byte is put in. -/
theorem mem_insertCell (m : Memory) (a : Nat) (v : Byte) (c : Host.Cell) (h : c ∈ insertCell a v m) :
    c = (a, v) ∨ c ∈ m := by
  induction m with
  | nil => simpa [insertCell] using h
  | cons d m ih =>
    obtain ⟨k, w⟩ := d
    unfold insertCell at h
    split at h
    · simpa using h
    · split at h
      · rcases List.mem_cons.1 h with h | h
        · exact .inl h
        · exact .inr (List.mem_cons_of_mem _ h)
      · rcases List.mem_cons.1 h with h | h
        · exact .inr (h ▸ List.mem_cons_self)
        · exact (ih h).imp id (List.mem_cons_of_mem _)

/-- Putting a listed byte in keeps the addresses rising. -/
theorem rising_insertCell (m : Memory) (a : Nat) (v : Byte)
    (h : (m.map Prod.fst).Pairwise (· < ·)) :
    ((insertCell a v m).map Prod.fst).Pairwise (· < ·) := by
  induction m with
  | nil => simp [insertCell]
  | cons c m ih =>
    obtain ⟨k, w⟩ := c
    simp only [List.map_cons, List.pairwise_cons] at h
    unfold insertCell
    split
    · rename_i hlt
      simp only [List.map_cons, List.pairwise_cons]
      refine ⟨fun x hx => ?_, h⟩
      rcases List.mem_cons.1 hx with rfl | hx
      · exact hlt
      · exact Nat.lt_trans hlt (h.1 x hx)
    · split
      · rename_i heq; subst heq
        simpa only [List.map_cons, List.pairwise_cons] using h
      · rename_i h1 h2
        simp only [List.map_cons, List.pairwise_cons]
        refine ⟨fun x hx => ?_, ih h.2⟩
        obtain ⟨c, hc, rfl⟩ := List.mem_map.1 hx
        rcases mem_insertCell m a v c hc with rfl | hc
        · change k < a; omega
        · exact h.1 _ (List.mem_map_of_mem hc)

/-- Writing a byte keeps the canonical form of memory. -/
theorem storeByte_wf (m : Memory) (a : Nat) (v : Byte) (ha : a < 2 ^ 32) (h : Memory.wf m) :
    Memory.wf (storeByte a v m) := by
  unfold storeByte
  split
  · refine ⟨h.1.sublist (List.filter_sublist.map _), fun c hc => h.2 c (List.mem_of_mem_filter hc)⟩
  · rename_i hv
    refine ⟨rising_insertCell m a v h.1, fun c hc => ?_⟩
    rcases mem_insertCell m a v c hc with rfl | hc
    · exact ⟨ha, hv⟩
    · exact h.2 c hc

/-! ### Dirty -/

/-- An address is in the list after an insertion when it is the inserted one or was in it. -/
theorem mem_insertAddr (d : DirtySet) (a b : Nat) : b ∈ insertAddr a d ↔ b = a ∨ b ∈ d := by
  induction d with
  | nil => simp [insertAddr]
  | cons k d ih =>
    unfold insertAddr
    split
    · simp
    · split
      · rename_i h; subst h; simp
      · simp only [List.mem_cons, ih]; tauto

/-- Adding an address keeps the canonical form of `Dirty`. -/
theorem insertAddr_wf (d : DirtySet) (a : Nat) (ha : a < 2 ^ 32) (h : DirtySet.wf d) :
    DirtySet.wf (insertAddr a d) := by
  refine ⟨?_, fun b hb => ((mem_insertAddr d a b).1 hb).elim (fun e => e ▸ ha) (h.2 b)⟩
  have hp := h.1
  clear h
  induction d with
  | nil => simp [insertAddr]
  | cons k d ih =>
    rw [List.pairwise_cons] at hp
    unfold insertAddr
    split
    · rename_i hlt
      refine List.pairwise_cons.2 ⟨fun x hx => ?_, List.pairwise_cons.2 hp⟩
      rcases List.mem_cons.1 hx with rfl | hx
      · exact hlt
      · exact Nat.lt_trans hlt (hp.1 x hx)
    · split
      · exact List.pairwise_cons.2 hp
      · refine List.pairwise_cons.2 ⟨fun x hx => ?_, ih hp.2⟩
        rcases (mem_insertAddr d a x).1 hx with rfl | hx
        · omega
        · exact hp.1 x hx

/-! ### Bytes of the state -/

/-- A byte of the state after one is written. -/
theorem byteAt_writeByte (s : State) (a b : Word) (v : Byte) :
    byteAt b (writeByte a v s) = if b = a then v else byteAt b s := by
  simp [byteAt, lookupByte_storeByte, BitVec.toNat_inj]

/-- A byte of the state after one is stored and marked. -/
theorem byteAt_storeDirty (s : State) (a b : Word) (v : Byte) :
    byteAt b (storeDirty a v s) = if b = a then v else byteAt b s := by
  simp [byteAt, lookupByte_storeByte, BitVec.toNat_inj]

/-- `Dirty` after one byte is stored. -/
theorem isDirty_storeDirty (s : State) (a b : Word) (v : Byte) :
    isDirty b (storeDirty a v s) = true ↔ b = a ∨ isDirty b s = true := by
  simp [isDirty, mem_insertAddr, BitVec.toNat_inj]

/-- Storing a byte keeps both canonical forms. -/
theorem storeDirty_wf (s : State) (a : Word) (v : Byte)
    (h : Memory.wf s.mem ∧ DirtySet.wf s.dirty) :
    Memory.wf (storeDirty a v s).mem ∧ DirtySet.wf (storeDirty a v s).dirty :=
  ⟨storeByte_wf _ _ _ a.isLt h.1, insertAddr_wf _ _ a.isLt h.2⟩

/-- Storing a word keeps both canonical forms. -/
theorem storeWord_wf (s : State) (a v : Word) (h : Memory.wf s.mem ∧ DirtySet.wf s.dirty) :
    Memory.wf (storeWord a v s).mem ∧ DirtySet.wf (storeWord a v s).dirty :=
  storeDirty_wf _ _ _ (storeDirty_wf _ _ _ (storeDirty_wf _ _ _ (storeDirty_wf _ _ _ h)))

end Sys2Proof.Machine
end

