-- ==== Sys2Proof/Laws/Ops.lean ====
section
/-!
SUPPORT. What each shared operation can do, said once: sequencing, register writes with the pc's
advance, the word load, the word store and the fetch.
-/

namespace Sys2Proof.Machine

/-! ### Sequencing and exceptions -/

section
variable {α β : Type} (o : Outcome α) (f : α → Outcome β)

/-- A sequence goes on exactly when both parts do. -/
theorem andThen_eq_next (t : β) : andThen o f = .next t ↔ ∃ v, o = .next v ∧ f v = .next t := by
  cases o <;> simp [andThen]

/-- A sequence faults where its first part does, or its second after the first. -/
theorem andThen_eq_fault (r : Fault) :
    andThen o f = .fault r ↔ o = .fault r ∨ ∃ v, o = .next v ∧ f v = .fault r := by
  cases o <;> simp [andThen]

/-- A sequence refuses where its first part does, or its second after the first. -/
theorem andThen_eq_refused (r : Refusal) :
    andThen o f = .refused r ↔ o = .refused r ∨ ∃ v, o = .next v ∧ f v = .refused r := by
  cases o <;> simp [andThen]

@[simp] theorem andThen_next (v : α) : andThen (.next v) f = f v := rfl
@[simp] theorem andThen_fault (r : Fault) : andThen (.fault r : Outcome α) f = .fault r := rfl
@[simp] theorem andThen_refused (r : Refusal) : andThen (.refused r : Outcome α) f = .refused r := rfl

end

@[simp] theorem raise_ne_next {α : Type} (e : Exception) (i : Word) (s : State) (v : α) :
    raise e i s ≠ .next v := by simp [raise]

@[simp] theorem raise_ne_refused {α : Type} (e : Exception) (i : Word) (s : State) (r : Refusal) :
    (raise e i s : Outcome α) ≠ .refused r := by simp [raise]

theorem raise_eq_fault {α : Type} (e : Exception) (i : Word) (s : State) (r : Fault) :
    (raise e i s : Outcome α) = .fault r ↔ r = .trap e i s.pc := by
  simp [raise, eq_comm]

/-! ### Writing a register and going on -/

/-- `writeAndAdvance` always goes on, in the one state that its definition names. -/
theorem writeAndAdvance_eq_next (r : RegIdx) (v : Word) (s t : State) :
    writeAndAdvance r v s = .next t ↔ t = advance (writeReg r v s) := by
  simp [writeAndAdvance, eq_comm]

/-! ### Addresses of a word -/

/-- The four addresses of a word are distinct, aligned or not. -/
theorem word_addrs_ne (a : Word) :
    a ≠ a + 1 ∧ a ≠ a + 2 ∧ a ≠ a + 3 ∧ a + 1 ≠ a + 2 ∧ a + 1 ≠ a + 3 ∧ a + 2 ≠ a + 3 := by
  refine ⟨?_, ?_, ?_, ?_, ?_, ?_⟩ <;> intro h <;> bv_omega

/-- Every byte of the word has the permission. -/
theorem permitsWord_iff (p : Perm) (a : Word) (s : State) :
    permitsWord p a s = true ↔
      permits p a s = true ∧ permits p (a + 1) s = true ∧ permits p (a + 2) s = true ∧
        permits p (a + 3) s = true := by
  simp [permitsWord, and_assoc]

/-- A word is its four bytes, the lowest address least significant (20 R41). -/
theorem wordAt_toNat (a : Word) (s : State) :
    (wordAt a s).toNat =
      (byteAt a s).toNat + 2 ^ 8 * (byteAt (a + 1) s).toNat + 2 ^ 16 * (byteAt (a + 2) s).toNat +
        2 ^ 24 * (byteAt (a + 3) s).toNat := by
  have h0 := (byteAt a s).isLt
  have h1 := (byteAt (a + 1) s).isLt
  have h2 := (byteAt (a + 2) s).isLt
  unfold wordAt
  simp only [BitVec.toNat_append]
  rw [← Nat.shiftLeft_add_eq_or_of_lt h0, ← Nat.shiftLeft_add_eq_or_of_lt h1,
    ← Nat.shiftLeft_add_eq_or_of_lt h2]
  simp only [Nat.shiftLeft_eq]
  omega

/-! ### The word load -/

/-- `MemRead` goes on exactly for an aligned, readable word, with that word (20 R42). -/
theorem memRead_eq_next (a : Word) (s : State) (v : Word) :
    memRead a s = .next v ↔
      a.toNat % 4 = 0 ∧ permitsWord .read a s = true ∧ v = wordAt a s := by
  unfold memRead
  by_cases h : a.toNat % 4 = 0
  · by_cases hp : permitsWord .read a s = true
    · simpa [h, hp] using eq_comm
    · simp [h, hp]
  · simp [h]

/-- How `MemRead` faults (20 R42). -/
theorem memRead_eq_fault (a : Word) (s : State) (r : Fault) :
    memRead a s = .fault r ↔
      (a.toNat % 4 ≠ 0 ∧ r = .trap .loadAddressMisaligned a s.pc) ∨
        (a.toNat % 4 = 0 ∧ permitsWord .read a s = false ∧ r = .trap .loadAccessFault a s.pc) := by
  unfold memRead
  by_cases h : a.toNat % 4 = 0
  · by_cases hp : permitsWord .read a s = true
    · simp [h, hp]
    · simp [h, hp, raise_eq_fault]
  · simp [h, raise_eq_fault]

/-- `MemRead` never refuses. -/
theorem memRead_ne_refused (a : Word) (s : State) (r : Refusal) : memRead a s ≠ .refused r := by
  unfold memRead
  split
  · simp
  · split <;> simp

/-! ### The word store -/

/-- `MemWrite` goes on exactly for an aligned, writable word, in the state of `storeWord` (20 R43). -/
theorem memWrite_eq_next (a v : Word) (s t : State) :
    memWrite a v s = .next t ↔
      a.toNat % 4 = 0 ∧ permitsWord .write a s = true ∧ t = storeWord a v s := by
  unfold memWrite
  by_cases h : a.toNat % 4 = 0
  · by_cases hp : permitsWord .write a s = true
    · simpa [h, hp] using eq_comm
    · simp [h, hp]
  · simp [h]

/-- How `MemWrite` faults (20 R43). -/
theorem memWrite_eq_fault (a v : Word) (s : State) (r : Fault) :
    memWrite a v s = .fault r ↔
      (a.toNat % 4 ≠ 0 ∧ r = .trap .storeAddressMisaligned a s.pc) ∨
        (a.toNat % 4 = 0 ∧ permitsWord .write a s = false ∧ r = .trap .storeAccessFault a s.pc) := by
  unfold memWrite
  by_cases h : a.toNat % 4 = 0
  · by_cases hp : permitsWord .write a s = true
    · simp [h, hp]
    · simp [h, hp, raise_eq_fault]
  · simp [h, raise_eq_fault]

/-- `MemWrite` never refuses. -/
theorem memWrite_ne_refused (a v : Word) (s : State) (r : Refusal) : memWrite a v s ≠ .refused r := by
  unfold memWrite
  split
  · simp
  · split <;> simp

/-- A byte after a word is stored. -/
theorem byteAt_storeWord (a v b : Word) (s : State) :
    byteAt b (storeWord a v s) =
      if b = a + 3 then v.extractLsb' 24 8
      else if b = a + 2 then v.extractLsb' 16 8
      else if b = a + 1 then v.extractLsb' 8 8
      else if b = a then v.extractLsb' 0 8
      else byteAt b s := by
  simp only [storeWord, byteAt_storeDirty]

/-- `Dirty` after a word is stored. -/
theorem isDirty_storeWord (a v b : Word) (s : State) :
    isDirty b (storeWord a v s) = true ↔
      b = a + 3 ∨ b = a + 2 ∨ b = a + 1 ∨ b = a ∨ isDirty b s = true := by
  simp only [storeWord, isDirty_storeDirty]

/-! ### The fetch -/

/-- `Fetch` goes on exactly from an even pc whose two bytes are executable and not stored to, with the
parcel there (20 R44). -/
theorem fetch_eq_next (s : State) (p : Parcel) :
    fetch s = .next p ↔
      s.pc.toNat % 2 = 0 ∧ permits .execute s.pc s = true ∧ permits .execute (s.pc + 1) s = true ∧
        isDirty s.pc s = false ∧ isDirty (s.pc + 1) s = false ∧ p = parcelAt s.pc s := by
  unfold fetch
  by_cases h : s.pc.toNat % 2 = 0
  · cases permits .execute s.pc s <;> cases permits .execute (s.pc + 1) s <;>
      cases isDirty s.pc s <;> cases isDirty (s.pc + 1) s <;> simp [h, @eq_comm _ p]
  · simp [h]

/-- How `Fetch` faults (20 R44). -/
theorem fetch_eq_fault (s : State) (r : Fault) :
    fetch s = .fault r ↔
      (s.pc.toNat % 2 ≠ 0 ∧ r = .trap .instructionAddressMisaligned s.pc s.pc) ∨
        (s.pc.toNat % 2 = 0 ∧
          (permits .execute s.pc s = false ∨ permits .execute (s.pc + 1) s = false) ∧
          r = .trap .instructionAccessFault s.pc s.pc) := by
  unfold fetch
  by_cases h : s.pc.toNat % 2 = 0
  · cases permits .execute s.pc s <;> cases permits .execute (s.pc + 1) s <;>
      cases isDirty s.pc s <;> cases isDirty (s.pc + 1) s <;> simp [h, raise_eq_fault]
  · simp [h, raise_eq_fault]

/-- How `Fetch` refuses (20 R44). -/
theorem fetch_eq_refused (s : State) (r : Refusal) :
    fetch s = .refused r ↔
      s.pc.toNat % 2 = 0 ∧ permits .execute s.pc s = true ∧ permits .execute (s.pc + 1) s = true ∧
        (isDirty s.pc s = true ∨ isDirty (s.pc + 1) s = true) ∧ r = .fetchOfModifiedCode s.pc := by
  unfold fetch
  by_cases h : s.pc.toNat % 2 = 0
  · cases permits .execute s.pc s <;> cases permits .execute (s.pc + 1) s <;>
      cases isDirty s.pc s <;> cases isDirty (s.pc + 1) s <;> simp [h, @eq_comm _ r]
  · simp [h]

end Sys2Proof.Machine
end

