-- ==== Sys2Proof/Laws/Outcomes.lean ====
section
/-!
SUPPORT. What the shared operations of the meanings do, in the words of Safety.lean: one lemma for each
way an instruction can go on.
-/

namespace Sys2Proof.Machine

/-- Nothing changes from a state to itself. -/
theorem SameMemory.refl (s : State) : SameMemory s s := ⟨fun _ => rfl, rfl, rfl⟩

/-- Writing a register that is not x0 and going on. -/
theorem setsRegister_writeReg {r : RegIdx} (v : Word) (s : State) (h : r.val ≠ 0) :
    SetsRegister r v s (advance (writeReg r v s)) :=
  ⟨by simp [h], fun q hq => by simp [hq], ⟨fun _ => by simp, by simp, by simp⟩, by simp⟩

/-- Going to a target. -/
theorem goesTo_setPc (target : Word) (s : State) : GoesTo target s (setPc target s) :=
  ⟨rfl, fun _ => rfl, fun _ => rfl, rfl, rfl⟩

/-- Going on, which is what C.NOP and every HINT do. -/
theorem goesTo_advance (s : State) : GoesTo (s.pc + 2) s (advance s) :=
  goesTo_setPc _ _

/-- Linking and going to a target. -/
theorem linksAndGoesTo_setPc (target : Word) (s : State) :
    LinksAndGoesTo target s (setPc target (writeReg linkReg (nextPc s) s)) :=
  ⟨rfl, by simp [linkReg, nextPc], fun q hq => by simp [linkReg, hq],
    fun _ => by simp, by simp, by simp⟩

/-- The four addresses of a word, as a list of conditions. -/
theorem wordPermitted_iff (p : Perm) (a : Word) (s : State) :
    WordPermitted p a s ↔ permitsWord p a s = true := by
  rw [permitsWord_iff]
  constructor
  · intro h
    exact ⟨h a (.inl rfl), h _ (.inr (.inl rfl)), h _ (.inr (.inr (.inl rfl))),
      h _ (.inr (.inr (.inr rfl)))⟩
  · rintro ⟨h0, h1, h2, h3⟩ b (rfl | rfl | rfl | rfl) <;> assumption

/-- The word at an address has the value of its bytes. -/
theorem wordAt_eq (a : Word) (s : State) : wordAt a s = BitVec.ofNat 32 (wordValue a s) := by
  apply BitVec.eq_of_toNat_eq
  have h : (wordAt a s).toNat = wordValue a s := wordAt_toNat a s
  rw [BitVec.toNat_ofNat, ← h, Nat.mod_eq_of_lt (wordAt a s).isLt]

/-- Storing a word. -/
theorem storesWord_storeWord (a v : Word) (s : State) : StoresWord a v s (storeWord a v s) := by
  refine ⟨?_, ?_, ?_, ?_, ?_, ?_, storeWord_memMap _ _ _⟩
  · rw [byteAt_storeWord]; simp
  · rw [byteAt_storeWord]; simp [Nat.shiftRight_eq_div_pow]
  · rw [byteAt_storeWord]; simp [Nat.shiftRight_eq_div_pow]
  · rw [byteAt_storeWord]; simp [Nat.shiftRight_eq_div_pow]
  · intro b hb
    simp only [InWord, not_or] at hb
    rw [byteAt_storeWord, if_neg hb.2.2.2, if_neg hb.2.2.1, if_neg hb.2.1, if_neg hb.1]
  · intro b
    rw [isDirty_storeWord, InWord]
    tauto

/-- A load has the outcome of 20 R42 with the pc's advance. -/
theorem loadOutcome_loadInto {rd : RegIdx} (a : Word) (s : State) (h : rd.val ≠ 0) :
    LoadOutcome rd a s (loadInto rd a s) := by
  refine ⟨fun h4 => ?_, fun h4 hp => ?_, fun h4 hp => ?_⟩
  · simp [loadInto, memRead, h4, raise]
  · rw [wordPermitted_iff] at hp
    simp [loadInto, memRead, h4, hp, raise]
  · rw [wordPermitted_iff] at hp
    refine ⟨advance (writeReg rd (wordAt a s) s), ?_, ?_⟩
    · simp [loadInto, memRead, h4, hp, writeAndAdvance]
    · rw [← wordAt_eq]
      exact setsRegister_writeReg _ _ h

/-- A store has the outcome of 20 R43 with the pc's advance. -/
theorem storeOutcome_storeFrom (a v : Word) (s : State) : StoreOutcome a v s (storeFrom v a s) := by
  refine ⟨fun h4 => ?_, fun h4 hp => ?_, fun h4 hp => ?_⟩
  · simp [storeFrom, memWrite, h4, raise]
  · rw [wordPermitted_iff] at hp
    simp [storeFrom, memWrite, h4, hp, raise]
  · rw [wordPermitted_iff] at hp
    refine ⟨advance (storeWord a v s), ?_, ?_, fun r => ?_, ?_⟩
    · simp [storeFrom, memWrite, h4, hp]
    · exact storesWord_storeWord a v s
    · simp
    · simp

end Sys2Proof.Machine
end

