-- ==== Sys2Proof/Laws/Exec.lean ====
section
/-!
SUPPORT. What `exec` can do, said once: every instruction is of one of six shapes. Later proofs take the
shapes apart instead of the 72 instructions.
-/

namespace Sys2Proof.Machine

/-- The state in which an instruction that accesses no memory goes on: the register it writes, if any,
holds `v`, and pc is at the transfer's target or after the instruction. -/
def plainNext (i : Instr) (v : Word) (s : State) : State :=
  setPc ((transferTarget i s).getD (s.pc + 2))
    (match regWritten i with
      | some r => writeReg r v s
      | none => s)

/-- The instruction traps as an illegal one, with its own parcel. -/
def IsIllegal (i : Instr) : Prop :=
  (∀ s, exec i s = raiseIllegal (encode i) s) ∧ (∀ s, loadAddress i s = none) ∧
    (∀ s, storeAddress i s = none) ∧ isHint i = false

/-- The instruction loads: the register it writes and the address are those of Safety.lean. -/
def IsLoad (i : Instr) : Prop :=
  ∃ rd, regWritten i = some rd ∧ isHint i = false ∧
    ∀ s, storeAddress i s = none ∧ transferTarget i s = none ∧
      ∃ a, loadAddress i s = some a ∧ exec i s = loadInto rd a s

/-- The instruction stores the word and at the address that Safety.lean says. -/
def IsStore (i : Instr) : Prop :=
  regWritten i = none ∧ isHint i = false ∧
    ∀ s, loadAddress i s = none ∧ transferTarget i s = none ∧
      ∃ a, storeAddress i s = some a ∧ exec i s = storeFrom (storeData i s) a s

/-- The instruction accesses no memory and always goes on. -/
def IsPlain (i : Instr) : Prop :=
  ∀ s, loadAddress i s = none ∧ storeAddress i s = none ∧ ∃ v, exec i s = .next (plainNext i v s)

/-- An instruction that writes a register and goes on. -/
theorem plain_of_write {i : Instr} {r : RegIdx} (hr : regWritten i = some r)
    (ht : ∀ s, transferTarget i s = none) (hl : ∀ s, loadAddress i s = none)
    (hs : ∀ s, storeAddress i s = none) (h : ∀ s, ∃ v, exec i s = writeAndAdvance r v s) :
    IsPlain i := fun s => by
  obtain ⟨v, hv⟩ := h s
  exact ⟨hl s, hs s, v, by simp [hv, writeAndAdvance, plainNext, hr, ht, advance, nextPc]⟩

/-- A branch goes on at its target or after itself. -/
theorem plain_of_branch {i : Instr} (hr : regWritten i = none) (hl : ∀ s, loadAddress i s = none)
    (hs : ∀ s, storeAddress i s = none)
    (h : ∀ s, exec i s = .next (setPc ((transferTarget i s).getD (s.pc + 2)) s)) : IsPlain i :=
  fun s => ⟨hl s, hs s, 0, by rw [h, plainNext, hr]⟩

theorem plain_beqz (r : CReg) (n : BitVec 8) : IsPlain (.cBeqz r n) := by
  refine plain_of_branch rfl (fun _ => rfl) (fun _ => rfl) fun s => ?_
  by_cases h : readReg (cregIdx r) s = 0#32 <;>
    simp [exec, execCBeqz, isZero, transferTarget, h, advance, nextPc]

theorem plain_bnez (r : CReg) (n : BitVec 8) : IsPlain (.cBnez r n) := by
  refine plain_of_branch rfl (fun _ => rfl) (fun _ => rfl) fun s => ?_
  by_cases h : readReg (cregIdx r) s = 0#32 <;>
    simp [exec, execCBnez, isZero, transferTarget, h, advance, nextPc]

/-- Every instruction is of one of six shapes. -/
theorem exec_shape (i : Instr) :
    IsIllegal i ∨ (∃ p, i = .wide p) ∨ i = .cEbreak ∨ IsLoad i ∨ IsStore i ∨ IsPlain i := by
  cases i
  case wide p => exact .inr (.inl ⟨p, rfl⟩)
  case cEbreak => exact .inr (.inr (.inl rfl))
  case cBeqz r n => exact .inr (.inr (.inr (.inr (.inr (plain_beqz r n)))))
  case cBnez r n => exact .inr (.inr (.inr (.inr (.inr (plain_bnez r n)))))
  all_goals first
    | exact .inl ⟨fun _ => rfl, fun _ => rfl, fun _ => rfl, rfl⟩
    | exact .inr (.inr (.inr (.inr (.inr (plain_of_write rfl (fun _ => rfl) (fun _ => rfl) (fun _ => rfl)
        fun _ => ⟨_, rfl⟩)))))
    | exact .inr (.inr (.inr (.inr (.inr fun _ => ⟨rfl, rfl, _, rfl⟩))))
    | exact .inr (.inr (.inr (.inr (.inr fun _ => ⟨rfl, rfl, 0, rfl⟩))))
    | exact .inr (.inr (.inr (.inl ⟨_, rfl, rfl, fun _ => ⟨rfl, rfl, _, rfl, rfl⟩⟩)))
    | exact .inr (.inr (.inr (.inr (.inl ⟨rfl, rfl, fun _ => ⟨rfl, rfl, _, rfl, rfl⟩⟩))))

/-- A load goes on exactly for an aligned, readable word. -/
theorem loadInto_eq_next (rd : RegIdx) (a : Word) (s t : State) :
    loadInto rd a s = .next t ↔
      a.toNat % 4 = 0 ∧ permitsWord .read a s = true ∧ t = advance (writeReg rd (wordAt a s) s) := by
  simp only [loadInto, andThen_eq_next, memRead_eq_next, writeAndAdvance_eq_next]
  constructor
  · rintro ⟨v, ⟨ha, hp, rfl⟩, rfl⟩
    exact ⟨ha, hp, rfl⟩
  · rintro ⟨ha, hp, rfl⟩
    exact ⟨_, ⟨ha, hp, rfl⟩, rfl⟩

/-- A store goes on exactly for an aligned, writable word. -/
theorem storeFrom_eq_next (v a : Word) (s t : State) :
    storeFrom v a s = .next t ↔
      a.toNat % 4 = 0 ∧ permitsWord .write a s = true ∧ t = advance (storeWord a v s) := by
  simp only [storeFrom, andThen_eq_next, memWrite_eq_next, Host.Outcome.next.injEq]
  constructor
  · rintro ⟨u, ⟨ha, hp, rfl⟩, rfl⟩
    exact ⟨ha, hp, rfl⟩
  · rintro ⟨ha, hp, rfl⟩
    exact ⟨_, ⟨ha, hp, rfl⟩, rfl⟩

/-- The state an instruction goes on in: after a load, after a store, or after neither. -/
theorem exec_eq_next {i : Instr} {s t : State} (h : exec i s = .next t) :
    (∃ rd a, regWritten i = some rd ∧ loadAddress i s = some a ∧ storeAddress i s = none ∧
      transferTarget i s = none ∧ a.toNat % 4 = 0 ∧ permitsWord .read a s = true ∧
      t = advance (writeReg rd (wordAt a s) s)) ∨
    (∃ a, regWritten i = none ∧ loadAddress i s = none ∧ storeAddress i s = some a ∧
      transferTarget i s = none ∧ a.toNat % 4 = 0 ∧ permitsWord .write a s = true ∧
      t = advance (storeWord a (storeData i s) s)) ∨
    (∃ v, loadAddress i s = none ∧ storeAddress i s = none ∧ t = plainNext i v s) := by
  rcases exec_shape i with ⟨hx, -⟩ | ⟨p, rfl⟩ | rfl | ⟨rd, hr, -, hl⟩ | ⟨hr, -, hw⟩ | hp
  · rw [hx] at h; cases h
  · cases h
  · cases h
  · obtain ⟨h1, h2, a, h3, h4⟩ := hl s
    rw [h4, loadInto_eq_next] at h
    exact .inl ⟨rd, a, hr, h3, h1, h2, h⟩
  · obtain ⟨h1, h2, a, h3, h4⟩ := hw s
    rw [h4, storeFrom_eq_next] at h
    exact .inr (.inl ⟨a, hr, h1, h3, h2, h⟩)
  · obtain ⟨h1, h2, v, h3⟩ := hp s
    rw [h3, Host.Outcome.next.injEq] at h
    exact .inr (.inr ⟨v, h1, h2, h.symm⟩)

/-! ### The state after an instruction that accesses no memory -/

section
variable (i : Instr) (v : Word) (s : State)

@[simp] theorem plainNext_pc : (plainNext i v s).pc = (transferTarget i s).getD (s.pc + 2) := rfl

@[simp] theorem plainNext_mem : (plainNext i v s).mem = s.mem := by
  unfold plainNext; cases regWritten i <;> simp

@[simp] theorem plainNext_dirty : (plainNext i v s).dirty = s.dirty := by
  unfold plainNext; cases regWritten i <;> simp

@[simp] theorem plainNext_memMap : (plainNext i v s).memMap = s.memMap := by
  unfold plainNext; cases regWritten i <;> simp

/-- Only the register the instruction writes changes. -/
theorem readReg_plainNext {r : RegIdx} (h : regWritten i ≠ some r) :
    readReg r (plainNext i v s) = readReg r s := by
  unfold plainNext
  cases hr : regWritten i with
  | none => simp
  | some q =>
    have : r ≠ q := fun e => h (by rw [hr, e])
    simp [this]

/-- Nothing of memory changes. -/
theorem sameMemory_plainNext : SameMemory s (plainNext i v s) :=
  ⟨fun a => by simp [byteAt], by simp, by simp⟩

end

end Sys2Proof.Machine
end

