-- ==== Sys2Proof/Laws/Parcel.lean ====
section
/-!
SUPPORT. The decoder's registers, tests and immediates as the rules of 30_encoding.md write them, that is,
as the operand formulas of Safety.lean.
-/

namespace Sys2Proof.Machine

/-! ### Registers -/

/-- The register of a 3-bit field (10 R23). -/
theorem cregIdx_ofNat (n : Nat) (h : n < 8) : cregIdx (Fin.ofNat 8 n) = xPrime n := by
  apply Fin.ext
  simp only [cregIdx, xPrime, Fin.val_ofNat]
  omega

/-- A 3-bit field never names x0. -/
theorem xPrime_ne_zero (n : Nat) (h : n < 8) : (xPrime n).val ≠ 0 := by
  simp only [xPrime, Fin.val_ofNat]
  omega

/-- A 5-bit field that is not 0 does not name x0. -/
theorem xReg_ne_zero (n : Nat) (h : n < 16) (h0 : n ≠ 0) : (xReg n).val ≠ 0 := by
  simp only [xReg, Fin.val_ofNat]
  omega

section
variable (p : Parcel)

theorem regOfField_high : regOfField (regFieldHigh p) = xReg (slice p 11 7) := by
  rw [regOfField, regFieldHigh_toNat, xReg]

theorem regOfField_low : regOfField (regFieldLow p) = xReg (slice p 6 2) := by
  rw [regOfField, regFieldLow_toNat, xReg]

theorem namesAbsentReg_high : namesAbsentReg (regFieldHigh p) = decide (16 ≤ slice p 11 7) := by
  rw [namesAbsentReg, regFieldHigh_toNat]

theorem namesAbsentReg_low : namesAbsentReg (regFieldLow p) = decide (16 ≤ slice p 6 2) := by
  rw [namesAbsentReg, regFieldLow_toNat]

/-! ### The decoder's tests of a field -/

theorem regFieldHigh_eq_iff (k : BitVec 5) : regFieldHigh p = k ↔ slice p 11 7 = k.toNat := by
  rw [← BitVec.toNat_inj, regFieldHigh_toNat]

theorem regFieldLow_eq_iff (k : BitVec 5) : regFieldLow p = k ↔ slice p 6 2 = k.toNat := by
  rw [← BitVec.toNat_inj, regFieldLow_toNat]

theorem immSix_eq_zero_iff : immSix p = 0 ↔ slice p 12 12 = 0 ∧ slice p 6 2 = 0 := by
  rw [← BitVec.toNat_inj, immSix_toNat, show BitVec.toNat (0 : BitVec 6) = 0 from rfl]
  omega

theorem immAddi16sp_eq_zero_iff : immAddi16sp p = 0 ↔ slice p 12 12 = 0 ∧ slice p 6 2 = 0 := by
  rw [← BitVec.toNat_inj, immAddi16sp_toNat, show BitVec.toNat (0 : BitVec 6) = 0 from rfl]
  simp only [slice]
  omega

theorem immAddi4spn_eq_zero_iff : immAddi4spn p = 0 ↔ slice p 12 5 = 0 := by
  rw [← BitVec.toNat_inj, immAddi4spn_toNat, show BitVec.toNat (0 : BitVec 8) = 0 from rfl]
  simp only [slice]
  omega

/-! ### Immediates (30 R84 to R92) -/

theorem nzuimmAddi4spn_of : nzuimmAddi4spn (immAddi4spn p) = BitVec.ofNat 32 (addi4spnOf p) := by
  apply BitVec.eq_of_toNat_eq
  rw [nzuimmAddi4spn_toNat, immAddi4spn_toNat, BitVec.toNat_ofNat, addi4spnOf]
  simp only [slice]
  omega

theorem uimmLwSw_of : uimmLwSw (immLwSw p) = BitVec.ofNat 32 (lwOffsetOf p) := by
  apply BitVec.eq_of_toNat_eq
  rw [uimmLwSw_toNat, immLwSw_toNat, BitVec.toNat_ofNat, lwOffsetOf]
  simp only [slice]
  omega

theorem uimmSp_lwsp_of : uimmSp (immLwsp p) = BitVec.ofNat 32 (lwspOffsetOf p) := by
  apply BitVec.eq_of_toNat_eq
  rw [uimmSp_toNat, immLwsp_toNat, BitVec.toNat_ofNat, lwspOffsetOf]
  simp only [slice]
  omega

theorem uimmSp_swsp_of : uimmSp (immSwsp p) = BitVec.ofNat 32 (swspOffsetOf p) := by
  apply BitVec.eq_of_toNat_eq
  rw [uimmSp_toNat, immSwsp_toNat, BitVec.toNat_ofNat, swspOffsetOf]
  simp only [slice]
  omega

theorem immSigned6_of : immSigned6 (immSix p) = BitVec.ofInt 32 (imm6Of p) := by
  rw [immSigned6_eq, BitVec.toInt_eq_toNat_cond, immSix_toNat, imm6Of]
  have := slice_lt p 12 12
  have := slice_lt p 6 2
  congr 1
  split_ifs <;> push_cast <;> omega

theorem nzimmLui_of : nzimmLui (immSix p) = BitVec.ofInt 32 (luiOf p) := by
  rw [nzimmLui_eq, BitVec.toInt_eq_toNat_cond, immSix_toNat, luiOf]
  have := slice_lt p 12 12
  have := slice_lt p 6 2
  congr 1
  split_ifs <;> push_cast <;> omega

theorem nzimmAddi16sp_of : nzimmAddi16sp (immAddi16sp p) = BitVec.ofInt 32 (addi16spOf p) := by
  rw [nzimmAddi16sp_eq, BitVec.toInt_eq_toNat_cond, immAddi16sp_toNat, addi16spOf]
  have := slice_lt p 12 12
  have := slice_lt p 4 3
  have := slice_lt p 5 5
  have := slice_lt p 2 2
  have := slice_lt p 6 6
  congr 1
  split_ifs <;> push_cast <;> omega

theorem offsetJump_of : offsetJump (immJump p) = BitVec.ofInt 32 (jumpOf p) := by
  rw [offsetJump_eq, BitVec.toInt_eq_toNat_cond, immJump_toNat, jumpOf]
  have := slice_lt p 12 12
  have := slice_lt p 8 8
  have := slice_lt p 10 9
  have := slice_lt p 6 6
  have := slice_lt p 7 7
  have := slice_lt p 2 2
  have := slice_lt p 11 11
  have := slice_lt p 5 3
  congr 1
  split_ifs <;> push_cast <;> omega

theorem offsetBranch_of : offsetBranch (immBranch p) = BitVec.ofInt 32 (branchOf p) := by
  rw [offsetBranch_eq, BitVec.toInt_eq_toNat_cond, immBranch_toNat, branchOf]
  have := slice_lt p 12 12
  have := slice_lt p 6 5
  have := slice_lt p 2 2
  have := slice_lt p 11 10
  have := slice_lt p 4 3
  congr 1
  split_ifs <;> push_cast <;> omega

end

/-! ### Parity of offsets and targets (10 R26) -/

/-- A scaled, sign-extended offset is even. -/
theorem signExtend_append_zero_even {w : Nat} (x : BitVec w) :
    ((x ++ 0#1).signExtend 32).toNat % 2 = 0 := by
  rw [signExtend_scaled 1 x, BitVec.toNat_ofInt]
  omega

theorem offsetJump_even (x : BitVec 11) : (offsetJump x).toNat % 2 = 0 :=
  signExtend_append_zero_even x

theorem offsetBranch_even (x : BitVec 8) : (offsetBranch x).toNat % 2 = 0 :=
  signExtend_append_zero_even x

theorem jumpTarget_even (v : Word) : (jumpTarget v).toNat % 2 = 0 := by
  rw [jumpTarget_toNat]
  omega

end Sys2Proof.Machine
end

