-- ==== Sys2Proof/Laws/PerInstr.lean ====
section
/-!
SUPPORT. The laws stated for every instruction, one lemma per constructor. `EncodedMajorOpcode`: the
parcel of a well-formed instruction lies in the quadrant and under the funct3 of its row
(30_encoding.md R71, R72).
-/

namespace Sys2Proof.Laws.EncodedMajorOpcode

/-- The quadrant of the instruction's row (30 R72). -/
def rowQuadrant : Instr → BitVec 2
  | .cIllegal => 0
  | .cAddi4spnRes _ => 0
  | .cAddi4spn _ _ => 0
  | .cFld _ => 0
  | .cLw _ _ _ => 0
  | .cFlw _ => 0
  | .q0Reserved _ => 0
  | .cFsd _ => 0
  | .cSw _ _ _ => 0
  | .cFsw _ => 0
  | .cNop => 1
  | .cNopHint _ => 1
  | .cAddi _ _ => 1
  | .cAddiHint _ => 1
  | .cAddiRv32e _ => 1
  | .cJal _ => 1
  | .cLi _ _ => 1
  | .cLiHint _ => 1
  | .cLiRv32e _ => 1
  | .cAddi16spRes => 1
  | .cAddi16sp _ => 1
  | .cLuiRes _ => 1
  | .cLui _ _ => 1
  | .cLuiHint _ => 1
  | .cLuiRv32e _ => 1
  | .cSrli _ _ => 1
  | .cSrli64Hint _ => 1
  | .cSrliCustom _ => 1
  | .cSrai _ _ => 1
  | .cSrai64Hint _ => 1
  | .cSraiCustom _ => 1
  | .cAndi _ _ => 1
  | .cSub _ _ => 1
  | .cXor _ _ => 1
  | .cOr _ _ => 1
  | .cAnd _ _ => 1
  | .cSubwRes _ => 1
  | .cAddwRes _ => 1
  | .q1Reserved10 _ => 1
  | .q1Reserved11 _ => 1
  | .cJ _ => 1
  | .cBeqz _ _ => 1
  | .cBnez _ _ => 1
  | .cSlliCustom _ => 2
  | .cSlli _ _ => 2
  | .cSlliHint _ => 2
  | .cSlli64Hint _ => 2
  | .cSlliRv32e _ => 2
  | .cFldsp _ => 2
  | .cLwsp _ _ => 2
  | .cLwspRes _ => 2
  | .cLwspRv32e _ => 2
  | .cFlwsp _ => 2
  | .cJrRes => 2
  | .cJr _ => 2
  | .cJrRv32e _ => 2
  | .cMv _ _ => 2
  | .cMvHint _ => 2
  | .cMvRv32eRd _ => 2
  | .cMvRv32eRs2 _ => 2
  | .cEbreak => 2
  | .cJalr _ => 2
  | .cJalrRv32e _ => 2
  | .cAdd _ _ => 2
  | .cAddHint _ => 2
  | .cAddRv32eRd _ => 2
  | .cAddRv32eRs2 _ => 2
  | .cFsdsp _ => 2
  | .cSwsp _ _ => 2
  | .cSwspRv32e _ => 2
  | .cFswsp _ => 2
  | .wide _ => 3

/-- The funct3 of the instruction's row (30 R72); a parcel of quadrant 3 has none. -/
def rowFunct3 : Instr → Option (BitVec 3)
  | .cIllegal => some 0
  | .cAddi4spnRes _ => some 0
  | .cAddi4spn _ _ => some 0
  | .cFld _ => some 1
  | .cLw _ _ _ => some 2
  | .cFlw _ => some 3
  | .q0Reserved _ => some 4
  | .cFsd _ => some 5
  | .cSw _ _ _ => some 6
  | .cFsw _ => some 7
  | .cNop => some 0
  | .cNopHint _ => some 0
  | .cAddi _ _ => some 0
  | .cAddiHint _ => some 0
  | .cAddiRv32e _ => some 0
  | .cJal _ => some 1
  | .cLi _ _ => some 2
  | .cLiHint _ => some 2
  | .cLiRv32e _ => some 2
  | .cAddi16spRes => some 3
  | .cAddi16sp _ => some 3
  | .cLuiRes _ => some 3
  | .cLui _ _ => some 3
  | .cLuiHint _ => some 3
  | .cLuiRv32e _ => some 3
  | .cSrli _ _ => some 4
  | .cSrli64Hint _ => some 4
  | .cSrliCustom _ => some 4
  | .cSrai _ _ => some 4
  | .cSrai64Hint _ => some 4
  | .cSraiCustom _ => some 4
  | .cAndi _ _ => some 4
  | .cSub _ _ => some 4
  | .cXor _ _ => some 4
  | .cOr _ _ => some 4
  | .cAnd _ _ => some 4
  | .cSubwRes _ => some 4
  | .cAddwRes _ => some 4
  | .q1Reserved10 _ => some 4
  | .q1Reserved11 _ => some 4
  | .cJ _ => some 5
  | .cBeqz _ _ => some 6
  | .cBnez _ _ => some 7
  | .cSlliCustom _ => some 0
  | .cSlli _ _ => some 0
  | .cSlliHint _ => some 0
  | .cSlli64Hint _ => some 0
  | .cSlliRv32e _ => some 0
  | .cFldsp _ => some 1
  | .cLwsp _ _ => some 2
  | .cLwspRes _ => some 2
  | .cLwspRv32e _ => some 2
  | .cFlwsp _ => some 3
  | .cJrRes => some 4
  | .cJr _ => some 4
  | .cJrRv32e _ => some 4
  | .cMv _ _ => some 4
  | .cMvHint _ => some 4
  | .cMvRv32eRd _ => some 4
  | .cMvRv32eRs2 _ => some 4
  | .cEbreak => some 4
  | .cJalr _ => some 4
  | .cJalrRv32e _ => some 4
  | .cAdd _ _ => some 4
  | .cAddHint _ => some 4
  | .cAddRv32eRd _ => some 4
  | .cAddRv32eRs2 _ => some 4
  | .cFsdsp _ => some 5
  | .cSwsp _ _ => some 6
  | .cSwspRv32e _ => some 6
  | .cFswsp _ => some 7
  | .wide _ => none

/-- The law. -/
def Statement (i : Instr) : Prop :=
  i.wellFormed = true →
    quadrantOf (encode i) = rowQuadrant i ∧
      ∀ f : BitVec 3, rowFunct3 i = some f → funct3Of (encode i) = f

/-! ### The formats -/

/-- A concatenation that ends in two bits has them as its quadrant. -/
theorem quadrantOf_append (x : BitVec 14) (q : BitVec 2) : quadrantOf (x ++ q) = q := by
  apply BitVec.eq_of_toNat_eq
  rw [quadrantOf, toNat_extract, toNat_append_add]
  have := q.isLt
  omega

/-- A concatenation that begins with three bits has them as its funct3. -/
theorem funct3Of_append (f : BitVec 3) (x : BitVec 13) : funct3Of (f ++ x) = f := by
  apply BitVec.eq_of_toNat_eq
  rw [funct3Of, toNat_extract, toNat_append_add]
  have := f.isLt
  have := x.isLt
  omega

theorem encodeCIW_major (f3 : BitVec 3) (imm : BitVec 8) (rd : CReg) (q : BitVec 2) :
    quadrantOf (encodeCIW f3 imm rd q) = q ∧ funct3Of (encodeCIW f3 imm rd q) = f3 := by
  refine ⟨quadrantOf_append _ _, ?_⟩
  unfold encodeCIW
  simp only [BitVec.append_assoc, BitVec.cast_eq]
  exact funct3Of_append _ _

theorem encodeCLS_major (f3 : BitVec 3) (imm : BitVec 5) (rs1 low : CReg) (q : BitVec 2) :
    quadrantOf (encodeCLS f3 imm rs1 low q) = q ∧ funct3Of (encodeCLS f3 imm rs1 low q) = f3 := by
  refine ⟨quadrantOf_append _ _, ?_⟩
  unfold encodeCLS
  simp only [BitVec.append_assoc, BitVec.cast_eq]
  exact funct3Of_append _ _

theorem encodeCI_major (f3 : BitVec 3) (field : BitVec 6) (reg : BitVec 5) (q : BitVec 2) :
    quadrantOf (encodeCI f3 field reg q) = q ∧ funct3Of (encodeCI f3 field reg q) = f3 := by
  refine ⟨quadrantOf_append _ _, ?_⟩
  unfold encodeCI
  simp only [BitVec.append_assoc, BitVec.cast_eq]
  exact funct3Of_append _ _

theorem encodeCJ_major (f3 : BitVec 3) (imm : BitVec 11) (q : BitVec 2) :
    quadrantOf (encodeCJ f3 imm q) = q ∧ funct3Of (encodeCJ f3 imm q) = f3 := by
  refine ⟨quadrantOf_append _ _, ?_⟩
  unfold encodeCJ
  simp only [BitVec.append_assoc, BitVec.cast_eq]
  exact funct3Of_append _ _

theorem encodeCBranch_major (f3 : BitVec 3) (rs1 : CReg) (imm : BitVec 8) (q : BitVec 2) :
    quadrantOf (encodeCBranch f3 rs1 imm q) = q ∧ funct3Of (encodeCBranch f3 rs1 imm q) = f3 := by
  refine ⟨quadrantOf_append _ _, ?_⟩
  unfold encodeCBranch
  simp only [BitVec.append_assoc, BitVec.cast_eq]
  exact funct3Of_append _ _

theorem encodeCBAlu_major (field : BitVec 6) (f2 : BitVec 2) (rd : CReg) :
    quadrantOf (encodeCBAlu field f2 rd) = 1 ∧ funct3Of (encodeCBAlu field f2 rd) = 4 := by
  refine ⟨quadrantOf_append _ _, ?_⟩
  unfold encodeCBAlu
  simp only [BitVec.append_assoc, BitVec.cast_eq]
  exact funct3Of_append _ _

theorem encodeCA_major (rd : CReg) (f2 : BitVec 2) (rs2 : CReg) :
    quadrantOf (encodeCA rd f2 rs2) = 1 ∧ funct3Of (encodeCA rd f2 rs2) = 4 := by
  refine ⟨quadrantOf_append _ _, ?_⟩
  unfold encodeCA
  simp only [BitVec.append_assoc, BitVec.cast_eq]
  exact funct3Of_append _ _

theorem encodeCR_major (f1 : BitVec 1) (high low : BitVec 5) :
    quadrantOf (encodeCR f1 high low) = 2 ∧ funct3Of (encodeCR f1 high low) = 4 := by
  refine ⟨quadrantOf_append _ _, ?_⟩
  unfold encodeCR
  simp only [BitVec.append_assoc, BitVec.cast_eq]
  exact funct3Of_append _ _

theorem encodeCSS_major (f3 : BitVec 3) (imm : BitVec 6) (rs2 : RegIdx) (q : BitVec 2) :
    quadrantOf (encodeCSS f3 imm rs2 q) = q ∧ funct3Of (encodeCSS f3 imm rs2 q) = f3 := by
  refine ⟨quadrantOf_append _ _, ?_⟩
  unfold encodeCSS
  simp only [BitVec.append_assoc, BitVec.cast_eq]
  exact funct3Of_append _ _

/-- A parcel that meets a row's mask and match has the row's quadrant, where the mask covers it. -/
theorem quadrantOf_row {mask mtch p : Parcel} (h : matchesRow mask mtch p = true)
    (hm : quadrantOf mask = 3) : quadrantOf p = quadrantOf mtch := by
  have h' : p &&& mask = mtch := by simpa [matchesRow] using h
  have : quadrantOf (p &&& mask) = quadrantOf p &&& quadrantOf mask := BitVec.extractLsb'_and ..
  rw [← h', this, hm]
  exact (BitVec.and_allOnes ..).symm

/-- A parcel that meets a row's mask and match has the row's funct3, where the mask covers it. -/
theorem funct3Of_row {mask mtch p : Parcel} (h : matchesRow mask mtch p = true)
    (hm : funct3Of mask = 7) : funct3Of p = funct3Of mtch := by
  have h' : p &&& mask = mtch := by simpa [matchesRow] using h
  have : funct3Of (p &&& mask) = funct3Of p &&& funct3Of mask := BitVec.extractLsb'_and ..
  rw [← h', this, hm]
  exact (BitVec.and_allOnes ..).symm

/-- The first of two conditions of a row. -/
theorem and_left {a b : Bool} (h : (a && b) = true) : a = true := (Bool.and_eq_true_iff.1 h).1

/-- The law of a row whose parcel has the row's major opcode. -/
theorem of_major {i : Instr} {q : BitVec 2} {f : BitVec 3} (hq : rowQuadrant i = q)
    (hf : rowFunct3 i = some f) (h : quadrantOf (encode i) = q ∧ funct3Of (encode i) = f) :
    Statement i := fun _ =>
  ⟨h.1.trans hq.symm, fun _ hg => h.2.trans (Option.some.inj (hf.symm.trans hg))⟩

/-- The law of a row that carries its parcel. -/
theorem of_row {i : Instr} {mask mtch p : Parcel} (he : encode i = p)
    (hw : i.wellFormed = true → matchesRow mask mtch p = true) (hmq : quadrantOf mask = 3)
    (hmf : funct3Of mask = 7) (hq : rowQuadrant i = quadrantOf mtch)
    (hf : rowFunct3 i = some (funct3Of mtch)) : Statement i := fun h => by
  rw [he]
  exact ⟨(quadrantOf_row (hw h) hmq).trans hq.symm,
    fun _ hg => (funct3Of_row (hw h) hmf).trans (Option.some.inj (hf.symm.trans hg))⟩

/-! ### The instructions, in the table's order -/

theorem cIllegal : Statement .cIllegal :=
  of_major rfl rfl (by decide)

theorem cAddi4spnRes (parcel : Parcel) : Statement (.cAddi4spnRes parcel) :=
  of_row (mask := 0xFFE3) (mtch := 0x0000) rfl and_left
    (by decide) (by decide) rfl rfl

theorem cAddi4spn (rd : CReg) (nzuimm : BitVec 8) : Statement (.cAddi4spn rd nzuimm) :=
  of_major rfl rfl (encodeCIW_major ..)

theorem cFld (parcel : Parcel) : Statement (.cFld parcel) :=
  of_row (mask := 0xE003) (mtch := 0x2000) rfl id
    (by decide) (by decide) rfl rfl

theorem cLw (rd rs1 : CReg) (uimm : BitVec 5) : Statement (.cLw rd rs1 uimm) :=
  of_major rfl rfl (encodeCLS_major ..)

theorem cFlw (parcel : Parcel) : Statement (.cFlw parcel) :=
  of_row (mask := 0xE003) (mtch := 0x6000) rfl id
    (by decide) (by decide) rfl rfl

theorem q0Reserved (parcel : Parcel) : Statement (.q0Reserved parcel) :=
  of_row (mask := 0xE003) (mtch := 0x8000) rfl id
    (by decide) (by decide) rfl rfl

theorem cFsd (parcel : Parcel) : Statement (.cFsd parcel) :=
  of_row (mask := 0xE003) (mtch := 0xA000) rfl id
    (by decide) (by decide) rfl rfl

theorem cSw (rs2 rs1 : CReg) (uimm : BitVec 5) : Statement (.cSw rs2 rs1 uimm) :=
  of_major rfl rfl (encodeCLS_major ..)

theorem cFsw (parcel : Parcel) : Statement (.cFsw parcel) :=
  of_row (mask := 0xE003) (mtch := 0xE000) rfl id
    (by decide) (by decide) rfl rfl

theorem cNop : Statement .cNop :=
  of_major rfl rfl (by decide)

theorem cNopHint (nzimm : BitVec 6) : Statement (.cNopHint nzimm) :=
  of_major rfl rfl (encodeCI_major ..)

theorem cAddi (rd : RegIdx) (nzimm : BitVec 6) : Statement (.cAddi rd nzimm) :=
  of_major rfl rfl (encodeCI_major ..)

theorem cAddiHint (rd : RegIdx) : Statement (.cAddiHint rd) :=
  of_major rfl rfl (encodeCI_major ..)

theorem cAddiRv32e (parcel : Parcel) : Statement (.cAddiRv32e parcel) :=
  of_row (mask := 0xE003) (mtch := 0x0001) rfl and_left
    (by decide) (by decide) rfl rfl

theorem cJal (offset : BitVec 11) : Statement (.cJal offset) :=
  of_major rfl rfl (encodeCJ_major ..)

theorem cLi (rd : RegIdx) (imm : BitVec 6) : Statement (.cLi rd imm) :=
  of_major rfl rfl (encodeCI_major ..)

theorem cLiHint (imm : BitVec 6) : Statement (.cLiHint imm) :=
  of_major rfl rfl (encodeCI_major ..)

theorem cLiRv32e (parcel : Parcel) : Statement (.cLiRv32e parcel) :=
  of_row (mask := 0xE003) (mtch := 0x4001) rfl and_left
    (by decide) (by decide) rfl rfl

theorem cAddi16spRes : Statement .cAddi16spRes :=
  of_major rfl rfl (by decide)

theorem cAddi16sp (nzimm : BitVec 6) : Statement (.cAddi16sp nzimm) :=
  of_major rfl rfl (encodeCI_major ..)

theorem cLuiRes (parcel : Parcel) : Statement (.cLuiRes parcel) :=
  of_row (mask := 0xF07F) (mtch := 0x6001) rfl and_left
    (by decide) (by decide) rfl rfl

theorem cLui (rd : RegIdx) (nzimm : BitVec 6) : Statement (.cLui rd nzimm) :=
  of_major rfl rfl (encodeCI_major ..)

theorem cLuiHint (nzimm : BitVec 6) : Statement (.cLuiHint nzimm) :=
  of_major rfl rfl (encodeCI_major ..)

theorem cLuiRv32e (parcel : Parcel) : Statement (.cLuiRv32e parcel) :=
  of_row (mask := 0xE003) (mtch := 0x6001) rfl (fun h => and_left (and_left h))
    (by decide) (by decide) rfl rfl

theorem cSrli (rd : CReg) (shamt : BitVec 5) : Statement (.cSrli rd shamt) :=
  of_major rfl rfl (encodeCBAlu_major ..)

theorem cSrli64Hint (rd : CReg) : Statement (.cSrli64Hint rd) :=
  of_major rfl rfl (encodeCBAlu_major ..)

theorem cSrliCustom (parcel : Parcel) : Statement (.cSrliCustom parcel) :=
  of_row (mask := 0xFC03) (mtch := 0x9001) rfl id
    (by decide) (by decide) rfl rfl

theorem cSrai (rd : CReg) (shamt : BitVec 5) : Statement (.cSrai rd shamt) :=
  of_major rfl rfl (encodeCBAlu_major ..)

theorem cSrai64Hint (rd : CReg) : Statement (.cSrai64Hint rd) :=
  of_major rfl rfl (encodeCBAlu_major ..)

theorem cSraiCustom (parcel : Parcel) : Statement (.cSraiCustom parcel) :=
  of_row (mask := 0xFC03) (mtch := 0x9401) rfl id
    (by decide) (by decide) rfl rfl

theorem cAndi (rd : CReg) (imm : BitVec 6) : Statement (.cAndi rd imm) :=
  of_major rfl rfl (encodeCBAlu_major ..)

theorem cSub (rd rs2 : CReg) : Statement (.cSub rd rs2) :=
  of_major rfl rfl (encodeCA_major ..)

theorem cXor (rd rs2 : CReg) : Statement (.cXor rd rs2) :=
  of_major rfl rfl (encodeCA_major ..)

theorem cOr (rd rs2 : CReg) : Statement (.cOr rd rs2) :=
  of_major rfl rfl (encodeCA_major ..)

theorem cAnd (rd rs2 : CReg) : Statement (.cAnd rd rs2) :=
  of_major rfl rfl (encodeCA_major ..)

theorem cSubwRes (parcel : Parcel) : Statement (.cSubwRes parcel) :=
  of_row (mask := 0xFC63) (mtch := 0x9C01) rfl id
    (by decide) (by decide) rfl rfl

theorem cAddwRes (parcel : Parcel) : Statement (.cAddwRes parcel) :=
  of_row (mask := 0xFC63) (mtch := 0x9C21) rfl id
    (by decide) (by decide) rfl rfl

theorem q1Reserved10 (parcel : Parcel) : Statement (.q1Reserved10 parcel) :=
  of_row (mask := 0xFC63) (mtch := 0x9C41) rfl id
    (by decide) (by decide) rfl rfl

theorem q1Reserved11 (parcel : Parcel) : Statement (.q1Reserved11 parcel) :=
  of_row (mask := 0xFC63) (mtch := 0x9C61) rfl id
    (by decide) (by decide) rfl rfl

theorem cJ (offset : BitVec 11) : Statement (.cJ offset) :=
  of_major rfl rfl (encodeCJ_major ..)

theorem cBeqz (rs1 : CReg) (offset : BitVec 8) : Statement (.cBeqz rs1 offset) :=
  of_major rfl rfl (encodeCBranch_major ..)

theorem cBnez (rs1 : CReg) (offset : BitVec 8) : Statement (.cBnez rs1 offset) :=
  of_major rfl rfl (encodeCBranch_major ..)

theorem cSlliCustom (parcel : Parcel) : Statement (.cSlliCustom parcel) :=
  of_row (mask := 0xF003) (mtch := 0x1002) rfl id
    (by decide) (by decide) rfl rfl

theorem cSlli (rd : RegIdx) (shamt : BitVec 5) : Statement (.cSlli rd shamt) :=
  of_major rfl rfl (encodeCI_major ..)

theorem cSlliHint (shamt : BitVec 5) : Statement (.cSlliHint shamt) :=
  of_major rfl rfl (encodeCI_major ..)

theorem cSlli64Hint (rd : RegIdx) : Statement (.cSlli64Hint rd) :=
  of_major rfl rfl (encodeCI_major ..)

theorem cSlliRv32e (parcel : Parcel) : Statement (.cSlliRv32e parcel) :=
  of_row (mask := 0xF003) (mtch := 0x0002) rfl and_left
    (by decide) (by decide) rfl rfl

theorem cFldsp (parcel : Parcel) : Statement (.cFldsp parcel) :=
  of_row (mask := 0xE003) (mtch := 0x2002) rfl id
    (by decide) (by decide) rfl rfl

theorem cLwsp (rd : RegIdx) (uimm : BitVec 6) : Statement (.cLwsp rd uimm) :=
  of_major rfl rfl (encodeCI_major ..)

theorem cLwspRes (parcel : Parcel) : Statement (.cLwspRes parcel) :=
  of_row (mask := 0xEF83) (mtch := 0x4002) rfl id
    (by decide) (by decide) rfl rfl

theorem cLwspRv32e (parcel : Parcel) : Statement (.cLwspRv32e parcel) :=
  of_row (mask := 0xE003) (mtch := 0x4002) rfl and_left
    (by decide) (by decide) rfl rfl

theorem cFlwsp (parcel : Parcel) : Statement (.cFlwsp parcel) :=
  of_row (mask := 0xE003) (mtch := 0x6002) rfl id
    (by decide) (by decide) rfl rfl

theorem cJrRes : Statement .cJrRes :=
  of_major rfl rfl (by decide)

theorem cJr (rs1 : RegIdx) : Statement (.cJr rs1) :=
  of_major rfl rfl (encodeCR_major ..)

theorem cJrRv32e (parcel : Parcel) : Statement (.cJrRv32e parcel) :=
  of_row (mask := 0xF07F) (mtch := 0x8002) rfl and_left
    (by decide) (by decide) rfl rfl

theorem cMv (rd rs2 : RegIdx) : Statement (.cMv rd rs2) :=
  of_major rfl rfl (encodeCR_major ..)

theorem cMvHint (rs2 : RegIdx) : Statement (.cMvHint rs2) :=
  of_major rfl rfl (encodeCR_major ..)

theorem cMvRv32eRd (parcel : Parcel) : Statement (.cMvRv32eRd parcel) :=
  of_row (mask := 0xF003) (mtch := 0x8002) rfl (fun h => and_left (and_left h))
    (by decide) (by decide) rfl rfl

theorem cMvRv32eRs2 (parcel : Parcel) : Statement (.cMvRv32eRs2 parcel) :=
  of_row (mask := 0xF003) (mtch := 0x8002) rfl (fun h => and_left (and_left h))
    (by decide) (by decide) rfl rfl

theorem cEbreak : Statement .cEbreak :=
  of_major rfl rfl (by decide)

theorem cJalr (rs1 : RegIdx) : Statement (.cJalr rs1) :=
  of_major rfl rfl (encodeCR_major ..)

theorem cJalrRv32e (parcel : Parcel) : Statement (.cJalrRv32e parcel) :=
  of_row (mask := 0xF07F) (mtch := 0x9002) rfl and_left
    (by decide) (by decide) rfl rfl

theorem cAdd (rd rs2 : RegIdx) : Statement (.cAdd rd rs2) :=
  of_major rfl rfl (encodeCR_major ..)

theorem cAddHint (rs2 : RegIdx) : Statement (.cAddHint rs2) :=
  of_major rfl rfl (encodeCR_major ..)

theorem cAddRv32eRd (parcel : Parcel) : Statement (.cAddRv32eRd parcel) :=
  of_row (mask := 0xF003) (mtch := 0x9002) rfl (fun h => and_left (and_left h))
    (by decide) (by decide) rfl rfl

theorem cAddRv32eRs2 (parcel : Parcel) : Statement (.cAddRv32eRs2 parcel) :=
  of_row (mask := 0xF003) (mtch := 0x9002) rfl (fun h => and_left (and_left h))
    (by decide) (by decide) rfl rfl

theorem cFsdsp (parcel : Parcel) : Statement (.cFsdsp parcel) :=
  of_row (mask := 0xE003) (mtch := 0xA002) rfl id
    (by decide) (by decide) rfl rfl

theorem cSwsp (rs2 : RegIdx) (uimm : BitVec 6) : Statement (.cSwsp rs2 uimm) :=
  of_major rfl rfl (encodeCSS_major ..)

theorem cSwspRv32e (parcel : Parcel) : Statement (.cSwspRv32e parcel) :=
  of_row (mask := 0xE003) (mtch := 0xC002) rfl and_left
    (by decide) (by decide) rfl rfl

theorem cFswsp (parcel : Parcel) : Statement (.cFswsp parcel) :=
  of_row (mask := 0xE003) (mtch := 0xE002) rfl id
    (by decide) (by decide) rfl rfl

theorem wide (parcel : Parcel) : Statement (.wide parcel) := fun h =>
  ⟨(quadrantOf_row (mask := 3) (mtch := 3) h (by decide)).trans rfl, fun _ hg => nomatch hg⟩

end Sys2Proof.Laws.EncodedMajorOpcode
end

