-- ==== Sys2Proof/Laws/Step.lean ====
section
/-!
SUPPORT. The step and the runs: when a step goes on, and how a run is put together from steps.
-/

namespace Sys2Proof.Machine

/-- The fetch goes on exactly where the parcel can be fetched, with the parcel there. -/
theorem fetch_eq_next_iff (s : State) (p : Parcel) :
    fetch s = .next p ↔ Fetchable s ∧ p = parcelAt s.pc s := by
  rw [fetch_eq_next, Fetchable]
  tauto

/-- A step that goes on has fetched, and its instruction has gone on. -/
theorem step_eq_next (s t : State) :
    step s = .next t ↔ Fetchable s ∧ exec (decode (parcelAt s.pc s)) s = .next t := by
  simp only [step, andThen_eq_next, fetch_eq_next_iff]
  constructor
  · rintro ⟨_, ⟨hf, rfl⟩, h⟩
    exact ⟨hf, h⟩
  · rintro ⟨hf, h⟩
    exact ⟨_, ⟨hf, rfl⟩, h⟩

/-- Where the fetch stops, the step stops in the same way. -/
theorem step_of_fetch_fault {s : State} {r : Fault} (h : fetch s = .fault r) : step s = .fault r := by
  rw [step, h, andThen_fault]

theorem step_of_fetch_refused {s : State} {r : Refusal} (h : fetch s = .refused r) :
    step s = .refused r := by
  rw [step, h, andThen_refused]

/-! ### Runs -/

/-- No step leads nowhere else. -/
theorem reaches_zero (s t : State) : Reaches s 0 t ↔ s = t := by
  simp [Reaches, Host.Core.run, Sys2Proof.core]

/-- A run of one more step, taken first. -/
theorem reaches_succ (s t : State) (n : Nat) :
    Reaches s (n + 1) t ↔ ∃ u, step s = .next u ∧ Reaches u n t := by
  unfold Reaches
  simp only [Host.Core.run, Sys2Proof.core]
  cases step s <;> simp

/-- A run of one more step, taken last. -/
theorem reaches_snoc (n : Nat) (s t : State) :
    Reaches s (n + 1) t ↔ ∃ u, Reaches s n u ∧ step u = .next t := by
  induction n generalizing s with
  | zero => simp [reaches_succ, reaches_zero]
  | succ n ih =>
    rw [reaches_succ]
    constructor
    · rintro ⟨u, h, h'⟩
      obtain ⟨v, h1, h2⟩ := (ih u).1 h'
      exact ⟨v, (reaches_succ _ _ _).2 ⟨u, h, h1⟩, h2⟩
    · rintro ⟨v, h1, h2⟩
      obtain ⟨u, h, h'⟩ := (reaches_succ _ _ _).1 h1
      exact ⟨u, h, (ih u).2 ⟨v, h', h2⟩⟩

/-- A run reaches one state at most. -/
theorem reaches_unique {s t u : State} {n : Nat} (ht : Reaches s n t) (hu : Reaches s n u) : t = u := by
  have h : Host.Outcome.next t = (Host.Outcome.next u : Outcome State) := ht.symm.trans hu
  exact Host.Outcome.next.inj h

/-- A run of one more step, taken first, that stops with `o`. -/
theorem run_succ_eq_stop {o : Outcome State} (ho : ∀ t, o ≠ .next t) (n : Nat) (s : State) :
    Sys2Proof.core.run (n + 1) s = o ↔
      step s = o ∨ ∃ u, step s = .next u ∧ Sys2Proof.core.run n u = o := by
  simp only [Host.Core.run, Sys2Proof.core]
  cases step s <;> simp [(ho _).symm]

/-- A run stops with a fault or a refusal exactly where one of its steps does. -/
theorem run_eq_stop {o : Outcome State} (ho : ∀ t, o ≠ .next t) (n : Nat) (s : State) :
    Sys2Proof.core.run n s = o ↔ ∃ k t, k < n ∧ Reaches s k t ∧ step t = o := by
  induction n generalizing s with
  | zero =>
    constructor
    · exact fun h => absurd h.symm (ho s)
    · rintro ⟨_, _, hk, -⟩
      omega
  | succ n ih =>
    rw [run_succ_eq_stop ho]
    constructor
    · rintro (h | ⟨u, hu, h⟩)
      · exact ⟨0, s, by omega, (reaches_zero _ _).2 rfl, h⟩
      · obtain ⟨k, t, hk, ht, hr⟩ := (ih u).1 h
        exact ⟨k + 1, t, by omega, (reaches_succ _ _ _).2 ⟨u, hu, ht⟩, hr⟩
    · rintro ⟨k, t, hk, ht, hr⟩
      cases k with
      | zero => exact .inl ((reaches_zero _ _).1 ht ▸ hr)
      | succ k =>
        obtain ⟨u, hu, ht⟩ := (reaches_succ _ _ _).1 ht
        exact .inr ⟨u, hu, (ih u).2 ⟨k, t, by omega, ht, hr⟩⟩

/-- What holds at the start and is kept by every step holds of every state of a run. -/
theorem reaches_induction {P : State → Prop} (hstep : ∀ s t, P s → step s = .next t → P t)
    {n : Nat} {s t : State} (hs : P s) (h : Reaches s n t) : P t := by
  induction n generalizing s with
  | zero => exact (reaches_zero s t).1 h ▸ hs
  | succ n ih =>
    obtain ⟨u, hu, h'⟩ := (reaches_succ s t n).1 h
    exact ih (hstep s u hs hu) h'

end Sys2Proof.Machine
end

