-- ==== Sys2Proof/Tests/Slice0.lean ====
section
/-!
SUPPORT. The model's own tests: ill-formed terms are refused, words written out from the encodings of
30_encoding.md decode to their instructions, one step of each instruction (the vectors V<n> of
95_test_vectors.md), and for each statement with hypotheses a witness that meets them.
-/

namespace Sys2Proof.Tests

open Sys2Proof.Machine

/-! ## Helpers -/

/-- The `MemMap` of the vectors: code at 0x100 to 0x1FF, data at 0x3000 to 0x3FFF. -/
def testMap : MemMap :=
  [{ first := 0x100, last := 0x1FF, read := true, write := false, execute := true },
    { first := 0x3000, last := 0x3FFF, read := true, write := true, execute := false }]

/-- A launch with some registers set and some bytes of memory listed. -/
def startAt (pc : Word) (m : MemMap) (regs : List (RegIdx × Word)) (image : Memory) : State :=
  regs.foldl (fun s p => writeReg p.1 p.2 s) (State.launch pc m image (Vector.replicate 15 0))

/-- The start state of a vector: the parcel at 0x100, the test map, the given registers and data. -/
def vec (p : Parcel) (regs : List (RegIdx × Word)) (data : Memory) : State :=
  startAt 0x100 testMap regs
    (storeByte 0x100 (p.extractLsb' 0 8) (storeByte 0x101 (p.extractLsb' 8 8) data))

/-- The outcome is a next state that passes the check. -/
def goesOn (o : Host.Outcome State Fault Refusal) (check : State → Bool) : Bool :=
  match o with
  | .next t => check t
  | _ => false

/-- The outcome's fault, if it is one. -/
def faultOf (o : Host.Outcome State Fault Refusal) : Option Fault :=
  match o with
  | .fault r => some r
  | _ => none

/-- The outcome's refusal, if it is one. -/
def refusalOf (o : Host.Outcome State Fault Refusal) : Option Refusal :=
  match o with
  | .refused r => some r
  | _ => none

/-- One step of a vector ends at `pc` with `x[r] = v`. -/
def gives (s : State) (pc : Word) (r : RegIdx) (v : Word) : Bool :=
  goesOn (step s) fun t => t.pc == pc && readReg r t == v

/-- One step of a vector leaves these four bytes at `a`, marked in `Dirty`, and goes on at 0x102. -/
def stores (s : State) (a : Word) (b0 b1 b2 b3 : Byte) : Bool :=
  goesOn (step s) fun t => t.pc == 0x102 && byteAt a t == b0 && byteAt (a + 1) t == b1 &&
    byteAt (a + 2) t == b2 && byteAt (a + 3) t == b3 && t.dirty == [a.toNat, a.toNat + 1, a.toNat + 2, a.toNat + 3]

/-- One step of the parcel from all-zero registers only advances pc. -/
def onlyAdvances (p : Parcel) : Bool :=
  goesOn (step (vec p [] [])) fun t => t == { vec p [] [] with pc := 0x102 }

/-- One step of the parcel traps as an illegal instruction. -/
def trapsIllegal (p : Parcel) : Bool :=
  faultOf (step (vec p [] [])) == some (.trap .illegalInstruction (BitVec.ofNat 32 p.toNat) 0x100)

/-! ## Well-formedness: an ill-formed term for each check -/

/-- Ill-formed terms are refused: zero immediates. -/
theorem test_wellFormed_refuses_zero_immediates :
    ([
      .cAddi4spn 0 0, .cNopHint 0, .cAddi 1 0, .cAddi16sp 0, .cLui 1 0, .cLuiHint 0,
      .cSrli 0 0, .cSrai 0 0, .cSlli 1 0, .cSlliHint 0] : List Instr).all (fun i => !i.wellFormed) = true := by decide

/-- Ill-formed terms are refused: zero registers. -/
theorem test_wellFormed_refuses_zero_registers :
    ([
      .cAddi 0 1, .cAddiHint 0, .cLi 0 1, .cLui 0 1, .cSlli 0 1, .cLwsp 0 0, .cJr 0, .cMv 0 1,
      .cMv 1 0, .cMvHint 0, .cJalr 0, .cAdd 0 1, .cAdd 1 0, .cAddHint 0] : List Instr).all (fun i => !i.wellFormed) = true := by decide

/-- Ill-formed terms are refused: lui to sp. -/
theorem test_wellFormed_refuses_lui_to_sp :
    ([
      .cLui 2 1] : List Instr).all (fun i => !i.wellFormed) = true := by decide

/-- Ill-formed terms are refused: other rows parcels. -/
theorem test_wellFormed_refuses_other_rows_parcels :
    ([
      .cFld 0x2001, .cFlw 0x6001, .q0Reserved 0x8001, .cFsd 0xA001, .cFsw 0xE001,
      .cSrliCustom 0x8001, .cSraiCustom 0x8401, .cSubwRes 0x9C21, .cAddwRes 0x9C01,
      .q1Reserved10 0x9C61, .q1Reserved11 0x9C41, .cSlliCustom 0x0002, .cFldsp 0x2001,
      .cLwspRes 0x4082, .cFlwsp 0x6001, .cFsdsp 0xA001, .cFswsp 0xE001, .wide 0x0002] : List Instr).all (fun i => !i.wellFormed) = true := by decide

/-- Ill-formed terms are refused: other rows parcels with conditions. -/
theorem test_wellFormed_refuses_other_rows_parcels_with_conditions :
    ([
      .cAddi4spnRes 0x0024, .cAddiRv32e 0x4801, .cLiRv32e 0x0801, .cLuiRes 0x7001,
      .cLuiRv32e 0x4805, .cSlliRv32e 0x1802, .cLwspRv32e 0x0802, .cJrRv32e 0x8806,
      .cMvRv32eRd 0x9806, .cMvRv32eRs2 0x9042, .cJalrRv32e 0x9806, .cAddRv32eRd 0x8806,
      .cAddRv32eRs2 0x8042, .cSwspRv32e 0xC040] : List Instr).all (fun i => !i.wellFormed) = true := by decide

/-- Ill-formed terms are refused: failed field conditions. -/
theorem test_wellFormed_refuses_failed_field_conditions :
    ([
      .cAddi4spnRes 0x0000, .cAddiRv32e 0x0781, .cLiRv32e 0x4781, .cLuiRes 0x6101,
      .cLuiRv32e 0x6785, .cLuiRv32e 0x6801, .cSlliRv32e 0x0782, .cLwspRv32e 0x4782,
      .cJrRv32e 0x8782, .cMvRv32eRd 0x8786, .cMvRv32eRd 0x8802, .cMvRv32eRs2 0x8842,
      .cMvRv32eRs2 0x803E, .cJalrRv32e 0x9782, .cAddRv32eRd 0x9786, .cAddRv32eRd 0x9802,
      .cAddRv32eRs2 0x9842, .cAddRv32eRs2 0x903E, .cSwspRv32e 0xC03E] : List Instr).all (fun i => !i.wellFormed) = true := by decide

/-! ## Decoding: one word for each row, bit 15 first, from 30_encoding.md R100 to R102 -/

theorem test_decode_quadrant0 :
    decode 0b0000000000000000 = .cIllegal ∧
    decode 0b0000000000010100 = .cAddi4spnRes 0x0014 ∧
    decode 0b0000000010101000 = .cAddi4spn 2 0b00010010 ∧
    decode 0b0011010110111000 = .cFld 0x35B8 ∧
    decode 0b0101010111011000 = .cLw 6 3 0b01011 ∧
    decode 0b0111010110111000 = .cFlw 0x75B8 ∧
    decode 0b1001010110111000 = .q0Reserved 0x95B8 ∧
    decode 0b1011010110111000 = .cFsd 0xB5B8 ∧
    decode 0b1100011000100100 = .cSw 1 4 0b10010 ∧
    decode 0b1111010110111000 = .cFsw 0xF5B8 := by
  decide

theorem test_decode_quadrant1_immediates :
    decode 0b0000000000000001 = .cNop ∧
    decode 0b0001000000000101 = .cNopHint 0b100001 ∧
    decode 0b0001010101111101 = .cAddi 10 0b111111 ∧
    decode 0b0000010100000001 = .cAddiHint 10 ∧
    decode 0b0001100000000101 = .cAddiRv32e 0x1805 ∧
    decode 0b0101010000000001 = .cLi 8 0b100000 ∧
    decode 0b0100000000010101 = .cLiHint 0b000101 ∧
    decode 0b0100111110000101 = .cLiRv32e 0x4F85 ∧
    decode 0b0110000100000001 = .cAddi16spRes ∧
    decode 0b0111000100110101 = .cAddi16sp 0b110110 ∧
    decode 0b0110010100000001 = .cLuiRes 0x6501 ∧
    decode 0b0111010100000101 = .cLui 10 0b100001 ∧
    decode 0b0110000000000101 = .cLuiHint 0b000001 ∧
    decode 0b0110100000000101 = .cLuiRv32e 0x6805 := by
  decide

theorem test_decode_quadrant1_alu :
    decode 0b1000001111111001 = .cSrli 7 0b11110 ∧
    decode 0b1000000100000001 = .cSrli64Hint 2 ∧
    decode 0b1001000100000101 = .cSrliCustom 0x9105 ∧
    decode 0b1000010010010001 = .cSrai 1 0b00100 ∧
    decode 0b1000010010000001 = .cSrai64Hint 1 ∧
    decode 0b1001010011111101 = .cSraiCustom 0x94FD ∧
    decode 0b1001100100001101 = .cAndi 2 0b100011 ∧
    decode 0b1000110100001101 = .cSub 2 3 ∧
    decode 0b1000110100101101 = .cXor 2 3 ∧
    decode 0b1000110101001101 = .cOr 2 3 ∧
    decode 0b1000110101101101 = .cAnd 2 3 ∧
    decode 0b1001110100001101 = .cSubwRes 0x9D0D ∧
    decode 0b1001110100101101 = .cAddwRes 0x9D2D ∧
    decode 0b1001110101001101 = .q1Reserved10 0x9D4D ∧
    decode 0b1001110101101101 = .q1Reserved11 0x9D6D := by
  decide

theorem test_decode_quadrant1_transfers :
    decode 0b0011001101010001 = .cJal 0b11011000010 ∧
    decode 0b1010110010101101 = .cJ 0b00100111101 ∧
    decode 0b1101010111001101 = .cBeqz 3 0b11010101 ∧
    decode 0b1110101000110001 = .cBnez 4 0b00101010 := by
  decide

theorem test_decode_quadrant2_loads_and_stores :
    decode 0b0001000000000110 = .cSlliCustom 0x1006 ∧
    decode 0b0000000011111110 = .cSlli 1 0b11111 ∧
    decode 0b0000000000001110 = .cSlliHint 0b00011 ∧
    decode 0b0000010100000010 = .cSlli64Hint 10 ∧
    decode 0b0000100010000110 = .cSlliRv32e 0x0886 ∧
    decode 0b0010001010101010 = .cFldsp 0x22AA ∧
    decode 0b0101010100100110 = .cLwsp 10 0b011010 ∧
    decode 0b0100000000010010 = .cLwspRes 0x4012 ∧
    decode 0b0100101000100010 = .cLwspRv32e 0x4A22 ∧
    decode 0b0110001010101010 = .cFlwsp 0x62AA ∧
    decode 0b1010010100101010 = .cFsdsp 0xA52A ∧
    decode 0b1100110010000010 = .cSwsp 0 0b010110 ∧
    decode 0b1100000001000010 = .cSwspRv32e 0xC042 ∧
    decode 0b1110010100101010 = .cFswsp 0xE52A := by
  decide

theorem test_decode_quadrant2_registers :
    decode 0b1000000000000010 = .cJrRes ∧
    decode 0b1000000010000010 = .cJr 1 ∧
    decode 0b1000100000000010 = .cJrRv32e 0x8802 ∧
    decode 0b1000010100101110 = .cMv 10 11 ∧
    decode 0b1000000000101110 = .cMvHint 11 ∧
    decode 0b1000100000101110 = .cMvRv32eRd 0x882E ∧
    decode 0b1000000001000010 = .cMvRv32eRs2 0x8042 ∧
    decode 0b1001000000000010 = .cEbreak ∧
    decode 0b1001001010000010 = .cJalr 5 ∧
    decode 0b1001111110000010 = .cJalrRv32e 0x9F82 ∧
    decode 0b1001010100101110 = .cAdd 10 11 ∧
    decode 0b1001000000101110 = .cAddHint 11 ∧
    decode 0b1001111110000110 = .cAddRv32eRd 0x9F86 ∧
    decode 0b1001010101111110 = .cAddRv32eRs2 0x957E := by
  decide

theorem test_decode_quadrant3 :
    decode 0b0000000000010011 = .wide 0x0013 := by
  decide

/-- Too few bytes are no instruction, and the bytes after a parcel are left. -/
theorem test_decodeBytes_ends :
    (match decodeBytes [] with | .error .tooFewBytes => true | _ => false) = true ∧
    (match decodeBytes [0x01] with | .error .tooFewBytes => true | _ => false) = true ∧
    (match decodeBytes [0x7D, 0x15, 0xAA] with
      | .ok (i, rest) => i == .cAddi 10 0b111111 && rest == [0xAA]
      | _ => false) = true := by
  decide

/-- The byte order of a parcel (20 R41): the low byte first. -/
theorem test_decodeTableWord : decodeTableWord 16 0x157D = some (.cAddi 10 0b111111) ∧
    decodeTableWord 16 0x9002 = some .cEbreak := by decide

/-! ## One step of each instruction (95_test_vectors.md) -/

/-- V3 of 95_test_vectors.md. -/
theorem test_addi4spn_wraps : gives (vec 0x1FE0 [(2, 0xFFFFFFF0)] []) 0x102 8 0x3EC = true := by decide

/-- V8 of 95_test_vectors.md. -/
theorem test_lw_largest_offset : gives (vec 0x5CE0 [(9, 0x3000)] [(0x307C, 0x04), (0x307D, 0x03), (0x307E, 0x02), (0x307F, 0x01)]) 0x102 8 0x01020304 = true := by decide

/-- V9 of 95_test_vectors.md. -/
theorem test_lw_replaces_its_base : gives (vec 0x4108 [(10, 0x3010)] [(0x3010, 0xFE), (0x3011, 0xCA)]) 0x102 10 0x0000CAFE = true := by decide

/-- V11 of 95_test_vectors.md. -/
theorem test_lw_misaligned_before_permission : faultOf (step (vec 0x4588 [(11, 0x5001)] [])) = some (.trap .loadAddressMisaligned 0x5009 0x100) := by
  decide

/-- V13 of 95_test_vectors.md. -/
theorem test_lw_address_wraps_to_no_permission : faultOf (step (vec 0x4588 [(11, 0xFFFFFFFC)] [])) = some (.trap .loadAccessFault 4 0x100) := by
  decide

/-- V16 of 95_test_vectors.md. -/
theorem test_sw_bytes : stores (vec 0xC588 [(10, 0x11223344), (11, 0x3000)] []) 0x3008 0x44 0x33 0x22 0x11 = true := by decide

/-- V18 of 95_test_vectors.md. -/
theorem test_sw_stores_its_base : stores (vec 0xC084 [(9, 0x3020)] []) 0x3020 0x20 0x30 0x00 0x00 = true := by decide

/-- V20 of 95_test_vectors.md. -/
theorem test_sw_no_write_permission : faultOf (step (vec 0xC588 [(10, 1), (11, 0x100)] [])) = some (.trap .storeAccessFault 0x108 0x100) := by
  decide

/-- V22 of 95_test_vectors.md. -/
theorem test_sw_misaligned : faultOf (step (vec 0xC588 [(10, 1), (11, 0x3FF6)] [])) = some (.trap .storeAddressMisaligned 0x3FFE 0x100) := by
  decide

/-- V29 of 95_test_vectors.md. -/
theorem test_nop : onlyAdvances 0x0001 = true := by decide

/-- V32 of 95_test_vectors.md. -/
theorem test_addi_no_overflow_trap : gives (vec 0x057D [(10, 0x7FFFFFFF)] []) 0x102 10 0x8000001E = true := by decide

/-- V33 of 95_test_vectors.md. -/
theorem test_addi_negative : gives (vec 0x1101 [(2, 0x3000)] []) 0x102 2 0x2FE0 = true := by decide

/-- V37 of 95_test_vectors.md. -/
theorem test_jal_backwards_wraps : gives (vec 0x3001 [(1, 0xAAAA)] []) 0xFFFFF900 1 0x102 = true := by decide

/-- V41 of 95_test_vectors.md. -/
theorem test_li_negative : gives (vec 0x5401 [(8, 0)] []) 0x102 8 0xFFFFFFE0 = true := by decide

/-- V46 of 95_test_vectors.md. -/
theorem test_addi16sp_smallest : gives (vec 0x7101 [(2, 0x100)] []) 0x102 2 0xFFFFFF00 = true := by decide

/-- V45 of 95_test_vectors.md. -/
theorem test_addi16sp_largest : gives (vec 0x617D [(2, 0x3000)] []) 0x102 2 0x31F0 = true := by decide

/-- V48 of 95_test_vectors.md. -/
theorem test_lui_positive : gives (vec 0x657D [(10, 0xFFFFFFFF)] []) 0x102 10 0x1F000 = true := by decide

/-- V49 of 95_test_vectors.md. -/
theorem test_lui_negative : gives (vec 0x7501 [(10, 0)] []) 0x102 10 0xFFFE0000 = true := by decide

/-- V57 of 95_test_vectors.md. -/
theorem test_srli_31 : gives (vec 0x83FD [(15, 0x80000000)] []) 0x102 15 1 = true := by decide

/-- V61 of 95_test_vectors.md. -/
theorem test_srai_negative : gives (vec 0x84FD [(9, 0x80000000)] []) 0x102 9 0xFFFFFFFF = true := by decide

/-- V62 of 95_test_vectors.md. -/
theorem test_srai_positive : gives (vec 0x8491 [(9, 0x7FFFFFFF)] []) 0x102 9 0x07FFFFFF = true := by decide

/-- V67 of 95_test_vectors.md. -/
theorem test_andi_sign_extends : gives (vec 0x9801 [(8, 0x123456FF)] []) 0x102 8 0x123456E0 = true := by decide

/-- V69 of 95_test_vectors.md. -/
theorem test_sub_wraps : gives (vec 0x8D0D [(10, 0), (11, 1)] []) 0x102 10 0xFFFFFFFF = true := by decide

/-- V72 of 95_test_vectors.md. -/
theorem test_xor : gives (vec 0x8D2D [(10, 0xFF00FF00), (11, 0x0FF00FF0)] []) 0x102 10 0xF0F0F0F0 = true := by decide

/-- V73 of 95_test_vectors.md. -/
theorem test_or : gives (vec 0x8D4D [(10, 0xFF00FF00), (11, 0x0FF00FF0)] []) 0x102 10 0xFFF0FFF0 = true := by decide

/-- V74 of 95_test_vectors.md. -/
theorem test_and : gives (vec 0x8D6D [(10, 0xFF00FF00), (11, 0x0FF00FF0)] []) 0x102 10 0x0F000F00 = true := by decide

/-- V81 of 95_test_vectors.md. -/
theorem test_j_forwards : gives (vec 0xAFFD [(1, 7)] []) 0x8FE 1 7 = true := by decide

/-- V79 of 95_test_vectors.md. -/
theorem test_j_backwards : gives (vec 0xBFFD [] []) 0xFE 1 0 = true := by decide

/-- V85 of 95_test_vectors.md. -/
theorem test_beqz_taken_backwards : gives (vec 0xD381 [(15, 0)] []) 0 15 0 = true := by decide

/-- V84 of 95_test_vectors.md. -/
theorem test_beqz_not_taken : gives (vec 0xC401 [(8, 1)] []) 0x102 8 1 = true := by decide

/-- V87 of 95_test_vectors.md. -/
theorem test_bnez_taken : gives (vec 0xFCED [(9, 0x80000000)] []) 0xFA 9 0x80000000 = true := by decide

/-- V88 of 95_test_vectors.md. -/
theorem test_bnez_not_taken : gives (vec 0xFCED [(9, 0)] []) 0x102 9 0 = true := by decide

/-- V89 of 95_test_vectors.md. -/
theorem test_slli_drops_high_bits : gives (vec 0x0506 [(10, 0x80000001)] []) 0x102 10 2 = true := by decide

/-- V90 of 95_test_vectors.md. -/
theorem test_slli_31 : gives (vec 0x00FE [(1, 1)] []) 0x102 1 0x80000000 = true := by decide

/-- V99 of 95_test_vectors.md. -/
theorem test_lwsp_largest_offset : gives (vec 0x50FE [(1, 0), (2, 0x3000)] [(0x30FC, 0x04), (0x30FD, 0x01)]) 0x102 1 0x104 = true := by decide

/-- V100 of 95_test_vectors.md. -/
theorem test_lwsp_replaces_sp : gives (vec 0x4112 [(2, 0x3000)] [(0x3005, 0x38)]) 0x102 2 0x3800 = true := by decide

/-- V101 of 95_test_vectors.md. -/
theorem test_lwsp_misaligned : faultOf (step (vec 0x4522 [(2, 0x3002)] [])) = some (.trap .loadAddressMisaligned 0x300A 0x100) := by
  decide

/-- V106 of 95_test_vectors.md. -/
theorem test_jr_clears_bit_zero : gives (vec 0x8082 [(1, 0x1F1)] []) 0x1F0 1 0x1F1 = true := by decide

/-- V110 of 95_test_vectors.md. -/
theorem test_mv : gives (vec 0x852E [(10, 1), (11, 0xCAFEBABE)] []) 0x102 10 0xCAFEBABE = true := by decide

/-- V115 of 95_test_vectors.md. -/
theorem test_ebreak : faultOf (step (vec 0x9002 [] [])) = some (.trap .breakpoint 0x100 0x100) := by
  decide

/-- V117 of 95_test_vectors.md. -/
theorem test_jalr_reads_before_it_links : gives (vec 0x9082 [(1, 0x181)] []) 0x180 1 0x102 = true := by decide

/-- V119 of 95_test_vectors.md. -/
theorem test_add_wraps : gives (vec 0x952E [(10, 0xFFFFFFFF), (11, 2)] []) 0x102 10 1 = true := by decide

/-- V120 of 95_test_vectors.md. -/
theorem test_add_to_itself : gives (vec 0x952A [(10, 0x40000000)] []) 0x102 10 0x80000000 = true := by decide

/-- V123 of 95_test_vectors.md. -/
theorem test_swsp_bytes : stores (vec 0xC02A [(2, 0x3000), (10, 0x11223344)] []) 0x3000 0x44 0x33 0x22 0x11 = true := by decide

/-- V125 of 95_test_vectors.md. -/
theorem test_swsp_stores_zero : stores (vec 0xDF82 [(2, 0x3000)] [(0x30FC, 0xFF), (0x30FD, 0xFF), (0x30FE, 0xFF), (0x30FF, 0xFF)]) 0x30FC 0 0 0 0 = true := by decide

/-- V127 of 95_test_vectors.md. -/
theorem test_swsp_misaligned : faultOf (step (vec 0xC22A [(2, 0x3001)] [])) = some (.trap .storeAddressMisaligned 0x3005 0x100) := by
  decide

/-- V30, V34, V42, V54, V58, V63, V92 to V94, V112, V121 of 95_test_vectors.md: the HINT rows. -/
theorem test_hints :
    ([0x0015, 0x0501, 0x4015, 0x6005, 0x8001, 0x8481, 0x0002, 0x000E, 0x0502, 0x802E, 0x902E] :
      List Parcel).all onlyAdvances = true := by decide

/-- V1, V5, V6, V27, V47, V52, V53, V75 to V78, V103, V108 of 95_test_vectors.md: illegal and reserved. -/
theorem test_reserved :
    ([0x0000, 0x0004, 0x001C, 0x8000, 0x6101, 0x6501, 0x6001, 0x9D0D, 0x9D2D, 0x9D4D, 0x9D6D, 0x4012,
      0x8002] : List Parcel).all trapsIllegal = true := by decide

/-- V59, V64, V95, V96 and V23 to V26, V130 to V133: custom and absent-extension parcels. -/
theorem test_custom_and_absent_extensions :
    ([0x9001, 0x94FD, 0x1502, 0x1006, 0x2000, 0x6000, 0xA000, 0xE000, 0x2002, 0x6002, 0xA002, 0xE002] :
      List Parcel).all trapsIllegal = true := by decide

/-- V35, V43, V55, V97, V104, V109, V113, V114, V118, V122, V129: parcels that name x16 to x31. -/
theorem test_absent_registers :
    ([0x0805, 0x4F85, 0x6805, 0x0886, 0x4A22, 0x8802, 0x8542, 0x8042, 0x9F82, 0x957E, 0xC242, 0x882E,
      0x9F86] : List Parcel).all trapsIllegal = true := by decide

/-- V134, V136: a parcel of quadrant 3 is refused. -/
theorem test_wide : refusalOf (step (vec 0xFFFF [] [])) = some (.wideInstruction 0x100) ∧
    refusalOf (step (vec 0x0013 [] [])) = some (.wideInstruction 0x100) := by decide

/-- V137, V140: no execute permission. -/
theorem test_fetch_without_permission :
    faultOf (step (startAt 0x200 testMap [] [])) = some (.trap .instructionAccessFault 0x200 0x200) ∧
    faultOf (step (startAt 0x3000 testMap [] [])) =
      some (.trap .instructionAccessFault 0x3000 0x3000) := by decide

/-- V141: pc wraps to 0. -/
theorem test_pc_wraps :
    goesOn (step (startAt 0xFFFFFFFE resetMemMap [] [(0xFFFFFFFE, 0x01)])) (fun t => t.pc == 0) = true := by
  decide

/-- 20 R55: a fetch of a stored-to byte is refused, also where only the high byte was stored to. -/
theorem test_fetch_of_modified_code :
    refusalOf (step { vec 0x0001 [] [] with dirty := [0x101] }) = some (.fetchOfModifiedCode 0x100) := by
  decide

/-- `withFetchWord` places the instruction where the next step from reset fetches it. -/
theorem test_withFetchWord :
    gives (State.reset.withFetchWord 16 0x157D) 2 10 0xFFFFFFFF = true ∧
    faultOf (step (State.reset.withFetchWord 16 0x9002)) = some (.trap .breakpoint 0 0) := by decide

/-- The memory of `State.reset` is canonical, and a write of the byte that an unlisted address reads as
removes the entry. -/
theorem test_memory_form : Memory.wf State.reset.mem ∧ storeByte 5 0 (storeByte 5 7 []) = [] ∧
    storeByte 3 1 [(5, 7)] = [(3, 1), (5, 7)] := by decide

/-! ## Witnesses: for each clause of each statement with hypotheses, a state and operands that meet them

The parcels stand at the ends of the clauses' ranges. A clause over every state needs no state. -/

/-- DecodeOfEncodeIsTheInstruction. -/
theorem witness_wellFormed :
    (Instr.cAddi 15 0b100000).wellFormed = true ∧ (Instr.cLuiRv32e 0x7FFD).wellFormed = true := by decide

/-- Addi4spnAddsToStackPointer: the instruction, RES, and the illegal parcel. -/
theorem witness_addi4spn :
    (slice 0x0020 1 0 = 0 ∧ slice 0x0020 15 13 = 0 ∧ slice 0x0020 12 5 ≠ 0) ∧
    (slice 0x1FFC 1 0 = 0 ∧ slice 0x1FFC 15 13 = 0 ∧ slice 0x1FFC 12 5 ≠ 0) ∧
    (slice 0x0004 1 0 = 0 ∧ slice 0x0004 15 13 = 0 ∧ slice 0x0004 12 5 = 0 ∧ slice 0x0004 4 2 ≠ 0) ∧
    (slice 0x0000 1 0 = 0 ∧ slice 0x0000 15 13 = 0 ∧ slice 0x0000 12 2 = 0) := by decide

/-- LwLoadsWord and SwStoresWord: the parcel. -/
theorem witness_lw_sw :
    (slice 0x4000 1 0 = 0 ∧ slice 0x4000 15 13 = 2) ∧ (slice 0x5FFC 1 0 = 0 ∧ slice 0x5FFC 15 13 = 2) ∧
    (slice 0xC000 1 0 = 0 ∧ slice 0xC000 15 13 = 6) ∧
    (slice 0xDFFC 1 0 = 0 ∧ slice 0xDFFC 15 13 = 6) := by decide

/-- A state whose data window is 0x3000 to 0x3FFF, for the clauses of loads and stores. -/
def data : State := vec 0x0001 [(2, 0x3FFC), (8, 0x3FFC), (9, 7)] [(0x3FFC, 0x2A)]

/-- LoadOutcome and StoreOutcome (LwLoadsWord, LwspLoadsWord, SwStoresWord, SwspStoresWord,
MemReadFollowsRule, MemWriteFollowsRule, InstructionsComplete): the last word of the window, the first
word after it, and misaligned addresses on both sides. -/
theorem witness_load_store_clauses :
    ((0x3FFC : Word).toNat % 4 = 0 ∧ WordPermitted .read 0x3FFC data ∧ WordPermitted .write 0x3FFC data) ∧
    ((0x4000 : Word).toNat % 4 = 0 ∧ ¬ WordPermitted .read 0x4000 data ∧
      ¬ WordPermitted .write 0x4000 data) ∧
    ((0x3FFD : Word).toNat % 4 ≠ 0 ∧ (0x3FFF : Word).toNat % 4 ≠ 0) := by
  simp only [wordPermitted_iff]
  decide

/-- LwLoadsWord, SwStoresWord, LwspLoadsWord, SwspStoresWord: the address of each clause is reached. -/
theorem witness_load_store_addresses :
    readReg (xPrime (slice 0x4004 9 7)) data + BitVec.ofNat 32 (lwOffsetOf 0x4004) = 0x3FFC ∧
    readReg (xPrime (slice 0xC044 9 7)) data + BitVec.ofNat 32 (lwOffsetOf 0xC044) = 0x4000 ∧
    readReg (xPrime (slice 0x4084 9 7)) data + BitVec.ofNat 32 (lwOffsetOf 0x4084) = 7 ∧
    readReg 2 data + BitVec.ofNat 32 (lwspOffsetOf 0x4502) = 0x3FFC ∧
    readReg 2 data + BitVec.ofNat 32 (swspOffsetOf 0xC22A) = 0x4000 := by decide

/-- MemReadFollowsRule, last clause: a load that goes on. -/
theorem witness_loadInto :
    loadInto 5 0x3FFC data = .next (advance (writeReg 5 (wordAt 0x3FFC data) data)) :=
  (loadInto_eq_next _ _ _ _).2 ⟨by decide, by decide, rfl⟩

/-- ReservedSlotAndFloatingRowsTrap: one parcel for each of the nine clauses. -/
theorem witness_reserved_slot_and_floating :
    (slice 0x9FFC 1 0 = 0 ∧ slice 0x9FFC 15 13 = 4) ∧ (slice 0x2000 1 0 = 0 ∧ slice 0x2000 15 13 = 1) ∧
    (slice 0x7FFC 1 0 = 0 ∧ slice 0x7FFC 15 13 = 3) ∧ (slice 0xA000 1 0 = 0 ∧ slice 0xA000 15 13 = 5) ∧
    (slice 0xFFFC 1 0 = 0 ∧ slice 0xFFFC 15 13 = 7) ∧ (slice 0x2002 1 0 = 2 ∧ slice 0x2002 15 13 = 1) ∧
    (slice 0x7FFE 1 0 = 2 ∧ slice 0x7FFE 15 13 = 3) ∧ (slice 0xA002 1 0 = 2 ∧ slice 0xA002 15 13 = 5) ∧
    (slice 0xFFFE 1 0 = 2 ∧ slice 0xFFFE 15 13 = 7) := by decide

/-- NopOnlyAdvancesPc: both clauses, the second at both ends. -/
theorem witness_nop :
    (slice 0x0001 1 0 = 1 ∧ slice 0x0001 15 13 = 0 ∧ slice 0x0001 11 7 = 0 ∧ slice 0x0001 12 12 = 0 ∧
      slice 0x0001 6 2 = 0) ∧
    (slice 0x0005 1 0 = 1 ∧ slice 0x0005 15 13 = 0 ∧ slice 0x0005 11 7 = 0 ∧ slice 0x0005 6 2 ≠ 0) ∧
    (slice 0x1001 1 0 = 1 ∧ slice 0x1001 15 13 = 0 ∧ slice 0x1001 11 7 = 0 ∧ slice 0x1001 12 12 ≠ 0) := by
  decide

/-- AddiAddsImmediate: rd = 1, rd = 15, the HINT form, rd = 16 and rd = 31. -/
theorem witness_addi :
    (slice 0x0085 1 0 = 1 ∧ slice 0x0085 15 13 = 0 ∧ slice 0x0085 11 7 = 1 ∧ imm6Of 0x0085 = 1) ∧
    (slice 0x1781 1 0 = 1 ∧ slice 0x1781 15 13 = 0 ∧ slice 0x1781 11 7 = 15 ∧ imm6Of 0x1781 = -32) ∧
    (slice 0x0781 1 0 = 1 ∧ slice 0x0781 15 13 = 0 ∧ slice 0x0781 11 7 = 15 ∧ imm6Of 0x0781 = 0) ∧
    (slice 0x0801 1 0 = 1 ∧ slice 0x0801 15 13 = 0 ∧ slice 0x0801 11 7 = 16) ∧
    (slice 0x1FFD 1 0 = 1 ∧ slice 0x1FFD 15 13 = 0 ∧ slice 0x1FFD 11 7 = 31) := by decide

/-- JalJumpsAndLinks and JJumps: the ends of the offset. -/
theorem witness_jal_j :
    (slice 0x3001 1 0 = 1 ∧ slice 0x3001 15 13 = 1 ∧ jumpOf 0x3001 = -2048) ∧
    (slice 0x2FFD 1 0 = 1 ∧ slice 0x2FFD 15 13 = 1 ∧ jumpOf 0x2FFD = 2046) ∧
    (slice 0xB001 1 0 = 1 ∧ slice 0xB001 15 13 = 5 ∧ jumpOf 0xB001 = -2048) ∧
    (slice 0xAFFD 1 0 = 1 ∧ slice 0xAFFD 15 13 = 5 ∧ jumpOf 0xAFFD = 2046) := by decide

/-- LiLoadsImmediate: rd = 1, 15, 0, 16. -/
theorem witness_li :
    (slice 0x4081 1 0 = 1 ∧ slice 0x4081 15 13 = 2 ∧ slice 0x4081 11 7 = 1) ∧
    (slice 0x47FD 1 0 = 1 ∧ slice 0x47FD 15 13 = 2 ∧ slice 0x47FD 11 7 = 15) ∧
    (slice 0x4001 1 0 = 1 ∧ slice 0x4001 15 13 = 2 ∧ slice 0x4001 11 7 = 0) ∧
    (slice 0x4801 1 0 = 1 ∧ slice 0x4801 15 13 = 2 ∧ slice 0x4801 11 7 = 16) := by decide

/-- Addi16spAddsToStackPointer: the ends of the immediate, and the RES parcel. -/
theorem witness_addi16sp :
    (slice 0x617D 1 0 = 1 ∧ slice 0x617D 15 13 = 3 ∧ slice 0x617D 11 7 = 2 ∧ slice 0x617D 6 2 ≠ 0) ∧
    (slice 0x7101 1 0 = 1 ∧ slice 0x7101 15 13 = 3 ∧ slice 0x7101 11 7 = 2 ∧ slice 0x7101 12 12 ≠ 0) ∧
    (slice 0x6101 1 0 = 1 ∧ slice 0x6101 15 13 = 3 ∧ slice 0x6101 11 7 = 2 ∧ slice 0x6101 12 12 = 0 ∧
      slice 0x6101 6 2 = 0) := by decide

/-- LuiLoadsUpperImmediate: rd = 1, 3, 15; RES with rd = 0 and rd = 31; HINT; rd = 16. -/
theorem witness_lui :
    (slice 0x6085 1 0 = 1 ∧ slice 0x6085 15 13 = 3 ∧ slice 0x6085 11 7 = 1 ∧ luiOf 0x6085 = 4096) ∧
    (slice 0x7181 1 0 = 1 ∧ slice 0x7181 15 13 = 3 ∧ slice 0x7181 11 7 = 3 ∧ luiOf 0x7181 = -131072) ∧
    (slice 0x67FD 1 0 = 1 ∧ slice 0x67FD 15 13 = 3 ∧ slice 0x67FD 11 7 = 15 ∧ luiOf 0x67FD = 126976) ∧
    (slice 0x6001 1 0 = 1 ∧ slice 0x6001 15 13 = 3 ∧ slice 0x6001 11 7 ≠ 2 ∧ luiOf 0x6001 = 0) ∧
    (slice 0x6F81 1 0 = 1 ∧ slice 0x6F81 15 13 = 3 ∧ slice 0x6F81 11 7 ≠ 2 ∧ luiOf 0x6F81 = 0) ∧
    (slice 0x6005 1 0 = 1 ∧ slice 0x6005 15 13 = 3 ∧ slice 0x6005 11 7 = 0 ∧ luiOf 0x6005 ≠ 0) ∧
    (slice 0x6805 1 0 = 1 ∧ slice 0x6805 15 13 = 3 ∧ slice 0x6805 11 7 = 16 ∧ luiOf 0x6805 ≠ 0) := by
  decide

/-- SrliShiftsRightLogically and SraiShiftsRightArithmetically: shamt 1 and 31, the HINT and the Custom
forms. -/
theorem witness_shifts_right :
    (slice 0x8005 1 0 = 1 ∧ slice 0x8005 15 13 = 4 ∧ slice 0x8005 11 10 = 0 ∧ slice 0x8005 12 12 = 0 ∧
      slice 0x8005 6 2 = 1) ∧
    (slice 0x83FD 1 0 = 1 ∧ slice 0x83FD 15 13 = 4 ∧ slice 0x83FD 11 10 = 0 ∧ slice 0x83FD 12 12 = 0 ∧
      slice 0x83FD 6 2 = 31) ∧
    (slice 0x8001 1 0 = 1 ∧ slice 0x8001 15 13 = 4 ∧ slice 0x8001 11 10 = 0 ∧ slice 0x8001 12 12 = 0 ∧
      slice 0x8001 6 2 = 0) ∧
    (slice 0x9001 1 0 = 1 ∧ slice 0x9001 15 13 = 4 ∧ slice 0x9001 11 10 = 0 ∧ slice 0x9001 12 12 = 1) ∧
    (slice 0x8405 1 0 = 1 ∧ slice 0x8405 15 13 = 4 ∧ slice 0x8405 11 10 = 1 ∧ slice 0x8405 12 12 = 0 ∧
      slice 0x8405 6 2 = 1) ∧
    (slice 0x87FD 1 0 = 1 ∧ slice 0x87FD 15 13 = 4 ∧ slice 0x87FD 11 10 = 1 ∧ slice 0x87FD 12 12 = 0 ∧
      slice 0x87FD 6 2 = 31) ∧
    (slice 0x8401 1 0 = 1 ∧ slice 0x8401 15 13 = 4 ∧ slice 0x8401 11 10 = 1 ∧ slice 0x8401 12 12 = 0 ∧
      slice 0x8401 6 2 = 0) ∧
    (slice 0x97FD 1 0 = 1 ∧ slice 0x97FD 15 13 = 4 ∧ slice 0x97FD 11 10 = 1 ∧ slice 0x97FD 12 12 = 1) := by
  decide

/-- AndiMasksWithImmediate, RegisterArithmeticComputes (four clauses) and BranchesTestAgainstZero (two
clauses, the ends of the offset). -/
theorem witness_andi_alu_branches :
    (slice 0x987D 1 0 = 1 ∧ slice 0x987D 15 13 = 4 ∧ slice 0x987D 11 10 = 2) ∧
    (slice 0x8C01 1 0 = 1 ∧ slice 0x8C01 15 13 = 4 ∧ slice 0x8C01 12 12 = 0 ∧ slice 0x8C01 11 10 = 3 ∧
      slice 0x8C01 6 5 = 0) ∧
    (slice 0x8FBD 1 0 = 1 ∧ slice 0x8FBD 15 13 = 4 ∧ slice 0x8FBD 12 12 = 0 ∧ slice 0x8FBD 11 10 = 3 ∧
      slice 0x8FBD 6 5 = 1) ∧
    (slice 0x8C41 1 0 = 1 ∧ slice 0x8C41 15 13 = 4 ∧ slice 0x8C41 12 12 = 0 ∧ slice 0x8C41 11 10 = 3 ∧
      slice 0x8C41 6 5 = 2) ∧
    (slice 0x8FFD 1 0 = 1 ∧ slice 0x8FFD 15 13 = 4 ∧ slice 0x8FFD 12 12 = 0 ∧ slice 0x8FFD 11 10 = 3 ∧
      slice 0x8FFD 6 5 = 3) ∧
    (slice 0xD381 1 0 = 1 ∧ slice 0xD381 15 13 = 6 ∧ branchOf 0xD381 = -256) ∧
    (slice 0xEFFD 1 0 = 1 ∧ slice 0xEFFD 15 13 = 7 ∧ branchOf 0xEFFD = 254) := by decide

/-- SlliShiftsLeft: rd = 1 and 15, Custom, rd = 16, HINT, C.SLLI64 with rd = 0 and 15. -/
theorem witness_slli :
    (slice 0x0086 1 0 = 2 ∧ slice 0x0086 15 13 = 0 ∧ slice 0x0086 12 12 = 0 ∧ slice 0x0086 11 7 = 1 ∧
      slice 0x0086 6 2 = 1) ∧
    (slice 0x07FE 1 0 = 2 ∧ slice 0x07FE 15 13 = 0 ∧ slice 0x07FE 12 12 = 0 ∧ slice 0x07FE 11 7 = 15 ∧
      slice 0x07FE 6 2 = 31) ∧
    (slice 0x1002 1 0 = 2 ∧ slice 0x1002 15 13 = 0 ∧ slice 0x1002 12 12 = 1) ∧
    (slice 0x0802 1 0 = 2 ∧ slice 0x0802 15 13 = 0 ∧ slice 0x0802 12 12 = 0 ∧ slice 0x0802 11 7 = 16) ∧
    (slice 0x0006 1 0 = 2 ∧ slice 0x0006 15 13 = 0 ∧ slice 0x0006 12 12 = 0 ∧ slice 0x0006 11 7 = 0 ∧
      slice 0x0006 6 2 ≠ 0) ∧
    (slice 0x0002 1 0 = 2 ∧ slice 0x0002 15 13 = 0 ∧ slice 0x0002 12 12 = 0 ∧ slice 0x0002 11 7 = 0 ∧
      slice 0x0002 6 2 = 0) ∧
    (slice 0x0782 1 0 = 2 ∧ slice 0x0782 15 13 = 0 ∧ slice 0x0782 12 12 = 0 ∧ slice 0x0782 11 7 = 15 ∧
      slice 0x0782 6 2 = 0) := by decide

/-- LwspLoadsWord: rd = 1, 15, 0, 16. SwspStoresWord: rs2 = 0, 15, 16, 31. -/
theorem witness_lwsp_swsp :
    (slice 0x4082 1 0 = 2 ∧ slice 0x4082 15 13 = 2 ∧ slice 0x4082 11 7 = 1) ∧
    (slice 0x57FE 1 0 = 2 ∧ slice 0x57FE 15 13 = 2 ∧ slice 0x57FE 11 7 = 15) ∧
    (slice 0x4002 1 0 = 2 ∧ slice 0x4002 15 13 = 2 ∧ slice 0x4002 11 7 = 0) ∧
    (slice 0x4802 1 0 = 2 ∧ slice 0x4802 15 13 = 2 ∧ slice 0x4802 11 7 = 16) ∧
    (slice 0xC002 1 0 = 2 ∧ slice 0xC002 15 13 = 6 ∧ slice 0xC002 6 2 = 0) ∧
    (slice 0xDFBE 1 0 = 2 ∧ slice 0xDFBE 15 13 = 6 ∧ slice 0xDFBE 6 2 = 15) ∧
    (slice 0xC042 1 0 = 2 ∧ slice 0xC042 15 13 = 6 ∧ slice 0xC042 6 2 = 16) ∧
    (slice 0xDFFE 1 0 = 2 ∧ slice 0xDFFE 15 13 = 6 ∧ slice 0xDFFE 6 2 = 31) := by decide

/-- JrJumpsToRegister and JalrJumpsToRegisterAndLinks: rs1 = 1, 15, 0, 16; EbreakRaisesBreakpoint. -/
theorem witness_jr_jalr_ebreak :
    (slice 0x8082 1 0 = 2 ∧ slice 0x8082 15 12 = 8 ∧ slice 0x8082 6 2 = 0 ∧ slice 0x8082 11 7 = 1) ∧
    (slice 0x8782 1 0 = 2 ∧ slice 0x8782 15 12 = 8 ∧ slice 0x8782 6 2 = 0 ∧ slice 0x8782 11 7 = 15) ∧
    (slice 0x8002 1 0 = 2 ∧ slice 0x8002 15 12 = 8 ∧ slice 0x8002 6 2 = 0 ∧ slice 0x8002 11 7 = 0) ∧
    (slice 0x8802 1 0 = 2 ∧ slice 0x8802 15 12 = 8 ∧ slice 0x8802 6 2 = 0 ∧ slice 0x8802 11 7 = 16) ∧
    (slice 0x9082 1 0 = 2 ∧ slice 0x9082 15 12 = 9 ∧ slice 0x9082 6 2 = 0 ∧ slice 0x9082 11 7 = 1) ∧
    (slice 0x9782 1 0 = 2 ∧ slice 0x9782 15 12 = 9 ∧ slice 0x9782 6 2 = 0 ∧ slice 0x9782 11 7 = 15) ∧
    (slice 0x9802 1 0 = 2 ∧ slice 0x9802 15 12 = 9 ∧ slice 0x9802 6 2 = 0 ∧ slice 0x9802 11 7 = 16) ∧
    (slice 0x9002 1 0 = 2 ∧ slice 0x9002 15 12 = 9 ∧ slice 0x9002 6 2 = 0 ∧ slice 0x9002 11 7 = 0) := by
  decide

/-- MvCopiesRegister and AddAddsRegisters: both fields 1 and 15, the HINT form, rd = 16, rs2 = 16. -/
theorem witness_mv_add :
    (slice 0x8086 1 0 = 2 ∧ slice 0x8086 15 12 = 8 ∧ slice 0x8086 6 2 = 1 ∧ slice 0x8086 11 7 = 1) ∧
    (slice 0x87BE 1 0 = 2 ∧ slice 0x87BE 15 12 = 8 ∧ slice 0x87BE 6 2 = 15 ∧ slice 0x87BE 11 7 = 15) ∧
    (slice 0x8006 1 0 = 2 ∧ slice 0x8006 15 12 = 8 ∧ slice 0x8006 6 2 = 1 ∧ slice 0x8006 11 7 = 0) ∧
    (slice 0x8806 1 0 = 2 ∧ slice 0x8806 15 12 = 8 ∧ slice 0x8806 6 2 = 1 ∧ slice 0x8806 11 7 = 16) ∧
    (slice 0x87C2 1 0 = 2 ∧ slice 0x87C2 15 12 = 8 ∧ slice 0x87C2 6 2 = 16 ∧ slice 0x87C2 11 7 = 15) ∧
    (slice 0x9086 1 0 = 2 ∧ slice 0x9086 15 12 = 9 ∧ slice 0x9086 6 2 = 1 ∧ slice 0x9086 11 7 = 1) ∧
    (slice 0x97BE 1 0 = 2 ∧ slice 0x97BE 15 12 = 9 ∧ slice 0x97BE 6 2 = 15 ∧ slice 0x97BE 11 7 = 15) ∧
    (slice 0x9006 1 0 = 2 ∧ slice 0x9006 15 12 = 9 ∧ slice 0x9006 6 2 = 1 ∧ slice 0x9006 11 7 = 0) ∧
    (slice 0x9806 1 0 = 2 ∧ slice 0x9806 15 12 = 9 ∧ slice 0x9806 6 2 = 1 ∧ slice 0x9806 11 7 = 16) ∧
    (slice 0x97C2 1 0 = 2 ∧ slice 0x97C2 15 12 = 9 ∧ slice 0x97C2 6 2 = 16 ∧ slice 0x97C2 11 7 = 15) := by
  decide

/-- HintRowsOnlyAdvancePc: one parcel for each of the ten clauses. -/
theorem witness_hint_rows :
    (slice 0x107D 1 0 = 1 ∧ slice 0x107D 15 13 = 0 ∧ slice 0x107D 11 7 = 0 ∧ imm6Of 0x107D = -1) ∧
    (slice 0x0081 1 0 = 1 ∧ slice 0x0081 15 13 = 0 ∧ slice 0x0081 11 7 = 1 ∧ imm6Of 0x0081 = 0) ∧
    (slice 0x4001 1 0 = 1 ∧ slice 0x4001 15 13 = 2 ∧ slice 0x4001 11 7 = 0) ∧
    (slice 0x6005 1 0 = 1 ∧ slice 0x6005 15 13 = 3 ∧ slice 0x6005 11 7 = 0 ∧ imm6Of 0x6005 = 1) ∧
    (slice 0x8381 1 0 = 1 ∧ slice 0x8381 15 13 = 4 ∧ slice 0x8381 12 10 = 0 ∧ slice 0x8381 6 2 = 0) ∧
    (slice 0x8401 1 0 = 1 ∧ slice 0x8401 15 13 = 4 ∧ slice 0x8401 12 10 = 1 ∧ slice 0x8401 6 2 = 0) ∧
    (slice 0x007E 1 0 = 2 ∧ slice 0x007E 15 12 = 0 ∧ slice 0x007E 11 7 = 0 ∧ slice 0x007E 6 2 = 31) ∧
    (slice 0x0782 1 0 = 2 ∧ slice 0x0782 15 12 = 0 ∧ slice 0x0782 11 7 = 15 ∧ slice 0x0782 6 2 = 0) ∧
    (slice 0x803E 1 0 = 2 ∧ slice 0x803E 15 12 = 8 ∧ slice 0x803E 11 7 = 0 ∧ slice 0x803E 6 2 = 15) ∧
    (slice 0x9006 1 0 = 2 ∧ slice 0x9006 15 12 = 9 ∧ slice 0x9006 11 7 = 0 ∧ slice 0x9006 6 2 = 1) := by
  decide

/-- ReservedRowsTrap and CustomRowsTrap: one parcel for each clause over parcels. -/
theorem witness_reserved_and_custom_rows :
    (slice 0x6F81 1 0 = 1 ∧ slice 0x6F81 15 13 = 3 ∧ slice 0x6F81 12 12 = 0 ∧ slice 0x6F81 6 2 = 0 ∧
      slice 0x6F81 11 7 ≠ 2) ∧
    (slice 0x9C01 1 0 = 1 ∧ slice 0x9C01 15 10 = 0b100111 ∧ slice 0x9C01 6 5 = 0) ∧
    (slice 0x9FBD 1 0 = 1 ∧ slice 0x9FBD 15 10 = 0b100111 ∧ slice 0x9FBD 6 5 = 1) ∧
    (slice 0x9C41 1 0 = 1 ∧ slice 0x9C41 15 10 = 0b100111 ∧ slice 0x9C41 6 5 = 2) ∧
    (slice 0x9FFD 1 0 = 1 ∧ slice 0x9FFD 15 10 = 0b100111 ∧ slice 0x9FFD 6 5 = 3) ∧
    (slice 0x507E 1 0 = 2 ∧ slice 0x507E 15 13 = 2 ∧ slice 0x507E 11 7 = 0) ∧
    (slice 0x9001 1 0 = 1 ∧ slice 0x9001 15 10 = 0b100100) ∧
    (slice 0x97FD 1 0 = 1 ∧ slice 0x97FD 15 10 = 0b100101) ∧
    (slice 0x1FFE 1 0 = 2 ∧ slice 0x1FFE 15 12 = 1) := by decide

/-- QuadrantThreeIsRefused. -/
theorem witness_wide : slice 0x0003 1 0 = 3 ∧ slice 0xFFFF 1 0 = 3 := by decide

/-- AbsentRegistersTrap and the last clause of ReservedRowsTrap: a parcel of each kind of field. -/
theorem witness_absentRegRow :
    AbsentRegRow 0x0801 ∧ AbsentRegRow 0x4FFD ∧ AbsentRegRow 0x6805 ∧ AbsentRegRow 0x0802 ∧
    AbsentRegRow 0x4F82 ∧ AbsentRegRow 0x8802 ∧ AbsentRegRow 0x807E ∧ AbsentRegRow 0x9F82 ∧
    AbsentRegRow 0xC042 := by
  refine ⟨?_, ?_, ?_, ?_, ?_, ?_, ?_, ?_, ?_⟩ <;>
    refine ⟨by unfold FreeFieldNamesAbsentReg; decide, by decide, by unfold ReservedRow; decide,
      by unfold CustomRow; decide, by unfold AbsentExtensionRow; decide⟩

/-- IllegalParcelsAreExact and StepChecksInOrder: parcels of the five classes, and one of none. -/
theorem witness_illegalRow :
    IllegalRow 0x0000 ∧ IllegalRow 0x8000 ∧ IllegalRow 0x1FFE ∧ IllegalRow 0xFFFC ∧ IllegalRow 0x8802 ∧
    ¬ IllegalRow 0x0001 := by
  refine ⟨.inl rfl, .inr (.inl (by unfold ReservedRow; decide)),
    .inr (.inr (.inl (by unfold CustomRow; decide))),
    .inr (.inr (.inr (.inl (by unfold AbsentExtensionRow; decide)))),
    .inr (.inr (.inr (.inr witness_absentRegRow.2.2.2.2.2.1))), ?_⟩
  rintro (h | h | h | h | h)
  · exact absurd h (by decide)
  · exact absurd h (by unfold ReservedRow; decide)
  · exact absurd h (by unfold CustomRow; decide)
  · exact absurd h (by unfold AbsentExtensionRow; decide)
  · exact absurd h.1 (by unfold FreeFieldNamesAbsentReg; decide)

/-- HintParcelsAreExact: a parcel of each group, and one of none. -/
theorem witness_hintRow :
    HintRow 0x0005 ∧ HintRow 0x0781 ∧ HintRow 0x507D ∧ HintRow 0x7001 ∧ HintRow 0x8001 ∧
    HintRow 0x8781 ∧ HintRow 0x0006 ∧ HintRow 0x0002 ∧ HintRow 0x8006 ∧ HintRow 0x903E ∧
    ¬ HintRow 0x0001 := by
  refine ⟨?_, ?_, ?_, ?_, ?_, ?_, ?_, ?_, ?_, ?_, ?_⟩ <;> (unfold HintRow; decide)

/-- ZeroRegisterIsHardwired: a register that is not x0, and two that differ. -/
theorem witness_registers : (15 : RegIdx) ≠ 0 ∧ (0 : RegIdx) ≠ 15 := by decide

/-- FetchFollowsRule and StepChecksInOrder: an odd pc, no permission for the high byte alone, a stored-to
high byte, and a parcel that can be fetched (the last of the code window). -/
theorem witness_fetch_clauses :
    (startAt 0x101 testMap [] []).pc.toNat % 2 ≠ 0 ∧
    ((startAt 0x1FE [{ first := 0x100, last := 0x1FE, read := true, write := false, execute := true }]
        [] []).pc.toNat % 2 = 0 ∧
      ¬ (permits .execute 0x1FE (startAt 0x1FE
          [{ first := 0x100, last := 0x1FE, read := true, write := false, execute := true }] [] []) = true ∧
        permits .execute 0x1FF (startAt 0x1FE
          [{ first := 0x100, last := 0x1FE, read := true, write := false, execute := true }] [] []) =
            true)) ∧
    (permits .execute 0x100 { data with dirty := [0x101] } = true ∧
      permits .execute 0x101 { data with dirty := [0x101] } = true ∧
      isDirty 0x101 { data with dirty := [0x101] } = true) ∧
    Fetchable data ∧ Fetchable (startAt 0x1FE testMap [] []) := by
  unfold Fetchable
  decide

/-- FetchFollowsRule, last clause: two states that agree on what a fetch uses and differ elsewhere. -/
theorem witness_fetch_agree :
    let t := writeByte 0x102 7 data
    t.pc = data.pc ∧ t.memMap = data.memMap ∧ t.dirty = data.dirty ∧
      byteAt data.pc t = byteAt data.pc data ∧ byteAt (data.pc + 1) t = byteAt (data.pc + 1) data ∧
      t ≠ data := by decide

/-- WordIsTwoParcels: a load and a store that go on, and an executable half of the stored word. -/
theorem witness_two_parcels :
    memRead 0x3FFC data = .next (wordAt 0x3FFC data) ∧
    memWrite 4 0x90020001 State.reset = .next (storeWord 4 0x90020001 State.reset) ∧
    permits .execute 6 (storeWord 4 0x90020001 State.reset) = true ∧
    permits .execute 7 (storeWord 4 0x90020001 State.reset) = true :=
  ⟨(memRead_eq_next _ _ _).2 ⟨by decide, by decide, rfl⟩,
    (memWrite_eq_next _ _ _ _).2 ⟨by decide, by decide, rfl⟩, by decide, by decide⟩

/-- StepRunsDecodedInstruction. -/
theorem witness_step_runs :
    Fetchable data ∧
    decodeBytes [byteAt data.pc data, byteAt (data.pc + 1) data] = .ok (.cNop, []) ∧
    Instr.cNop.wellFormed = true := by
  refine ⟨?_, rfl, rfl⟩
  unfold Fetchable
  decide

/-- StepChecksInOrder: a fetchable state for each clause after the fetch. -/
theorem witness_step_clauses :
    (Fetchable (vec 0x0003 [] []) ∧ slice (parcelAt 0x100 (vec 0x0003 [] [])) 1 0 = 3) ∧
    (Fetchable (vec 0x0000 [] []) ∧ parcelAt 0x100 (vec 0x0000 [] []) = 0) ∧
    (Fetchable (vec 0x9002 [] []) ∧ parcelAt 0x100 (vec 0x9002 [] []) = 0x9002) ∧
    (loadAddress (decode (parcelAt 0x100 (vec 0x4188 [(11, 0x3FFF)] []))) (vec 0x4188 [(11, 0x3FFF)] []) =
      some 0x3FFF) ∧
    (loadAddress (decode (parcelAt 0x100 (vec 0x4188 [(11, 0x4000)] []))) (vec 0x4188 [(11, 0x4000)] []) =
      some 0x4000 ∧ permitsWord .read 0x4000 (vec 0x4188 [(11, 0x4000)] []) = false) ∧
    (loadAddress (decode (parcelAt 0x100 (vec 0x4188 [(11, 0x3FFC)] []))) (vec 0x4188 [(11, 0x3FFC)] []) =
      some 0x3FFC ∧ permitsWord .read 0x3FFC (vec 0x4188 [(11, 0x3FFC)] []) = true) ∧
    (storeAddress (decode (parcelAt 0x100 (vec 0xC188 [(11, 0x3FFF)] []))) (vec 0xC188 [(11, 0x3FFF)] []) =
      some 0x3FFF) ∧
    (storeAddress (decode (parcelAt 0x100 (vec 0xC188 [(11, 0x4000)] []))) (vec 0xC188 [(11, 0x4000)] []) =
      some 0x4000 ∧ permitsWord .write 0x4000 (vec 0xC188 [(11, 0x4000)] []) = false) ∧
    (storeAddress (decode (parcelAt 0x100 (vec 0xC188 [(11, 0x3FFC)] []))) (vec 0xC188 [(11, 0x3FFC)] []) =
      some 0x3FFC ∧ permitsWord .write 0x3FFC (vec 0xC188 [(11, 0x3FFC)] []) = true) ∧
    (slice (parcelAt 0x100 data) 1 0 ≠ 3 ∧ parcelAt 0x100 data = 0x0001 ∧
      loadAddress (decode (parcelAt 0x100 data)) data = none ∧
      storeAddress (decode (parcelAt 0x100 data)) data = none) := by
  unfold Fetchable
  decide

/-- The parcel of a fetchable state. -/
theorem fetch_of (s : State) (p : Parcel) (hf : Fetchable s) (hp : parcelAt s.pc s = p) :
    fetch s = .next p := (fetch_eq_next_iff s p).2 ⟨hf, hp.symm⟩

/-- TrapsFollowExceptionTable: each row's condition is met by some state. -/
theorem witness_raisedBy :
    RaisedBy .instructionAddressMisaligned 0x101 (startAt 0x101 testMap [] []) ∧
    RaisedBy .instructionAccessFault 0x200 (startAt 0x200 testMap [] []) ∧
    RaisedBy .illegalInstruction 0 (vec 0x0000 [] []) ∧
    RaisedBy .breakpoint 0x100 (vec 0x9002 [] []) ∧
    RaisedBy .loadAddressMisaligned 0x3FFF (vec 0x4188 [(11, 0x3FFF)] []) ∧
    RaisedBy .loadAccessFault 0x4000 (vec 0x4188 [(11, 0x4000)] []) ∧
    RaisedBy .storeAddressMisaligned 0x3FFF (vec 0xC188 [(11, 0x3FFF)] []) ∧
    RaisedBy .storeAccessFault 0x4000 (vec 0xC188 [(11, 0x4000)] []) := by
  refine ⟨by unfold RaisedBy; decide, by unfold RaisedBy; decide,
    ⟨0, fetch_of _ _ (by unfold Fetchable; decide) (by decide), .inl rfl, rfl⟩,
    ⟨fetch_of _ _ (by unfold Fetchable; decide) (by decide), by decide⟩,
    ⟨0x4188, fetch_of _ _ (by unfold Fetchable; decide) (by decide), by decide, by decide⟩,
    ⟨0x4188, fetch_of _ _ (by unfold Fetchable; decide) (by decide), by decide, by decide, ?_⟩,
    ⟨0xC188, fetch_of _ _ (by unfold Fetchable; decide) (by decide), by decide, by decide⟩,
    ⟨0xC188, fetch_of _ _ (by unfold Fetchable; decide) (by decide), by decide, by decide, ?_⟩⟩ <;>
  · rw [wordPermitted_iff]
    decide

/-- PcAdvancesByTwoOrTransfers: going on at the top of memory, a transfer, a trap, a HINT. -/
theorem witness_pc :
    (exec .cNop (startAt 0xFFFFFFFE resetMemMap [] []) =
        .next (advance (startAt 0xFFFFFFFE resetMemMap [] [])) ∧
      transferTarget .cNop (startAt 0xFFFFFFFE resetMemMap [] []) = none ∧
      (startAt 0xFFFFFFFE resetMemMap [] []).pc = 0xFFFFFFFE) ∧
    (exec (.cJ 1) data = .next (setPc (data.pc + offsetJump 1) data) ∧
      transferTarget (.cJ 1) data = some 0x102) ∧
    exec .cEbreak data = .fault (.trap .breakpoint 0x100 0x100) ∧
    isHint (.cNopHint 1) = true :=
  ⟨⟨rfl, rfl, by decide⟩, ⟨rfl, by decide⟩, rfl, rfl⟩

/-- OnlyStoresChangeMemory and OnlyTheNamedRegistersMatter: an instruction that goes on without a store,
and a store that goes on. -/
theorem witness_exec_next :
    (exec (.cMv 10 9) data = .next (advance (writeReg 10 (readReg 9 data) data)) ∧
      storeAddress (.cMv 10 9) data = none ∧ regWritten (.cMv 10 9) ≠ some 9) ∧
    (exec (.cSw 1 0 0) data = .next (advance (storeWord 0x3FFC 7 data)) ∧
      storeAddress (.cSw 1 0 0) data = some 0x3FFC) := by
  refine ⟨⟨rfl, rfl, by decide⟩, ?_, by decide⟩
  exact (storeFrom_eq_next 7 0x3FFC data _).2 ⟨by decide, by decide, rfl⟩

/-- OnlyTheNamedRegistersMatter: two states that differ in a register the instruction does not read. -/
theorem witness_agreeOnRegs :
    AgreeOnRegs (regsRead (.cAdd 10 11)) data (writeReg 5 1 data) ∧ data ≠ writeReg 5 1 data := by
  refine ⟨⟨rfl, rfl, rfl, rfl, ?_⟩, by decide⟩
  decide

/-- InaccessibleBytesNeverMatter: two states that differ in the byte at 0x5000, outside `MemMap`. -/
theorem witness_agreeOnAccessible :
    AgreeOnAccessible data (writeByte 0x5000 1 data) ∧ data ≠ writeByte 0x5000 1 data := by
  refine ⟨⟨rfl, rfl, rfl, fun _ => rfl, fun a h => ?_⟩, by decide⟩
  rw [byteAt_writeByte]
  split
  · rename_i h0
    subst h0
    exact absurd h (by decide)
  · rfl

/-- A launch that stores to 4 to 7 from pc 2 and goes on at 4. -/
def storing : State := startAt 2 resetMemMap [(8, 4), (9, 7)] [(2, 0x04), (3, 0xC0)]

/-- The state after the store. -/
def stored : State := advance (storeWord 4 7 storing)

/-- The store goes on. -/
theorem storing_step : step storing = .next stored :=
  (step_eq_next _ _).2 ⟨by unfold Fetchable; decide,
    (storeFrom_eq_next 7 4 storing _).2 ⟨by decide, by decide, rfl⟩⟩

/-- A launch state as one, for the statements over launches. -/
theorem storing_launch :
    storing = State.launch 2 resetMemMap [(2, 0x04), (3, 0xC0)] storing.regs := by decide

/-- StepKeepsInvariant and StepRespectsMemMap: a state with the invariant whose step stores, and a byte
that the step changes. -/
theorem witness_invariant :
    Inv storing ∧ step storing = .next stored ∧ byteAt 4 stored ≠ byteAt 4 storing := by
  refine ⟨⟨by decide, by decide, by decide, fun a h => ?_⟩, storing_step, by decide⟩
  exact absurd h (by rw [storing_launch]; simp [isDirty])

/-- LaunchMeetsInvariant and LaunchStateIsItsInputs: an even pc, a canonical image, a byte of it. -/
theorem witness_launch : (0xFFFFFFFE : Word).toNat % 2 = 0 ∧
    Memory.wf [(0, 0x01), (0xFFFFFFFF, 0xFF)] ∧
    ((0xFFFFFFFF : Word).toNat, (0xFF : Byte)) ∈ ([(0, 0x01), (0xFFFFFFFF, 0xFF)] : Memory) := by decide

/-- MisalignedFetchIsUnreachable, DirtyIsTheBytesStoredSinceLaunch and LoadsSeeTheLatestStore: a launch
that reaches a state whose next parcel was stored to. -/
theorem witness_run :
    Reaches (State.launch 2 resetMemMap [(2, 0x04), (3, 0xC0)] storing.regs) 1 stored ∧
    (2 : Word).toNat % 2 = 0 ∧ stored.pc = 4 ∧ isDirty 4 stored = true ∧ isDirty 5 stored = true ∧
    permits .execute 4 stored = true ∧ permits .execute 5 stored = true := by
  refine ⟨?_, by decide, by decide, by decide, by decide, by decide, by decide⟩
  rw [← storing_launch]
  exact (reaches_succ _ _ _).2 ⟨stored, storing_step, (reaches_zero _ _).2 rfl⟩

/-- A launch that stores to 8 to 11 from pc 2 and goes on at 4 with C.NOP. -/
def grower : State := startAt 2 resetMemMap [(8, 8), (9, 7)] [(2, 0x04), (3, 0xC0), (4, 0x01)]

/-- The state after the store. -/
def grown : State := advance (storeWord 8 7 grower)

/-- DirtyIsTheBytesStoredSinceLaunch, second clause: a state after a store whose step goes on. -/
theorem witness_dirty_grows :
    grower = State.launch 2 resetMemMap [(2, 0x04), (3, 0xC0), (4, 0x01)] grower.regs ∧
    step grower = .next grown ∧ step grown = .next (advance grown) ∧ isDirty 8 grown = true := by
  refine ⟨by decide, (step_eq_next _ _).2 ⟨by unfold Fetchable; decide,
    (storeFrom_eq_next 7 8 grower _).2 ⟨by decide, by decide, rfl⟩⟩, ?_, by decide⟩
  rw [step, fetch_of grown 0x0001 (by unfold Fetchable; decide) (by decide), andThen_next,
    show decode 0x0001 = .cNop by decide]
  rfl

/-- LoadsSeeTheLatestStore: the store of `storing` covers the byte at 7 and no later step is taken; and
no step is taken at all. -/
theorem witness_latest_store :
    (fetch storing = .next 0xC004 ∧ storeAddress (decode 0xC004) storing = some 4 ∧ InWord 4 7 ∧
      step storing = .next stored ∧ Reaches stored 0 stored ∧
      ∀ k w, k < 0 → Reaches stored k w → ¬ StepStoresTo w 7) ∧
    (Reaches storing 0 storing ∧ ∀ k w, k < 0 → Reaches storing k w → ¬ StepStoresTo w 7) :=
  ⟨⟨fetch_of _ _ (by unfold Fetchable; decide) (by decide), by decide, .inr (.inr (.inr rfl)),
    storing_step, (reaches_zero _ _).2 rfl, fun _ _ h => absurd h (Nat.not_lt_zero _)⟩,
    (reaches_zero _ _).2 rfl, fun _ _ h => absurd h (Nat.not_lt_zero _)⟩

/-- LoadsSeeTheLatestStore, first clause, over one step: C.NOP stores nothing. -/
theorem witness_unstored_byte :
    Reaches data 1 (advance data) ∧
      ∀ k w, k < 1 → Reaches data k w → ¬ StepStoresTo w 0x3FFC := by
  have hf : fetch data = .next 0x0001 := fetch_of _ _ (by unfold Fetchable; decide) (by decide)
  refine ⟨(reaches_succ _ _ _).2 ⟨advance data, ?_, (reaches_zero _ _).2 rfl⟩, ?_⟩
  · rw [step, hf, andThen_next, show decode 0x0001 = .cNop by decide]
    rfl
  · rintro k w hk hw ⟨p, a, t, hp, ha, -, -⟩
    obtain rfl : k = 0 := by omega
    obtain rfl := (reaches_zero _ _).1 hw
    rw [hf, Host.Outcome.next.injEq] at hp
    subst hp
    rw [show decode 0x0001 = .cNop by decide] at ha
    cases ha

/-- NormalEndIsAtEbreak, and TrapsAndRefusalsAreFinal, first clause at k = 0: a state that C.EBREAK
stops. -/
theorem witness_final_trap :
    RaisedBy .breakpoint 0x100 (vec 0x9002 [] []) ∧ (vec 0x9002 [] []).pc = 0x100 ∧
    EndsNormally (vec 0x9002 [] []) 0x100 := by
  have hf : fetch (vec 0x9002 [] []) = .next 0x9002 :=
    fetch_of _ _ (by unfold Fetchable; decide) (by decide)
  refine ⟨⟨hf, rfl⟩, rfl, 0, _, (reaches_zero _ _).2 rfl, ?_⟩
  rw [step, hf, andThen_next, show decode 0x9002 = .cEbreak by decide]
  rfl

/-- TrapsAndRefusalsAreFinal, second clause: a wider instruction at k = 0, modified code at k = 1. -/
theorem witness_final_refusal :
    RefusedFor (.wideInstruction 0x100) (vec 0x0003 [] []) ∧
    (Reaches storing 1 stored ∧ RefusedFor (.fetchOfModifiedCode 4) stored) :=
  ⟨⟨rfl, by unfold Fetchable; decide, by decide⟩,
    (reaches_succ _ _ _).2 ⟨stored, storing_step, (reaches_zero _ _).2 rfl⟩,
    rfl, by decide, by decide, by decide, by decide⟩

/-- TrapsAndRefusalsAreFinal, third clause: a run of one step that goes on. -/
theorem witness_final_goes_on : ∃ t, Reaches storing 1 t :=
  ⟨stored, witness_final_refusal.2.1⟩

/-- EqualReadsAreEqualMemories: two different states with canonical memories that read alike. -/
theorem witness_equal_reads :
    Memory.wf data.mem ∧ Memory.wf (writeReg 5 1 data).mem ∧
    (∀ a : Word, byteAt a data = byteAt a (writeReg 5 1 data)) ∧ data ≠ writeReg 5 1 data :=
  ⟨by decide, by decide, fun _ => by rw [byteAt_writeReg], by decide⟩

end Sys2Proof.Tests
end

section
/-!
SUPPORT. The illegal rows of the table of 60_exceptions.md R210, as conditions on a parcel's fields.
-/

namespace Sys2Proof.Machine

/-! ### The parcels that stop a step, by their fields -/

/-- The fields `inst[1:0]`, `inst[15:13]`, `inst[12]`, `inst[11:7]` and `inst[6:2]` make up the parcel. -/
theorem parcel_toNat_fields (p : Parcel) :
    p.toNat = 8192 * slice p 15 13 + 4096 * slice p 12 12 + 128 * slice p 11 7 + 4 * slice p 6 2 +
      slice p 1 0 := by
  have := p.isLt
  simp only [slice]
  omega

/-- The illegal rows of the cell of quadrant `q` and funct3 `f`, where `b` is inst[12], `h` is inst[11:7]
and `l` is inst[6:2]: the table of 60 R210 read cell by cell, as the decoder goes (30 R103). -/
def IllegalFields (q f b h l : Nat) : Prop :=
  match q, f with
  | 0, 0 => b = 0 ∧ h = 0 ∧ l < 8
  | 0, 2 => False
  | 0, 6 => False
  | 0, _ => True
  | 1, 0 => 16 ≤ h
  | 1, 2 => 16 ≤ h
  | 1, 3 => 16 ≤ h ∨ (b = 0 ∧ l = 0)
  | 1, 4 => b = 1 ∧ h / 8 ≠ 2
  | 1, _ => False
  | 2, 0 => b = 1 ∨ 16 ≤ h
  | 2, 2 => h = 0 ∨ 16 ≤ h
  | 2, 4 => 16 ≤ h ∨ 16 ≤ l ∨ (b = 0 ∧ h = 0 ∧ l = 0)
  | 2, 6 => 16 ≤ l
  | 2, _ => True
  | _, _ => False

/-- The exclusions of 30 R108 do not matter where all the illegal rows are taken together. -/
theorem illegalRow_iff_freeField (p : Parcel) :
    IllegalRow p ↔
      p = 0 ∨ ReservedRow p ∨ CustomRow p ∨ AbsentExtensionRow p ∨ FreeFieldNamesAbsentReg p := by
  unfold IllegalRow AbsentRegRow
  tauto

theorem illegalRow_iff_fields (p : Parcel) :
    IllegalRow p ↔ IllegalFields (slice p 1 0) (slice p 15 13) (slice p 12 12) (slice p 11 7)
      (slice p 6 2) := by
  have hp := parcel_toNat_fields p
  have h125 : slice p 12 5 = 128 * slice p 12 12 + 4 * slice p 11 7 + slice p 6 2 / 8 := by
    simp only [slice]; omega
  have h42 : slice p 4 2 = slice p 6 2 % 8 := by simp only [slice]; omega
  have h1110 : slice p 11 10 = slice p 11 7 / 8 := by simp only [slice]; omega
  have hq : slice p 1 0 < 4 := slice_lt p 1 0
  have hf : slice p 15 13 < 8 := slice_lt p 15 13
  have hb : slice p 12 12 < 2 := slice_lt p 12 12
  have hh : slice p 11 7 < 32 := slice_lt p 11 7
  have hl : slice p 6 2 < 32 := slice_lt p 6 2
  simp only [illegalRow_iff_freeField, ReservedRow, CustomRow, AbsentExtensionRow,
    FreeFieldNamesAbsentReg, ← BitVec.toNat_inj, h125, h42, h1110, hp]
  generalize slice p 1 0 = q at *
  generalize slice p 15 13 = f at *
  generalize slice p 12 12 = b at *
  generalize slice p 11 7 = h at *
  generalize slice p 6 2 = l at *
  clear h125 h42 h1110 hp
  interval_cases q <;> interval_cases f <;> simp [IllegalFields] <;> omega

end Sys2Proof.Machine
end

section
/-!
SUPPORT. How an instruction traps and is refused: by its stop, or by the word it addresses (60_exceptions.md
R210, 30_encoding.md R70).
-/

namespace Sys2Proof.Machine

/-! ### The instructions that stop every step -/

/-- How an instruction stops every step: as the illegal instruction of a parcel, at C.EBREAK, or as the
first parcel of a wider instruction (60 R210, 30 R70). -/
inductive Stop where
  | illegal (p : Parcel)
  | breakpoint
  | wide

/-- The stop of an instruction, `none` for one that can go on. -/
def stopOf : Instr → Option Stop
  | .cIllegal => some (.illegal 0x0000)
  | .cAddi4spnRes p => some (.illegal p)
  | .cFld p => some (.illegal p)
  | .cFlw p => some (.illegal p)
  | .q0Reserved p => some (.illegal p)
  | .cFsd p => some (.illegal p)
  | .cFsw p => some (.illegal p)
  | .cAddiRv32e p => some (.illegal p)
  | .cLiRv32e p => some (.illegal p)
  | .cAddi16spRes => some (.illegal 0x6101)
  | .cLuiRes p => some (.illegal p)
  | .cLuiRv32e p => some (.illegal p)
  | .cSrliCustom p => some (.illegal p)
  | .cSraiCustom p => some (.illegal p)
  | .cSubwRes p => some (.illegal p)
  | .cAddwRes p => some (.illegal p)
  | .q1Reserved10 p => some (.illegal p)
  | .q1Reserved11 p => some (.illegal p)
  | .cSlliCustom p => some (.illegal p)
  | .cSlliRv32e p => some (.illegal p)
  | .cFldsp p => some (.illegal p)
  | .cLwspRes p => some (.illegal p)
  | .cLwspRv32e p => some (.illegal p)
  | .cFlwsp p => some (.illegal p)
  | .cJrRes => some (.illegal 0x8002)
  | .cJrRv32e p => some (.illegal p)
  | .cMvRv32eRd p => some (.illegal p)
  | .cMvRv32eRs2 p => some (.illegal p)
  | .cJalrRv32e p => some (.illegal p)
  | .cAddRv32eRd p => some (.illegal p)
  | .cAddRv32eRs2 p => some (.illegal p)
  | .cFsdsp p => some (.illegal p)
  | .cSwspRv32e p => some (.illegal p)
  | .cFswsp p => some (.illegal p)
  | .cEbreak => some .breakpoint
  | .wide _ => some .wide
  | _ => none

/-- The outcome of a stop. -/
def Stop.outcome (s : State) : Stop → Outcome State
  | .illegal p => raiseIllegal p s
  | .breakpoint => raise .breakpoint s.pc s
  | .wide => .refused (.wideInstruction s.pc)

/-- An instruction with a stop does nothing else, and addresses no word. -/
theorem exec_of_stopOf {i : Instr} {x : Stop} (h : stopOf i = some x) (s : State) :
    exec i s = x.outcome s ∧ loadAddress i s = none ∧ storeAddress i s = none := by
  cases i <;> cases h <;> exact ⟨rfl, rfl, rfl⟩

/-- An instruction that traps as an illegal one in every state has a stop: every other one addresses a
word or goes on. -/
theorem stopOf_ne_none_of_isIllegal {i : Instr} (h : IsIllegal i) : stopOf i ≠ none := by
  obtain ⟨hx, hl, hs, -⟩ := h
  have hn (v : Word) : exec i State.reset ≠ .next (plainNext i v State.reset) := by
    rw [hx]; exact raise_ne_next _ _ _ _
  cases i
  case cLw | cLwsp => exact nomatch hl State.reset
  case cSw | cSwsp => exact nomatch hs State.reset
  case cBeqz r n =>
    obtain ⟨-, -, v, hv⟩ := plain_beqz r n State.reset
    exact absurd hv (hn v)
  case cBnez r n =>
    obtain ⟨-, -, v, hv⟩ := plain_bnez r n State.reset
    exact absurd hv (hn v)
  all_goals first
    | exact Option.some_ne_none _
    | exact nomatch hx State.reset

/-- An instruction without a stop loads, stores or accesses no memory. -/
theorem shape_of_stopOf_none {i : Instr} (h : stopOf i = none) : IsLoad i ∨ IsStore i ∨ IsPlain i := by
  rcases exec_shape i with hi | ⟨p, rfl⟩ | rfl | hr
  · exact absurd h (stopOf_ne_none_of_isIllegal hi)
  · cases h
  · cases h
  · exact hr

/-! ### How an instruction faults and is refused -/

/-- How a load faults (20 R42). -/
theorem loadInto_eq_fault (rd : RegIdx) (a : Word) (s : State) (r : Fault) :
    loadInto rd a s = .fault r ↔
      (a.toNat % 4 ≠ 0 ∧ r = .trap .loadAddressMisaligned a s.pc) ∨
        (a.toNat % 4 = 0 ∧ ¬ WordPermitted .read a s ∧ r = .trap .loadAccessFault a s.pc) := by
  simp [loadInto, andThen_eq_fault, memRead_eq_fault, writeAndAdvance, wordPermitted_iff]

/-- How a store faults (20 R43). -/
theorem storeFrom_eq_fault (v a : Word) (s : State) (r : Fault) :
    storeFrom v a s = .fault r ↔
      (a.toNat % 4 ≠ 0 ∧ r = .trap .storeAddressMisaligned a s.pc) ∨
        (a.toNat % 4 = 0 ∧ ¬ WordPermitted .write a s ∧ r = .trap .storeAccessFault a s.pc) := by
  simp [storeFrom, andThen_eq_fault, memWrite_eq_fault, wordPermitted_iff]

theorem loadInto_ne_refused (rd : RegIdx) (a : Word) (s : State) (r : Refusal) :
    loadInto rd a s ≠ .refused r := by
  simp [loadInto, andThen_eq_refused, memRead_ne_refused, writeAndAdvance]

theorem storeFrom_ne_refused (v a : Word) (s : State) (r : Refusal) :
    storeFrom v a s ≠ .refused r := by
  simp [storeFrom, andThen_eq_refused, memWrite_ne_refused]

/-- What makes the instruction `i` raise `e` with information `info` in `s`: the rows of the table of 60
R210 that come after the fetch. -/
def ExecRaises (e : Exception) (info : Word) (i : Instr) (s : State) : Prop :=
  match e with
  | .illegalInstruction => ∃ p, stopOf i = some (.illegal p) ∧ info = BitVec.ofNat 32 p.toNat
  | .breakpoint => stopOf i = some .breakpoint ∧ info = s.pc
  | .loadAddressMisaligned => loadAddress i s = some info ∧ info.toNat % 4 ≠ 0
  | .loadAccessFault =>
    loadAddress i s = some info ∧ info.toNat % 4 = 0 ∧ ¬ WordPermitted .read info s
  | .storeAddressMisaligned => storeAddress i s = some info ∧ info.toNat % 4 ≠ 0
  | .storeAccessFault =>
    storeAddress i s = some info ∧ info.toNat % 4 = 0 ∧ ¬ WordPermitted .write info s
  | _ => False

/-- An instruction traps exactly by its row of the table, at pc. -/
theorem exec_eq_trap_iff (i : Instr) (s : State) (e : Exception) (info q : Word) :
    exec i s = .fault (.trap e info q) ↔ q = s.pc ∧ ExecRaises e info i s := by
  cases hi : stopOf i with
  | some x =>
    obtain ⟨hx, hl, hs⟩ := exec_of_stopOf hi s
    rw [hx]
    cases x <;> cases e <;>
      simp [Stop.outcome, raiseIllegal, raise, ExecRaises, hi, hl, hs] <;> grind
  | none =>
    rcases shape_of_stopOf_none hi with ⟨rd, -, -, h⟩ | ⟨-, -, h⟩ | h
    · obtain ⟨hs, -, a, hl, hx⟩ := h s
      rw [hx, loadInto_eq_fault]
      cases e <;> simp [ExecRaises, hi, hl, hs] <;> grind
    · obtain ⟨hl, -, a, hs, hx⟩ := h s
      rw [hx, storeFrom_eq_fault]
      cases e <;> simp [ExecRaises, hi, hl, hs] <;> grind
    · obtain ⟨hl, hs, v, hx⟩ := h s
      rw [hx]
      cases e <;> simp [ExecRaises, hi, hl, hs]

/-- An instruction is refused exactly when it is the first parcel of a wider one, at pc (30 R70). -/
theorem exec_eq_refused_iff (i : Instr) (s : State) (r : Refusal) :
    exec i s = .refused r ↔ stopOf i = some .wide ∧ r = .wideInstruction s.pc := by
  cases hi : stopOf i with
  | some x =>
    rw [(exec_of_stopOf hi s).1]
    cases x <;> simp [Stop.outcome, raiseIllegal, raise, eq_comm]
  | none =>
    rcases shape_of_stopOf_none hi with ⟨rd, -, -, h⟩ | ⟨-, -, h⟩ | h
    · obtain ⟨-, -, a, -, hx⟩ := h s
      simp [hx, loadInto_ne_refused]
    · obtain ⟨-, -, a, -, hx⟩ := h s
      simp [hx, storeFrom_ne_refused]
    · obtain ⟨-, -, v, hx⟩ := h s
      simp [hx]

end Sys2Proof.Machine
end

section
/-!
SUPPORT. The decoder gives the parcel of an illegal row, of C.EBREAK and of a wider instruction the stop
that the spec says, and every other parcel none (30_encoding.md R103).
-/

namespace Sys2Proof.Machine

/-! ### The decoder's tests, as conditions on the fields -/

section
variable {p : Parcel}

theorem regFieldHigh_eq_zero_iff : regFieldHigh p = 0 ↔ slice p 11 7 = 0 := regFieldHigh_eq_iff p 0

theorem regFieldHigh_eq_two_iff : regFieldHigh p = 2 ↔ slice p 11 7 = 2 := regFieldHigh_eq_iff p 2

theorem regFieldLow_eq_zero_iff : regFieldLow p = 0 ↔ slice p 6 2 = 0 := regFieldLow_eq_iff p 0

theorem regFieldHigh_absent_iff : namesAbsentReg (regFieldHigh p) = true ↔ 16 ≤ slice p 11 7 := by
  rw [namesAbsentReg_iff, regFieldHigh_toNat]

theorem regFieldLow_absent_iff : namesAbsentReg (regFieldLow p) = true ↔ 16 ≤ slice p 6 2 := by
  rw [namesAbsentReg_iff, regFieldLow_toNat]

theorem bit12_eq_one_iff : p.extractLsb' 12 1 = 1 ↔ slice p 12 12 = 1 := by
  rw [← BitVec.toNat_inj, toNat_extract]
  rfl

theorem bits11to10_eq_iff (k : BitVec 2) :
    p.extractLsb' 10 2 = k ↔ slice p 11 7 / 8 = k.toNat := by
  rw [← BitVec.toNat_inj, toNat_extract, slice]
  omega

theorem quadrantOf_eq_iff (k : BitVec 2) : quadrantOf p = k ↔ slice p 1 0 = k.toNat := by
  rw [← BitVec.toNat_inj, quadrantOf_toNat]

/-! ### The stop of what each part of the decoder gives -/

theorem stopOf_decodeAddi4spn :
    stopOf (decodeAddi4spn p) =
      if slice p 12 12 = 0 ∧ slice p 11 7 = 0 ∧ slice p 6 2 < 8 then some (.illegal p) else none := by
  have h125 : slice p 12 5 = 0 ↔ slice p 12 12 = 0 ∧ slice p 11 7 = 0 ∧ slice p 6 2 < 8 := by
    simp only [slice]
    omega
  unfold decodeAddi4spn
  by_cases h0 : p = 0
  · subst h0; rfl
  · simp only [h0, if_false, immAddi4spn_eq_zero_iff, h125]
    split_ifs <;> rfl

theorem stopOf_decodeAddi :
    stopOf (decodeAddi p) = if 16 ≤ slice p 11 7 then some (.illegal p) else none := by
  simp only [decodeAddi, regFieldHigh_eq_zero_iff, regFieldHigh_absent_iff]
  split_ifs <;> first | rfl | omega

theorem stopOf_decodeLi :
    stopOf (decodeLi p) = if 16 ≤ slice p 11 7 then some (.illegal p) else none := by
  simp only [decodeLi, regFieldHigh_absent_iff]
  split_ifs <;> rfl

/-- Under C.LUI's major opcode, where the one illegal parcel with inst[11:7] = 2 is 0x6101. -/
theorem stopOf_decodeLui (hq : slice p 1 0 = 1) (hf : slice p 15 13 = 3) :
    stopOf (decodeLui p) =
      if 16 ≤ slice p 11 7 ∨ slice p 12 12 = 0 ∧ slice p 6 2 = 0 then some (.illegal p) else none := by
  have hres (hh : slice p 11 7 = 2) (hi : slice p 12 12 = 0 ∧ slice p 6 2 = 0) : 0x6101 = p := by
    apply BitVec.eq_of_toNat_eq
    rw [parcel_toNat_fields p, hq, hf, hh, hi.1, hi.2]
    rfl
  simp only [decodeLui, regFieldHigh_eq_two_iff, regFieldHigh_eq_zero_iff, regFieldHigh_absent_iff,
    immSix_eq_zero_iff, immAddi16sp_eq_zero_iff]
  split_ifs <;> first | rfl | omega | exact congrArg (some ∘ Stop.illegal) (hres ‹_› ‹_›)

theorem stopOf_decodeRegisterAlu :
    stopOf (decodeRegisterAlu p) = if slice p 12 12 = 1 then some (.illegal p) else none := by
  simp only [decodeRegisterAlu, bit12_eq_one_iff]
  split_ifs <;> rfl

theorem stopOf_decodeMiscAlu :
    stopOf (decodeMiscAlu p) =
      if slice p 12 12 = 1 ∧ slice p 11 7 / 8 ≠ 2 then some (.illegal p) else none := by
  have hh : slice p 11 7 < 32 := slice_lt p 11 7
  simp only [decodeMiscAlu, bit12_eq_one_iff, bits11to10_eq_iff, apply_ite stopOf,
    stopOf_decodeRegisterAlu]
  simp only [BitVec.ofNat_eq_ofNat, BitVec.toNat_ofNat]
  split_ifs <;> first | rfl | omega

theorem stopOf_decodeSlli :
    stopOf (decodeSlli p) =
      if slice p 12 12 = 1 ∨ 16 ≤ slice p 11 7 then some (.illegal p) else none := by
  simp only [decodeSlli, bit12_eq_one_iff, regFieldHigh_absent_iff]
  split_ifs <;> first | rfl | omega

theorem stopOf_decodeLwsp :
    stopOf (decodeLwsp p) =
      if slice p 11 7 = 0 ∨ 16 ≤ slice p 11 7 then some (.illegal p) else none := by
  simp only [decodeLwsp, regFieldHigh_eq_zero_iff, regFieldHigh_absent_iff]
  split_ifs <;> first | rfl | omega

theorem stopOf_decodeSwsp :
    stopOf (decodeSwsp p) = if 16 ≤ slice p 6 2 then some (.illegal p) else none := by
  simp only [decodeSwsp, regFieldLow_absent_iff]
  split_ifs <;> rfl

/-- Under C.JR's and C.MV's major opcode, where the one illegal parcel that names no register is 0x8002. -/
theorem stopOf_decodeJrMv (hq : slice p 1 0 = 2) (hf : slice p 15 13 = 4) (hb : slice p 12 12 = 0) :
    stopOf (decodeJrMv p) =
      if 16 ≤ slice p 11 7 ∨ 16 ≤ slice p 6 2 ∨ slice p 11 7 = 0 ∧ slice p 6 2 = 0 then
        some (.illegal p) else none := by
  have hres (hh : slice p 11 7 = 0) (hl : slice p 6 2 = 0) : 0x8002 = p := by
    apply BitVec.eq_of_toNat_eq
    rw [parcel_toNat_fields p, hq, hf, hb, hh, hl]
    rfl
  simp only [decodeJrMv, regFieldHigh_eq_zero_iff, regFieldLow_eq_zero_iff, regFieldHigh_absent_iff,
    regFieldLow_absent_iff]
  split_ifs <;> first | rfl | omega | exact congrArg (some ∘ Stop.illegal) (hres ‹_› ‹_›)

theorem stopOf_decodeJalrAdd :
    stopOf (decodeJalrAdd p) =
      if 16 ≤ slice p 11 7 ∨ 16 ≤ slice p 6 2 then some (.illegal p)
      else if slice p 11 7 = 0 ∧ slice p 6 2 = 0 then some .breakpoint else none := by
  simp only [decodeJalrAdd, regFieldHigh_eq_zero_iff, regFieldLow_eq_zero_iff,
    regFieldHigh_absent_iff, regFieldLow_absent_iff]
  split_ifs <;> first | rfl | omega

end

/-! ### The stop of a parcel's instruction -/

/-- The parcels that stop in a given way, `none` for those that do not. -/
def StopsAs (p : Parcel) : Option Stop → Prop
  | some (.illegal x) => x = p ∧ IllegalRow p
  | some .breakpoint => p = 0x9002
  | some .wide => slice p 1 0 = 3
  | none => ¬ IllegalRow p ∧ p ≠ 0x9002 ∧ slice p 1 0 ≠ 3

theorem not_illegalRow_ebreak : ¬ IllegalRow 0x9002 := by
  rw [illegalRow_iff_fields]; simp [IllegalFields, slice]

theorem not_illegalRow_of_wide {p : Parcel} (h : slice p 1 0 = 3) : ¬ IllegalRow p := by
  rw [illegalRow_iff_fields, h]; simp [IllegalFields]

/-- The ways of stopping exclude each other. -/
theorem StopsAs.unique {p : Parcel} {x y : Option Stop} (hx : StopsAs p x) (hy : StopsAs p y) :
    x = y := by
  have hb : slice 0x9002 1 0 ≠ 3 := by decide
  have he := not_illegalRow_ebreak
  have hw := @not_illegalRow_of_wide p
  rcases x with _ | _ | _ | _ <;> rcases y with _ | _ | _ | _ <;> simp only [StopsAs] at hx hy <;> grind

section
variable {p : Parcel}

theorem eq_ebreak_iff : p = 0x9002 ↔
    slice p 1 0 = 2 ∧ slice p 15 13 = 4 ∧ slice p 12 12 = 1 ∧ slice p 11 7 = 0 ∧ slice p 6 2 = 0 := by
  constructor
  · rintro rfl
    decide
  · rintro ⟨hq, hf, hb, hh, hl⟩
    apply BitVec.eq_of_toNat_eq
    rw [parcel_toNat_fields p, hq, hf, hb, hh, hl]
    rfl

/-- The stop of a parcel by its cell's illegal rows, in a cell that holds neither C.EBREAK nor a wider
instruction. -/
theorem stopsAs_ite {P : Prop} [Decidable P] (hP : IllegalRow p ↔ P) (hb : p ≠ 0x9002)
    (hw : slice p 1 0 ≠ 3) : StopsAs p (if P then some (.illegal p) else none) := by
  split
  next h => exact ⟨rfl, hP.2 h⟩
  next h => exact ⟨fun hi => h (hP.1 hi), hb, hw⟩

theorem ne_ebreak {q : Nat} (hq : slice p 1 0 = q) (h2 : q ≠ 2) : p ≠ 0x9002 := fun h => by
  obtain ⟨hq2, -⟩ := eq_ebreak_iff.1 h
  omega

/-- Quadrant 0: one case for each cell, funct3 0 to 7 in order. -/
theorem stopsAs_decodeQuadrant0 (hq : slice p 1 0 = 0) : StopsAs p (stopOf (decodeQuadrant0 p)) := by
  obtain ⟨f, hf⟩ : ∃ f, slice p 15 13 = f := ⟨_, rfl⟩
  have hlt : f < 8 := hf ▸ slice_lt p 15 13
  have hI := illegalRow_iff_fields p
  have hb : p ≠ 0x9002 := ne_ebreak hq (by decide)
  have hw : slice p 1 0 ≠ 3 := by omega
  rw [hq, hf] at hI
  rw [decodeQuadrant0, funct3Of_eq, hf]
  interval_cases f
  · show StopsAs p (stopOf (decodeAddi4spn p))
    rw [stopOf_decodeAddi4spn]
    exact stopsAs_ite hI hb hw
  · exact ⟨rfl, hI.2 trivial⟩
  · exact ⟨hI.1, hb, hw⟩
  · exact ⟨rfl, hI.2 trivial⟩
  · exact ⟨rfl, hI.2 trivial⟩
  · exact ⟨rfl, hI.2 trivial⟩
  · exact ⟨hI.1, hb, hw⟩
  · exact ⟨rfl, hI.2 trivial⟩

/-- Quadrant 1: one case for each cell, funct3 0 to 7 in order. -/
theorem stopsAs_decodeQuadrant1 (hq : slice p 1 0 = 1) : StopsAs p (stopOf (decodeQuadrant1 p)) := by
  obtain ⟨f, hf⟩ : ∃ f, slice p 15 13 = f := ⟨_, rfl⟩
  have hlt : f < 8 := hf ▸ slice_lt p 15 13
  have hI := illegalRow_iff_fields p
  have hb : p ≠ 0x9002 := ne_ebreak hq (by decide)
  have hw : slice p 1 0 ≠ 3 := by omega
  rw [hq, hf] at hI
  rw [decodeQuadrant1, funct3Of_eq, hf]
  interval_cases f
  · show StopsAs p (stopOf (decodeAddi p))
    rw [stopOf_decodeAddi]
    exact stopsAs_ite hI hb hw
  · exact ⟨hI.1, hb, hw⟩
  · show StopsAs p (stopOf (decodeLi p))
    rw [stopOf_decodeLi]
    exact stopsAs_ite hI hb hw
  · show StopsAs p (stopOf (decodeLui p))
    rw [stopOf_decodeLui hq hf]
    exact stopsAs_ite hI hb hw
  · show StopsAs p (stopOf (decodeMiscAlu p))
    rw [stopOf_decodeMiscAlu]
    exact stopsAs_ite hI hb hw
  · exact ⟨hI.1, hb, hw⟩
  · exact ⟨hI.1, hb, hw⟩
  · exact ⟨hI.1, hb, hw⟩

/-- The cell that holds C.EBREAK. -/
theorem stopsAs_decodeJalrAdd (hq : slice p 1 0 = 2) (hf : slice p 15 13 = 4)
    (hb : slice p 12 12 = 1) : StopsAs p (stopOf (decodeJalrAdd p)) := by
  have hI := illegalRow_iff_fields p
  rw [hq, hf, hb] at hI
  have hw : slice p 1 0 ≠ 3 := by omega
  rw [stopOf_decodeJalrAdd]
  split_ifs with h h0
  · exact ⟨rfl, hI.2 (h.imp_right .inl)⟩
  · exact eq_ebreak_iff.2 ⟨hq, hf, hb, h0⟩
  · refine ⟨fun hi => ?_, fun hp => ?_, hw⟩
    · have hi : 16 ≤ slice p 11 7 ∨ 16 ≤ slice p 6 2 ∨ _ := hI.1 hi
      omega
    · obtain ⟨-, -, -, h0'⟩ := eq_ebreak_iff.1 hp
      exact h0 h0'

theorem stopsAs_decodeJrMv (hq : slice p 1 0 = 2) (hf : slice p 15 13 = 4)
    (hb : slice p 12 12 = 0) : StopsAs p (stopOf (decodeJrMv p)) := by
  have hI := illegalRow_iff_fields p
  rw [hq, hf, hb] at hI
  have hp : p ≠ 0x9002 := fun h => by
    obtain ⟨-, -, hb1, -⟩ := eq_ebreak_iff.1 h
    omega
  have hJ : IllegalRow p ↔
      16 ≤ slice p 11 7 ∨ 16 ≤ slice p 6 2 ∨ slice p 11 7 = 0 ∧ slice p 6 2 = 0 :=
    hI.trans (by simp [IllegalFields])
  rw [stopOf_decodeJrMv hq hf hb]
  exact stopsAs_ite hJ hp (by omega)

/-- Quadrant 2: one case for each cell, funct3 0 to 7 in order. -/
theorem stopsAs_decodeQuadrant2 (hq : slice p 1 0 = 2) : StopsAs p (stopOf (decodeQuadrant2 p)) := by
  obtain ⟨f, hf⟩ : ∃ f, slice p 15 13 = f := ⟨_, rfl⟩
  have hlt : f < 8 := hf ▸ slice_lt p 15 13
  have hI := illegalRow_iff_fields p
  have hb : f ≠ 4 → p ≠ 0x9002 := fun h4 h => by
    obtain ⟨-, hf4, -⟩ := eq_ebreak_iff.1 h
    omega
  have hw : slice p 1 0 ≠ 3 := by omega
  rw [hq, hf] at hI
  rw [decodeQuadrant2, funct3Of_eq, hf]
  interval_cases f
  · show StopsAs p (stopOf (decodeSlli p))
    rw [stopOf_decodeSlli]
    exact stopsAs_ite hI (hb (by decide)) hw
  · exact ⟨rfl, hI.2 trivial⟩
  · show StopsAs p (stopOf (decodeLwsp p))
    rw [stopOf_decodeLwsp]
    exact stopsAs_ite hI (hb (by decide)) hw
  · exact ⟨rfl, hI.2 trivial⟩
  · show StopsAs p (stopOf (if p.extractLsb' 12 1 = 1 then decodeJalrAdd p else decodeJrMv p))
    have h12 : slice p 12 12 < 2 := slice_lt p 12 12
    simp only [bit12_eq_one_iff]
    split
    next h1 => exact stopsAs_decodeJalrAdd hq hf h1
    next h1 => exact stopsAs_decodeJrMv hq hf (by omega)
  · exact ⟨rfl, hI.2 trivial⟩
  · show StopsAs p (stopOf (decodeSwsp p))
    rw [stopOf_decodeSwsp]
    exact stopsAs_ite hI (hb (by decide)) hw
  · exact ⟨rfl, hI.2 trivial⟩

end

/-- Every parcel's instruction stops as the parcel's row of the table says, or does not stop. -/
theorem stopsAs_decode (p : Parcel) : StopsAs p (stopOf (decode p)) := by
  have hlt : slice p 1 0 < 4 := slice_lt p 1 0
  simp only [decode, quadrantOf_eq_iff]
  simp only [BitVec.ofNat_eq_ofNat, BitVec.toNat_ofNat]
  split_ifs with h0 h1 h2
  · exact stopsAs_decodeQuadrant0 h0
  · exact stopsAs_decodeQuadrant1 h1
  · exact stopsAs_decodeQuadrant2 h2
  · show slice p 1 0 = 3
    omega

/-- A parcel's instruction has a stop exactly when the parcel stops in that way. -/
theorem stopOf_decode_eq_iff (p : Parcel) (x : Option Stop) : stopOf (decode p) = x ↔ StopsAs p x :=
  ⟨fun h => h ▸ stopsAs_decode p, fun h => (stopsAs_decode p).unique h⟩

end Sys2Proof.Machine
end

section
/-!
SUPPORT. Where a step stops and where a run does (00_scope.md R17, 70_reset_and_hazards.md R258), and the
statements of 00_scope.md.
-/

namespace Sys2Proof.Machine

/-! ### How a step traps and is refused -/

/-- A parcel's instruction raises the illegal instruction exactly by the parcel's row, with the parcel. -/
theorem execRaises_illegal_iff (p : Parcel) (info : Word) (s : State) :
    ExecRaises .illegalInstruction info (decode p) s ↔
      IllegalRow p ∧ info = BitVec.ofNat 32 p.toNat := by
  simp only [ExecRaises, stopOf_decode_eq_iff, StopsAs]
  constructor
  · rintro ⟨_, ⟨rfl, hp⟩, hi⟩
    exact ⟨hp, hi⟩
  · rintro ⟨hp, hi⟩
    exact ⟨p, ⟨rfl, hp⟩, hi⟩

theorem execRaises_breakpoint_iff (p : Parcel) (info : Word) (s : State) :
    ExecRaises .breakpoint info (decode p) s ↔ p = 0x9002 ∧ info = s.pc := by
  simp only [ExecRaises, stopOf_decode_eq_iff, StopsAs]

/-- The table of 60 R210 in two parts: what the fetch raises, and what the fetched instruction does. -/
theorem raisedBy_iff (e : Exception) (info : Word) (s : State) :
    RaisedBy e info s ↔ fetch s = .fault (.trap e info s.pc) ∨
      ∃ p, fetch s = .next p ∧ ExecRaises e info (decode p) s := by
  cases e
  case instructionAddressMisaligned => simp [RaisedBy, fetch_eq_fault, ExecRaises]
  case instructionAccessFault =>
    simp only [RaisedBy, fetch_eq_fault, ExecRaises]
    grind
  case illegalInstruction => simp [RaisedBy, fetch_eq_fault, execRaises_illegal_iff]
  case breakpoint => simp [RaisedBy, fetch_eq_fault, execRaises_breakpoint_iff]
  all_goals simp [RaisedBy, fetch_eq_fault, ExecRaises]

/-- A step traps exactly by its row of the table of 60 R210, at pc. -/
theorem step_eq_trap_iff (s : State) (e : Exception) (info q : Word) :
    step s = .fault (.trap e info q) ↔ q = s.pc ∧ RaisedBy e info s := by
  have hq : fetch s = .fault (.trap e info q) ↔ q = s.pc ∧ fetch s = .fault (.trap e info s.pc) := by
    simp only [fetch_eq_fault, Fault.trap.injEq]
    tauto
  rw [step, andThen_eq_fault, raisedBy_iff, hq]
  simp only [exec_eq_trap_iff]
  tauto

/-- A step is refused exactly for the reasons of 30 R70 and 20 R55. -/
theorem step_eq_refused_iff (s : State) (r : Refusal) : step s = .refused r ↔ RefusedFor r s := by
  simp only [step, andThen_eq_refused, exec_eq_refused_iff, stopOf_decode_eq_iff, StopsAs,
    fetch_eq_refused, fetch_eq_next_iff]
  cases r <;> simp [RefusedFor] <;> tauto

/-! ### Where a run stops -/

/-- A run faults exactly where one of its steps does. -/
theorem run_eq_fault (n : Nat) (s : State) (r : Fault) :
    Sys2Proof.core.run n s = .fault r ↔ ∃ k t, k < n ∧ Reaches s k t ∧ step t = .fault r :=
  run_eq_stop (o := .fault r) (by simp) n s

/-- A run is refused exactly where one of its steps is. -/
theorem run_eq_refused (n : Nat) (s : State) (r : Refusal) :
    Sys2Proof.core.run n s = .refused r ↔ ∃ k t, k < n ∧ Reaches s k t ∧ step t = .refused r :=
  run_eq_stop (o := .refused r) (by simp) n s

/-- A run of `n` steps reaches a state unless one of its steps faults or is refused. -/
theorem exists_reaches_iff (s : State) (n : Nat) :
    (∃ t, Reaches s n t) ↔
      ∀ k t, k < n → Reaches s k t → (∀ r, step t ≠ .fault r) ∧ ∀ r, step t ≠ .refused r := by
  constructor
  · rintro ⟨t, ht⟩ k u hk hu
    rw [Reaches] at ht
    refine ⟨fun r hs => ?_, fun r hs => ?_⟩
    · simpa [ht] using (run_eq_fault n s r).2 ⟨k, u, hk, hu, hs⟩
    · simpa [ht] using (run_eq_refused n s r).2 ⟨k, u, hk, hu, hs⟩
  · intro h
    cases ho : Sys2Proof.core.run n s with
    | next t => exact ⟨t, ho⟩
    | fault r =>
      obtain ⟨k, u, hk, hu, hs⟩ := (run_eq_fault n s r).1 ho
      exact absurd hs ((h k u hk hu).1 r)
    | refused r =>
      obtain ⟨k, u, hk, hu, hs⟩ := (run_eq_refused n s r).1 ho
      exact absurd hs ((h k u hk hu).2 r)

/-- Settles O41: the parcel of the two bytes at pc is the one the step fetches and decodes. -/
theorem stepRunsDecodedInstruction : Obligations.StepRunsDecodedInstruction := by
  intro s i rest hfetch hdecode _
  have hi : decode (parcelAt s.pc s) = i := congrArg Prod.fst (Except.ok.inj hdecode)
  rw [step, (fetch_eq_next_iff s _).2 ⟨hfetch, rfl⟩, andThen_next, hi]

/-- Settles O57: a run stops exactly where one of its steps does, and a step stops exactly by its row of
the table or for its reason of refusal. -/
theorem trapsAndRefusalsAreFinal : Obligations.TrapsAndRefusalsAreFinal := by
  refine fun s n => ⟨fun e info q => ?_, fun r => ?_, ?_⟩
  · exact (run_eq_fault n s _).trans (by simp only [step_eq_trap_iff])
  · exact (run_eq_refused n s r).trans (by simp only [step_eq_refused_iff])
  · rw [exists_reaches_iff]
    have htrap (t : State) :
        (∀ r, step t ≠ .fault r) ↔ ∀ e info, ¬ RaisedBy e info t := by
      constructor
      · exact fun h e info hr => h _ ((step_eq_trap_iff t e info _).2 ⟨rfl, hr⟩)
      · rintro h ⟨e, info, q⟩ hs
        exact h e info ((step_eq_trap_iff t e info q).1 hs).2
    simp only [htrap, ne_eq, step_eq_refused_iff]

end Sys2Proof.Machine
end

section
/-!
SUPPORT. Where pc is after an instruction, and that an instruction keeps each part of the invariant
(10_state.md R26, R27, R31; 20_memory.md R43, R49).
-/

namespace Sys2Proof.Machine

/-! ### pc -/

/-- pc after an instruction that goes on: the transfer's target, or the next instruction in memory order
(10 R27). -/
theorem exec_next_pc {i : Instr} {s t : State} (h : exec i s = .next t) :
    t.pc = (transferTarget i s).getD (s.pc + 2) := by
  rcases exec_eq_next h with ⟨rd, a, -, -, -, htarget, -, -, rfl⟩ |
      ⟨a, -, -, -, htarget, -, -, rfl⟩ | ⟨v, -, -, rfl⟩
  · simp [htarget]
  · simp [htarget]
  · exact plainNext_pc i v s

/-- A HINT goes on at the next instruction and does nothing else (30 R107). -/
theorem exec_of_isHint {i : Instr} (h : isHint i = true) (s : State) : exec i s = .next (advance s) := by
  cases i
  case cNopHint | cAddiHint | cLiHint | cLuiHint | cSrli64Hint | cSrai64Hint | cSlliHint | cSlli64Hint
    | cMvHint | cAddHint => rfl
  all_goals exact nomatch h

/-- The sum of two even words is even: 2^32 is. -/
theorem add_even {a b : Word} (ha : a.toNat % 2 = 0) (hb : b.toNat % 2 = 0) :
    (a + b).toNat % 2 = 0 := by
  rw [BitVec.toNat_add]
  omega

/-- A transfer from an even pc goes to an even address (10 R26). -/
theorem transferTarget_even {i : Instr} {s : State} {a : Word} (hpc : s.pc.toNat % 2 = 0)
    (h : transferTarget i s = some a) : a.toNat % 2 = 0 := by
  have hjump (n : BitVec 11) : (s.pc + offsetJump n).toNat % 2 = 0 := add_even hpc (offsetJump_even n)
  have hbranch (n : BitVec 8) : (s.pc + offsetBranch n).toNat % 2 = 0 :=
    add_even hpc (offsetBranch_even n)
  cases i
  case cJ n | cJal n =>
    obtain rfl := Option.some.inj h
    exact hjump n
  case cJr r | cJalr r =>
    obtain rfl := Option.some.inj h
    exact jumpTarget_even _
  case cBeqz r n | cBnez r n =>
    simp only [transferTarget] at h
    split at h
    all_goals cases h
    all_goals exact hbranch n
  all_goals exact nomatch h

/-- An instruction that goes on keeps pc even. -/
theorem exec_keeps_pc_even {i : Instr} {s t : State} (hpc : s.pc.toNat % 2 = 0)
    (h : exec i s = .next t) : t.pc.toNat % 2 = 0 := by
  rw [exec_next_pc h]
  cases htarget : transferTarget i s with
  | none => exact add_even hpc rfl
  | some a => exact transferTarget_even hpc htarget

/-! ### Memory and `Dirty` -/

/-- An instruction that goes on keeps the canonical forms of memory and `Dirty`. -/
theorem exec_keeps_wf {i : Instr} {s t : State} (hwf : Memory.wf s.mem ∧ DirtySet.wf s.dirty)
    (h : exec i s = .next t) : Memory.wf t.mem ∧ DirtySet.wf t.dirty := by
  rcases exec_eq_next h with ⟨rd, a, -, -, -, -, -, -, rfl⟩ | ⟨a, -, -, -, -, -, -, rfl⟩ |
      ⟨v, -, -, rfl⟩
  · simpa using hwf
  · rw [advance_mem, advance_dirty]
    exact storeWord_wf s a _ hwf
  · simpa using hwf

/-- A byte that an instruction adds to `Dirty` could be written: the store has checked it (20 R43). -/
theorem exec_keeps_dirty_writable {i : Instr} {s t : State}
    (hdirty : ∀ a, isDirty a s = true → permits .write a s = true) (h : exec i s = .next t) (b : Word)
    (hb : isDirty b t = true) : permits .write b t = true := by
  rcases exec_eq_next h with ⟨rd, a, -, -, -, -, -, -, rfl⟩ | ⟨a, -, -, -, -, -, hpermit, rfl⟩ |
      ⟨v, -, -, rfl⟩
  · simpa using hdirty b (by simpa using hb)
  · obtain ⟨h0, h1, h2, h3⟩ := (permitsWord_iff .write a s).1 hpermit
    rw [isDirty_advance, isDirty_storeWord] at hb
    rw [permits_advance, permits_storeWord]
    rcases hb with rfl | rfl | rfl | rfl | hb
    · exact h3
    · exact h2
    · exact h1
    · exact h0
    · exact hdirty b hb
  · simp only [isDirty, permits, plainNext_dirty, plainNext_memMap] at hb ⊢
    exact hdirty b hb

/-- An instruction that goes on keeps the invariant. -/
theorem exec_keeps_inv {i : Instr} {s t : State} (hs : Inv s) (h : exec i s = .next t) : Inv t := by
  obtain ⟨hpc, hmem, hset, hdirty⟩ := hs
  obtain ⟨hmem', hset'⟩ := exec_keeps_wf ⟨hmem, hset⟩ h
  exact ⟨exec_keeps_pc_even hpc h, hmem', hset', exec_keeps_dirty_writable hdirty h⟩

/-- Settles O49: a step that goes on is one instruction's, and each part of the invariant is kept by
every instruction. -/
theorem stepKeepsInvariant : Obligations.StepKeepsInvariant := by
  intro s t hs hstep
  exact exec_keeps_inv hs ((step_eq_next s t).1 hstep).2

/-- Settles O45: the state after an instruction that goes on has pc at the target or two bytes on, every
trap carries pc, and a HINT only advances. -/
theorem pcAdvancesByTwoOrTransfers : Obligations.PcAdvancesByTwoOrTransfers := by
  refine fun i s => ⟨fun t h => exec_next_pc h, fun t h htarget hpc => ?_, fun e info q h => ?_,
    fun hhint => ?_⟩
  · rw [exec_next_pc h, htarget, hpc]
    rfl
  · exact ((exec_eq_trap_iff i s e info q).1 h).1
  · exact ⟨advance s, exec_of_isHint hhint s, advance_pc s⟩

end Sys2Proof.Machine
end

section
/-!
SUPPORT. Registers and `MemMap` of the reset state, and that the canonical form of a memory is determined by
its bytes (10_state.md R21, R31; log 3), with the statements of 10_state.md about them.
-/

namespace Sys2Proof.Machine

/-- Settles O36: x0 has no storage, and a write changes the written register alone. -/
theorem zeroRegisterIsHardwired : Obligations.ZeroRegisterIsHardwired := by
  refine fun r q v s => ⟨readReg_zero s, writeReg_zero s v, fun hr => ?_, fun hq => ?_⟩
  · exact readReg_writeReg_self s v r fun h => hr (Fin.ext h)
  · exact readReg_writeReg_of_ne s v r q hq

/-! ### The reset state -/

theorem readReg_reset (r : RegIdx) : readReg r State.reset = 0 := by
  unfold readReg
  split
  · rfl
  · simp [State.reset, Config.resetRegister]

/-- The one region of `resetMemMap` holds every address and gives every permission. -/
theorem permits_reset (p : Perm) (a : Word) : permits p a State.reset = true := by
  have hlow : 0#32 ≤ a := by bv_omega
  have hhigh : a ≤ 0xFFFFFFFF#32 := by bv_omega
  cases p <;> simp [permits, State.reset, resetMemMap, regionHolds, regionGrants, hlow, hhigh]

/-- Settles O52: `State.reset` is the launch from the values chosen in log 1 to 4. -/
theorem resetValuesAreTheModelsChoice : Obligations.ResetValuesAreTheModelsChoice :=
  ⟨rfl, readReg_reset, fun _ => rfl, fun _ => rfl, permits_reset⟩

/-! ### Canonical memories -/

/-- A listed byte of a memory with rising addresses is the one that is read. -/
theorem lookupByte_of_mem {m : Memory} {a : Nat} {v : Byte} (hm : (m.map Prod.fst).Pairwise (· < ·))
    (h : (a, v) ∈ m) : lookupByte m a = v := by
  induction m with
  | nil => cases h
  | cons c m ih =>
    obtain ⟨k, w⟩ := c
    obtain ⟨hhead, htail⟩ := List.pairwise_cons.1 hm
    rcases List.mem_cons.1 h with h | h
    · cases h
      simp [lookupByte]
    · have hk : k < a := hhead a (List.mem_map_of_mem h)
      rw [lookupByte, if_neg hk.ne]
      exact ih htail h

/-- A byte that is not what an unlisted address reads as is listed. -/
theorem mem_of_lookupByte {m : Memory} {a : Nat} (h : lookupByte m a ≠ Config.unlistedByte) :
    (a, lookupByte m a) ∈ m := by
  induction m with
  | nil => exact absurd rfl h
  | cons c m ih =>
    obtain ⟨k, w⟩ := c
    by_cases hk : k = a
    · simp [lookupByte, hk]
    · rw [lookupByte, if_neg hk] at h ⊢
      exact List.mem_cons_of_mem _ (ih h)

/-- The entries of a canonical memory are its bytes that do not read as unlisted ones. -/
theorem mem_iff_lookupByte {m : Memory} (hm : Memory.wf m) (a : Nat) (v : Byte) :
    (a, v) ∈ m ↔ a < 2 ^ 32 ∧ lookupByte m a = v ∧ v ≠ Config.unlistedByte := by
  constructor
  · intro h
    obtain ⟨ha, hv⟩ := hm.2 (a, v) h
    exact ⟨ha, lookupByte_of_mem hm.1 h, hv⟩
  · rintro ⟨-, rfl, hv⟩
    exact mem_of_lookupByte hv

/-- Canonical memories with the same entries are equal: both list them by rising address. -/
theorem Memory.eq_of_mem_iff {m n : Memory} (hm : Memory.wf m) (hn : Memory.wf n)
    (h : ∀ c, c ∈ m ↔ c ∈ n) : m = n := by
  have hnodup {l : Memory} (hl : Memory.wf l) : l.Nodup :=
    List.Nodup.of_map Prod.fst (hl.1.imp Nat.ne_of_lt)
  have hperm : m.Perm n := (List.perm_ext_iff_of_nodup (hnodup hm) (hnodup hn)).2 h
  exact hperm.eq_of_pairwise (fun _ _ _ _ hlt hgt => absurd hgt hlt.asymm)
    (List.pairwise_map.1 hm.1) (List.pairwise_map.1 hn.1)

/-- Settles O59: equal bytes are equal entries, and equal entries are equal lists. -/
theorem equalReadsAreEqualMemories : Obligations.EqualReadsAreEqualMemories := by
  refine fun s t hs ht hread => Memory.eq_of_mem_iff hs ht fun ⟨a, v⟩ => ?_
  rw [mem_iff_lookupByte hs, mem_iff_lookupByte ht]
  refine and_congr_right fun ha => ?_
  have hbyte : lookupByte s.mem a = lookupByte t.mem a := by
    simpa only [byteAt, BitVec.toNat_ofNat, Nat.mod_eq_of_lt ha] using hread (BitVec.ofNat 32 a)
  rw [hbyte]

end Sys2Proof.Machine
end

section
/-!
SUPPORT. What an instruction depends on: each shared operation gives related outcomes in two states that
agree on pc, memory, `Dirty`, `MemMap` and the registers read (10_state.md R24).
-/

namespace Sys2Proof.Machine

/-! ### The operations in two states that agree -/

section
variable {rs : List RegIdx} {s1 s2 : State}

theorem AgreeOnRegs.pc_eq (h : AgreeOnRegs rs s1 s2) : s1.pc = s2.pc := by
  obtain ⟨hpc, -⟩ := h
  exact hpc

theorem AgreeOnRegs.read_one {r : RegIdx} (h : AgreeOnRegs [r] s1 s2) :
    readReg r s1 = readReg r s2 := by
  obtain ⟨-, -, -, -, hregs⟩ := h
  exact hregs r List.mem_cons_self

theorem AgreeOnRegs.read_two {r q : RegIdx} (h : AgreeOnRegs [r, q] s1 s2) :
    readReg r s1 = readReg r s2 ∧ readReg q s1 = readReg q s2 := by
  obtain ⟨-, -, -, -, hregs⟩ := h
  exact ⟨hregs r List.mem_cons_self, hregs q (List.mem_cons_of_mem _ List.mem_cons_self)⟩

/-- Agreement on any registers gives agreement on everything but the registers. -/
theorem AgreeOnRegs.nil (h : AgreeOnRegs rs s1 s2) : AgreeOnRegs [] s1 s2 := by
  obtain ⟨hpc, hmem, hdirty, hmap, -⟩ := h
  exact ⟨hpc, hmem, hdirty, hmap, fun _ hr => absurd hr List.not_mem_nil⟩

/-- States that agree still do after pc is set to one target. -/
theorem AgreeOnRegs.after_setPc (h : AgreeOnRegs rs s1 s2) {a1 a2 : Word} (ha : a1 = a2) :
    AgreeOnRegs rs (setPc a1 s1) (setPc a2 s2) := by
  obtain ⟨-, hmem, hdirty, hmap, hregs⟩ := h
  exact ⟨ha, hmem, hdirty, hmap, hregs⟩

/-- States that agree still do after the pc's advance. -/
theorem AgreeOnRegs.after_advance (h : AgreeOnRegs rs s1 s2) : AgreeOnRegs rs (advance s1) (advance s2) :=
  h.after_setPc (congrArg (· + 2) h.pc_eq)

/-- States that agree also agree on a register after one value is written to it. -/
theorem AgreeOnRegs.after_writeReg (h : AgreeOnRegs rs s1 s2) (r : RegIdx) {v1 v2 : Word} (hv : v1 = v2) :
    AgreeOnRegs [r] (writeReg r v1 s1) (writeReg r v2 s2) := by
  obtain ⟨hpc, hmem, hdirty, hmap, -⟩ := h
  refine ⟨by simpa using hpc, by simpa using hmem, by simpa using hdirty, by simpa using hmap,
    fun q hq => ?_⟩
  obtain rfl := List.mem_singleton.1 hq
  by_cases h0 : q.val = 0
  · obtain rfl : q = 0 := Fin.ext h0
    rfl
  · rw [readReg_writeReg_self _ _ _ h0, readReg_writeReg_self _ _ _ h0, hv]

/-- States that agree still do after one word is stored. -/
theorem AgreeOnRegs.after_storeWord (h : AgreeOnRegs rs s1 s2) (a v : Word) :
    AgreeOnRegs rs (storeWord a v s1) (storeWord a v s2) := by
  obtain ⟨hpc, hmem, hdirty, hmap, hregs⟩ := h
  refine ⟨by simpa using hpc, ?_, ?_, by simpa using hmap, by simpa using hregs⟩
  · simp only [storeWord, storeDirty_mem, hmem]
  · simp only [storeWord, storeDirty_dirty, hdirty]

theorem AgreeOnRegs.byteAt_eq (h : AgreeOnRegs rs s1 s2) (a : Word) : byteAt a s1 = byteAt a s2 := by
  obtain ⟨-, hmem, -⟩ := h
  rw [byteAt, byteAt, hmem]

theorem AgreeOnRegs.permitsWord_eq (h : AgreeOnRegs rs s1 s2) (p : Perm) (a : Word) :
    permitsWord p a s1 = permitsWord p a s2 := by
  obtain ⟨-, -, -, hmap, -⟩ := h
  simp only [permitsWord, permits, hmap]

/-- Exceptions with the same information are raised alike. -/
theorem AgreeOnRegs.raise_eq {α : Type} (h : AgreeOnRegs rs s1 s2) (e : Exception) (info : Word) :
    (raise e info s1 : Outcome α) = raise e info s2 := by
  rw [raise, raise, h.pc_eq]

/-- A load from one address reads the same word or faults alike. -/
theorem AgreeOnRegs.memRead_eq (h : AgreeOnRegs rs s1 s2) (a : Word) : memRead a s1 = memRead a s2 := by
  simp only [memRead, wordAt, h.permitsWord_eq, h.byteAt_eq, h.raise_eq]

end

/-! ### The meanings' shapes in two states that agree -/

section
variable {rs : List RegIdx} {s1 s2 : State} {a1 a2 v1 v2 : Word}

/-- A register write of one value, and the pc's advance. -/
theorem related_writeAndAdvance (h : AgreeOnRegs rs s1 s2) (r : RegIdx) (hv : v1 = v2) :
    OutcomesRelated (AgreeOnRegs [r]) (writeAndAdvance r v1 s1) (writeAndAdvance r v2 s2) :=
  (h.after_writeReg r hv).after_advance

/-- A load from one address. -/
theorem related_loadInto (h : AgreeOnRegs rs s1 s2) (r : RegIdx) (ha : a1 = a2) :
    OutcomesRelated (AgreeOnRegs [r]) (loadInto r a1 s1) (loadInto r a2 s2) := by
  subst ha
  rw [loadInto, loadInto, h.memRead_eq]
  cases memRead a1 s2 with
  | next v => exact related_writeAndAdvance h r rfl
  | fault f => rfl
  | refused f => rfl

/-- A store of one word to one address. -/
theorem related_storeFrom (h : AgreeOnRegs rs s1 s2) (hv : v1 = v2) (ha : a1 = a2) :
    OutcomesRelated (AgreeOnRegs []) (storeFrom v1 a1 s1) (storeFrom v2 a2 s2) := by
  subst hv ha
  simp only [storeFrom, memWrite, h.permitsWord_eq, h.raise_eq]
  split
  · rfl
  · split
    · exact (h.nil.after_storeWord a1 v1).after_advance
    · rfl

/-- A choice by one test. -/
theorem related_ite {R : State → State → Prop} {b1 b2 : Bool} {o1 o2 p1 p2 : Outcome State}
    (hb : b1 = b2) (ho : OutcomesRelated R o1 o2) (hp : OutcomesRelated R p1 p2) :
    OutcomesRelated R (if b1 then o1 else p1) (if b2 then o2 else p2) := by
  subst hb
  cases b1
  · exact hp
  · exact ho

/-- A stop of every step. -/
theorem related_stop {R : State → State → Prop} (h : AgreeOnRegs rs s1 s2) (x : Stop) :
    OutcomesRelated R (x.outcome s1) (x.outcome s2) := by
  cases x with
  | illegal p => exact congrArg (Fault.trap _ _) h.pc_eq
  | breakpoint => exact congrArg (fun q => Fault.trap _ q q) h.pc_eq
  | wide => exact congrArg Refusal.wideInstruction h.pc_eq

end

/-- An instruction has related outcomes in two states that agree on the registers it reads (10 R24). -/
theorem exec_related {i : Instr} {s1 s2 : State} (h : AgreeOnRegs (regsRead i) s1 s2) :
    OutcomesRelated (AgreeOnRegs (regWritten i).toList) (exec i s1) (exec i s2) := by
  cases hi : stopOf i with
  | some x =>
    rw [(exec_of_stopOf hi s1).1, (exec_of_stopOf hi s2).1]
    exact related_stop h x
  | none =>
    have hnext : nextPc s1 = nextPc s2 := congrArg (· + 2) h.pc_eq
    have htarget (offset : Word) : s1.pc + offset = s2.pc + offset := congrArg (· + offset) h.pc_eq
    cases i
    case cLi | cLui => exact related_writeAndAdvance h _ rfl
    case cAddi4spn | cAddi16sp => exact related_writeAndAdvance h _ (by rw [stackReg, h.read_one])
    case cAddi | cSrli | cSrai | cAndi | cSlli | cMv =>
      exact related_writeAndAdvance h _ (by rw [h.read_one])
    case cSub | cXor | cOr | cAnd | cAdd =>
      exact related_writeAndAdvance h _ (by rw [h.read_two.1, h.read_two.2])
    case cLw => exact related_loadInto h _ (by rw [h.read_one])
    case cLwsp => exact related_loadInto h _ (by rw [stackReg, h.read_one])
    case cSw => exact related_storeFrom h h.read_two.2 (by rw [h.read_two.1])
    case cSwsp => exact related_storeFrom h h.read_two.2 (by rw [stackReg, h.read_two.1])
    case cJ => exact h.nil.after_setPc (htarget _)
    case cJr => exact h.nil.after_setPc (by rw [h.read_one])
    case cJal => exact (h.after_writeReg linkReg hnext).after_setPc (htarget _)
    case cJalr => exact (h.after_writeReg linkReg hnext).after_setPc (by rw [h.read_one])
    case cBeqz =>
      exact related_ite (by rw [h.read_one]) (h.nil.after_setPc (htarget _)) h.nil.after_advance
    case cBnez =>
      exact related_ite (by rw [h.read_one]) h.nil.after_advance (h.nil.after_setPc (htarget _))
    case cNop | cNopHint | cAddiHint | cLiHint | cLuiHint | cSrli64Hint | cSrai64Hint | cSlliHint
      | cSlli64Hint | cMvHint | cAddHint => exact h.nil.after_advance
    all_goals exact nomatch hi

/-- A register that the instruction does not write is as before. -/
theorem exec_keeps_readReg {i : Instr} {s t : State} (h : exec i s = .next t) {r : RegIdx}
    (hr : regWritten i ≠ some r) : readReg r t = readReg r s := by
  rcases exec_eq_next h with ⟨rd, a, hrd, -, -, -, -, -, rfl⟩ | ⟨a, -, -, -, -, -, -, rfl⟩ |
      ⟨v, -, -, rfl⟩
  · have hne : r ≠ rd := fun heq => hr (heq ▸ hrd)
    rw [readReg_advance, readReg_writeReg_of_ne _ _ _ _ hne]
  · rw [readReg_advance, readReg_storeWord]
  · exact readReg_plainNext i v s hr

/-- Settles O47: agreement on the registers read gives related outcomes, and no other register than the one
written changes. -/
theorem onlyTheNamedRegistersMatter : Obligations.OnlyTheNamedRegistersMatter :=
  ⟨fun _ _ _ h => exec_related h, fun _ _ _ h _ hr => exec_keeps_readReg h hr⟩

end Sys2Proof.Machine
end

section
/-!
SUPPORT. The accesses of 20_memory.md: the word load, the word store and the fetch in the words of R42 to
R44, and a word as two parcels (R57).
-/

namespace Sys2Proof.Machine

/-! ### The word load and the word store -/

/-- A register write and the pc's advance leave all of memory. -/
theorem sameMemory_advance_writeReg (r : RegIdx) (v : Word) (s : State) :
    SameMemory s (advance (writeReg r v s)) :=
  ⟨fun a => by simp, by simp, by simp⟩

/-- Settles O37: `MemRead` is decided by alignment and permission, and a load changes a register and pc. -/
theorem memReadFollowsRule : Obligations.MemReadFollowsRule := by
  refine fun a s => ⟨fun halign => ?_, fun halign hperm => ?_, fun halign hperm => ?_,
    fun rd t hload => ?_⟩
  · exact (memRead_eq_fault a s _).2 (.inl ⟨halign, rfl⟩)
  · rw [wordPermitted_iff, Bool.not_eq_true] at hperm
    exact (memRead_eq_fault a s _).2 (.inr ⟨halign, hperm, rfl⟩)
  · rw [wordPermitted_iff] at hperm
    exact ⟨wordAt a s, (memRead_eq_next a s _).2 ⟨halign, hperm, rfl⟩, wordAt_toNat a s⟩
  · obtain ⟨-, -, rfl⟩ := (loadInto_eq_next rd a s t).1 hload
    exact sameMemory_advance_writeReg rd _ s

/-- Settles O38: `MemWrite` is decided by alignment and permission, and what it goes on in is the state of
`storeWord`. -/
theorem memWriteFollowsRule : Obligations.MemWriteFollowsRule := by
  refine fun a v s => ⟨fun halign => ?_, fun halign hperm => ?_, fun halign hperm => ?_⟩
  · exact (memWrite_eq_fault a v s _).2 (.inl ⟨halign, rfl⟩)
  · rw [wordPermitted_iff, Bool.not_eq_true] at hperm
    exact (memWrite_eq_fault a v s _).2 (.inr ⟨halign, hperm, rfl⟩)
  · rw [wordPermitted_iff] at hperm
    exact ⟨storeWord a v s, (memWrite_eq_next a v s _).2 ⟨halign, hperm, rfl⟩,
      storesWord_storeWord a v s, fun r => readReg_storeWord s a v r, storeWord_pc s a v⟩

/-! ### The fetch -/

/-- Permissions are read from `MemMap` alone. -/
theorem permits_congr {s t : State} (h : t.memMap = s.memMap) (p : Perm) (a : Word) :
    permits p a t = permits p a s := by
  rw [permits, permits, h]

/-- Whether a byte was stored to is read from `Dirty` alone. -/
theorem isDirty_congr {s t : State} (h : t.dirty = s.dirty) (a : Word) : isDirty a t = isDirty a s := by
  rw [isDirty, isDirty, h]

/-- The fetch reads pc, `MemMap`, `Dirty` and, where they are executable, the two bytes at pc. -/
theorem fetch_congr {s t : State} (hpc : t.pc = s.pc) (hmap : t.memMap = s.memMap)
    (hdirty : t.dirty = s.dirty)
    (hparcel : permits .execute s.pc s = true → permits .execute (s.pc + 1) s = true →
      parcelAt s.pc t = parcelAt s.pc s) :
    fetch t = fetch s := by
  simp only [fetch, raise, hpc, permits_congr hmap, isDirty_congr hdirty]
  by_cases hperm : permits .execute s.pc s = true ∧ permits .execute (s.pc + 1) s = true
  · obtain ⟨hlow, hhigh⟩ := hperm
    rw [hparcel hlow hhigh]
  · simp only [← Bool.and_eq_true, Bool.not_eq_true] at hperm
    simp only [hperm, Bool.not_false, if_true]

/-- A parcel is its two bytes, the lower address less significant (20 R41). -/
theorem parcelAt_toNat (a : Word) (s : State) :
    (parcelAt a s).toNat = (byteAt a s).toNat + 2 ^ 8 * (byteAt (a + 1) s).toNat := by
  rw [parcelAt, parcelOfBytes_toNat]
  omega

/-- Settles O39: how the fetch faults, is refused and goes on, and what it reads. -/
theorem fetchFollowsRule : Obligations.FetchFollowsRule := by
  refine fun s => ⟨fun hodd => ?_, fun heven hperm => ?_, fun heven hlow hhigh hdirty => ?_,
    fun hfetch => ?_, fun t hpc hmap hdirty hlow hhigh => ?_⟩
  · exact (fetch_eq_fault s _).2 (.inl ⟨hodd, rfl⟩)
  · rw [Classical.not_and_iff_not_or_not, Bool.not_eq_true, Bool.not_eq_true] at hperm
    exact (fetch_eq_fault s _).2 (.inr ⟨heven, hperm, rfl⟩)
  · exact (fetch_eq_refused s _).2 ⟨heven, hlow, hhigh, hdirty, rfl⟩
  · exact ⟨parcelAt s.pc s, (fetch_eq_next_iff s _).2 ⟨hfetch, rfl⟩, parcelAt_toNat s.pc s⟩
  · exact fetch_congr hpc hmap hdirty fun _ _ => by rw [parcelAt, parcelAt, hlow, hhigh]

/-! ### A word as two parcels -/

/-- A word is its two parcels, the lower address less significant (20 R57). -/
theorem wordAt_toNat_parcels (a : Word) (s : State) :
    (wordAt a s).toNat = (parcelAt a s).toNat + 2 ^ 16 * (parcelAt (a + 2) s).toNat := by
  have h3 : a + 2 + 1 = a + 3 := BitVec.add_assoc a 2 1
  rw [wordAt_toNat, parcelAt_toNat, parcelAt_toNat, h3]
  omega

/-- A word that was stored is read back. -/
theorem wordAt_storeWord (a v : Word) (s : State) : wordAt a (storeWord a v s) = v := by
  obtain ⟨h0, h1, h2, h3, -⟩ := storesWord_storeWord a v s
  have hlt := v.isLt
  apply BitVec.eq_of_toNat_eq
  rw [wordAt_toNat, h0, h1, h2, h3]
  omega

/-- Settles O40: both halves of a word are parcels, and the two bytes of each half of a stored word are in
`Dirty`, which refuses their fetch. -/
theorem wordIsTwoParcels : Obligations.WordIsTwoParcels := by
  refine ⟨fun a s v hread => ?_, fun a w s t hwrite => ?_⟩
  · obtain ⟨-, -, rfl⟩ := (memRead_eq_next a s v).1 hread
    exact wordAt_toNat_parcels a s
  · obtain ⟨halign, -, rfl⟩ := (memWrite_eq_next a w s t).1 hwrite
    have hword : (parcelAt a (storeWord a w s)).toNat +
        2 ^ 16 * (parcelAt (a + 2) (storeWord a w s)).toNat = w.toNat := by
      rw [← wordAt_toNat_parcels, wordAt_storeWord]
    have hlow := (parcelAt a (storeWord a w s)).isLt
    refine ⟨by omega, by omega, fun b hb hlowPerm hhighPerm => ?_⟩
    have heven : b.toNat % 2 = 0 := by
      rcases hb with rfl | rfl
      · omega
      · exact add_even (by omega) rfl
    have hdirty : isDirty b (storeWord a w s) = true :=
      (isDirty_storeWord a w b s).2 (by tauto)
    exact (fetch_eq_refused _ _).2 ⟨heven, hlowPerm, hhighPerm, .inl hdirty, rfl⟩

end Sys2Proof.Machine
end

section
/-!
SUPPORT. What an instruction, a step and a run store (20_memory.md R43, R47, R49, R52, R55): only a store
changes memory and `Dirty`, so both are told by the steps that store.
-/

namespace Sys2Proof.Machine

/-! ### What an instruction and a step store -/

/-- An instruction without a store address leaves all of memory. -/
theorem exec_sameMemory {i : Instr} {s t : State} (h : exec i s = .next t)
    (hstore : storeAddress i s = none) : SameMemory s t := by
  rcases exec_eq_next h with ⟨rd, a, -, -, -, -, -, -, rfl⟩ | ⟨a, -, -, haddr, -⟩ | ⟨v, -, -, rfl⟩
  · exact sameMemory_advance_writeReg rd _ s
  · rw [hstore] at haddr
    cases haddr
  · exact sameMemory_plainNext i v s

/-- An instruction with a store address stores its word there, which is writable. -/
theorem exec_storesWord {i : Instr} {s t : State} {a : Word} (h : exec i s = .next t)
    (hstore : storeAddress i s = some a) :
    StoresWord a (storeData i s) s t ∧ WordPermitted .write a s := by
  rcases exec_eq_next h with ⟨rd, b, -, -, haddr, -⟩ | ⟨b, -, -, haddr, -, -, hperm, rfl⟩ |
      ⟨v, -, haddr, -⟩
  · rw [hstore] at haddr
    cases haddr
  · obtain rfl : b = a := Option.some.inj (haddr.symm.trans hstore)
    exact ⟨storesWord_storeWord b (storeData i s) s, (wordPermitted_iff .write b s).2 hperm⟩
  · rw [hstore] at haddr
    cases haddr

/-- Settles O46: the two cases of an instruction that goes on. -/
theorem onlyStoresChangeMemory : Obligations.OnlyStoresChangeMemory := by
  refine fun i s t h => ⟨fun hstore => exec_sameMemory h hstore, fun a hstore => ?_⟩
  obtain ⟨hstores, -⟩ := exec_storesWord h hstore
  exact hstores

/-- A step that goes on leaves all of memory and stores to no byte, or stores a word to writable bytes and
to no other. -/
theorem step_stores {s t : State} (h : step s = .next t) :
    (SameMemory s t ∧ ∀ b, ¬ StepStoresTo s b) ∨
      ∃ a v, StoresWord a v s t ∧ WordPermitted .write a s ∧ ∀ b, StepStoresTo s b ↔ InWord a b := by
  obtain ⟨hfetch, hexec⟩ := (step_eq_next s t).1 h
  have hparcel : fetch s = .next (parcelAt s.pc s) := (fetch_eq_next_iff s _).2 ⟨hfetch, rfl⟩
  have hiff (b : Word) : StepStoresTo s b ↔
      ∃ a, storeAddress (decode (parcelAt s.pc s)) s = some a ∧ InWord a b := by
    simp [StepStoresTo, hparcel, h]
  cases hstore : storeAddress (decode (parcelAt s.pc s)) s with
  | none =>
    refine .inl ⟨exec_sameMemory hexec hstore, fun b => ?_⟩
    simp [hiff, hstore]
  | some a =>
    obtain ⟨hstores, hperm⟩ := exec_storesWord hexec hstore
    refine .inr ⟨a, _, hstores, hperm, fun b => ?_⟩
    simp [hiff, hstore]

theorem step_memMap {s t : State} (h : step s = .next t) : t.memMap = s.memMap := by
  rcases step_stores h with ⟨⟨-, -, hmap⟩, -⟩ | ⟨a, v, ⟨-, -, -, -, -, -, hmap⟩, -⟩
  · exact hmap
  · exact hmap

/-- A byte that a step does not store to is as before. -/
theorem step_keeps_byteAt {s t : State} {b : Word} (h : step s = .next t) (hb : ¬ StepStoresTo s b) :
    byteAt b t = byteAt b s := by
  rcases step_stores h with ⟨⟨hbytes, -⟩, -⟩ | ⟨a, v, ⟨-, -, -, -, hbytes, -⟩, -, hiff⟩
  · exact hbytes b
  · exact hbytes b fun hin => hb ((hiff b).2 hin)

/-- A step adds to `Dirty` the bytes it stores to (20 R43). -/
theorem step_isDirty_iff {s t : State} (h : step s = .next t) (b : Word) :
    isDirty b t = true ↔ isDirty b s = true ∨ StepStoresTo s b := by
  rcases step_stores h with ⟨⟨-, hdirty, -⟩, hnone⟩ | ⟨a, v, ⟨-, -, -, -, -, hdirty, -⟩, -, hiff⟩
  · rw [isDirty_congr hdirty, or_iff_left (hnone b)]
  · rw [hdirty b, hiff b]

/-- A byte that a step stores to was writable (20 R43). -/
theorem StepStoresTo.permits_write {s : State} {b : Word} (h : StepStoresTo s b) :
    permits .write b s = true := by
  have ⟨_, _, t, _, _, _, hstep⟩ := h
  rcases step_stores hstep with ⟨-, hnone⟩ | ⟨a, v, -, hperm, hiff⟩
  · exact absurd h (hnone b)
  · exact hperm b ((hiff b).1 h)

/-- Settles O55: a byte that a step changed is one it stored to. -/
theorem stepRespectsMemMap : Obligations.StepRespectsMemMap := by
  refine fun s t h => ⟨step_memMap h, fun b hchanged => ?_⟩
  have hb : StepStoresTo s b := by
    by_contra hb
    exact hchanged (step_keeps_byteAt h hb)
  exact ⟨hb.permits_write, (step_isDirty_iff h b).2 (.inr hb)⟩

/-! ### What a run stores -/

/-- Over a run, `Dirty` gains exactly the bytes that a step of the run stores to (20 R55). -/
theorem reaches_isDirty_iff {s t : State} {n : Nat} (h : Reaches s n t) (b : Word) :
    isDirty b t = true ↔
      isDirty b s = true ∨ ∃ k u, k < n ∧ Reaches s k u ∧ StepStoresTo u b := by
  induction n generalizing t with
  | zero =>
    obtain rfl := (reaches_zero s t).1 h
    simp
  | succ n ih =>
    obtain ⟨w, hw, hstep⟩ := (reaches_snoc n s t).1 h
    rw [step_isDirty_iff hstep, ih hw, or_assoc]
    refine or_congr_right ⟨?_, ?_⟩
    · rintro (⟨k, u, hk, hu, hb⟩ | hb)
      · exact ⟨k, u, by omega, hu, hb⟩
      · exact ⟨n, w, by omega, hw, hb⟩
    · rintro ⟨k, u, hk, hu, hb⟩
      obtain hk | rfl : k < n ∨ k = n := by omega
      · exact .inl ⟨k, u, hk, hu, hb⟩
      · exact .inr (reaches_unique hu hw ▸ hb)

/-- A byte that no step of a run stores to is as at the start (20 R52). -/
theorem reaches_keeps_byteAt {s u : State} {n : Nat} {b : Word} (h : Reaches s n u)
    (hb : ∀ k t, k < n → Reaches s k t → ¬ StepStoresTo t b) : byteAt b u = byteAt b s := by
  induction n generalizing u with
  | zero => rw [(reaches_zero s u).1 h]
  | succ n ih =>
    obtain ⟨w, hw, hstep⟩ := (reaches_snoc n s u).1 h
    rw [step_keeps_byteAt hstep (hb n w (by omega) hw), ih hw fun k t hk => hb k t (by omega)]

/-- Settles O54: a launch starts with `Dirty` empty, and each step adds the bytes it stores to. -/
theorem dirtyIsTheBytesStoredSinceLaunch : Obligations.DirtyIsTheBytesStoredSinceLaunch := by
  refine fun pc m image regs n t h => ⟨fun b => ?_, fun b u hstep hb => ?_,
    fun heven hlow hhigh hdirty => ?_⟩
  · have hlaunch : isDirty b (State.launch pc m image regs) ≠ true := by simp [isDirty]
    rw [reaches_isDirty_iff h, or_iff_right hlaunch]
  · exact (step_isDirty_iff hstep b).2 (.inl hb)
  · exact step_of_fetch_refused ((fetch_eq_refused t _).2 ⟨heven, hlow, hhigh, hdirty, rfl⟩)

/-- Settles O56: the step of the store writes its word, and the bytes that no later step stores to stay. -/
theorem loadsSeeTheLatestStore : Obligations.LoadsSeeTheLatestStore := by
  refine ⟨fun s u n b => reaches_keeps_byteAt,
    fun s t u n p a b hfetch hstore _ hstep hreach hkept => ⟨?_, reaches_keeps_byteAt hreach hkept⟩⟩
  obtain ⟨-, rfl⟩ := (fetch_eq_next_iff s p).1 hfetch
  obtain ⟨-, hexec⟩ := (step_eq_next s t).1 hstep
  obtain ⟨hstores, -⟩ := exec_storesWord hexec hstore
  exact hstores

end Sys2Proof.Machine
end

section
/-!
SUPPORT. Bytes with neither read nor execute permission (20_memory.md R42 to R44, R49): what a step does
commutes with changing them.
-/

namespace Sys2Proof.Machine

/-! ### Exchanging memory -/

/-- The state with another memory, everything else as it is. -/
def withMem (m : Memory) (s : State) : State := { s with mem := m }

/-- An outcome with another memory where it goes on. -/
def outcomeWithMem (m : Memory) : Outcome State → Outcome State
  | .next t => .next (withMem m t)
  | .fault r => .fault r
  | .refused r => .refused r

section
variable (m : Memory) (s : State) (a v : Word) (r : RegIdx) (p : Perm)

@[simp] theorem withMem_pc : (withMem m s).pc = s.pc := rfl
@[simp] theorem withMem_dirty : (withMem m s).dirty = s.dirty := rfl
@[simp] theorem withMem_memMap : (withMem m s).memMap = s.memMap := rfl
@[simp] theorem readReg_withMem : readReg r (withMem m s) = readReg r s := rfl
@[simp] theorem permits_withMem : permits p a (withMem m s) = permits p a s := rfl

theorem writeReg_withMem : writeReg r v (withMem m s) = withMem m (writeReg r v s) := by
  unfold writeReg
  split <;> rfl

theorem writeAndAdvance_withMem :
    writeAndAdvance r v (withMem m s) = outcomeWithMem m (writeAndAdvance r v s) := by
  rw [writeAndAdvance, writeReg_withMem]
  rfl

theorem setPc_writeReg_withMem (t : Word) :
    (.next (setPc t (writeReg r v (withMem m s))) : Outcome State) =
      outcomeWithMem m (.next (setPc t (writeReg r v s))) := by
  rw [writeReg_withMem]
  rfl

/-- A choice by one test. -/
theorem ite_withMem {b : Bool} {o1 o2 p1 p2 : Outcome State} (ho : o1 = outcomeWithMem m p1)
    (hp : o2 = outcomeWithMem m p2) :
    (if b then o1 else o2) = outcomeWithMem m (if b then p1 else p2) := by
  rw [ho, hp, apply_ite (outcomeWithMem m)]

end

/-! ### States that agree on the accessible bytes -/

/-- Two states that agree on the accessible bytes are one state with two memories. -/
theorem AgreeOnAccessible.eq_withMem {s1 s2 : State} (h : AgreeOnAccessible s1 s2) :
    s2 = withMem s2.mem s1 := by
  obtain ⟨hpc, hdirty, hmap, hregs, -⟩ := h
  have hregs' : s2.regs = s1.regs := by
    ext1 i hi
    exact hregs ⟨i + 1, by omega⟩
  cases s1
  cases s2
  simp_all [withMem]

section
variable {m : Memory} {s : State}

theorem AgreeOnAccessible.byteAt_eq {s1 s2 : State} (h : AgreeOnAccessible s1 s2) {a : Word}
    (ha : permits .read a s1 = true ∨ permits .execute a s1 = true) : byteAt a s1 = byteAt a s2 := by
  obtain ⟨-, -, -, -, hbytes⟩ := h
  exact hbytes a ha

/-- A state whose memory and `MemMap` are as before agrees with the other memory as before. -/
theorem AgreeOnAccessible.of_sameMemory {t : State} (h : AgreeOnAccessible s (withMem m s))
    (ht : SameMemory s t) : AgreeOnAccessible t (withMem m t) := by
  obtain ⟨hbytes, -, hmap⟩ := ht
  refine ⟨rfl, rfl, rfl, fun _ => rfl, fun a ha => ?_⟩
  rw [permits_congr hmap, permits_congr hmap] at ha
  rw [hbytes a]
  exact h.byteAt_eq ha

/-- A readable word is the same. -/
theorem AgreeOnAccessible.wordAt_eq (h : AgreeOnAccessible s (withMem m s)) {a : Word}
    (ha : permitsWord .read a s = true) : wordAt a (withMem m s) = wordAt a s := by
  obtain ⟨h0, h1, h2, h3⟩ := (permitsWord_iff .read a s).1 ha
  rw [wordAt, wordAt, h.byteAt_eq (.inl h0), h.byteAt_eq (.inl h1), h.byteAt_eq (.inl h2),
    h.byteAt_eq (.inl h3)]

/-- A load reads the same word or faults alike (20 R42). -/
theorem AgreeOnAccessible.memRead_eq (h : AgreeOnAccessible s (withMem m s)) (a : Word) :
    memRead a (withMem m s) = memRead a s := by
  have hperm : permitsWord .read a (withMem m s) = permitsWord .read a s := rfl
  rw [memRead, memRead, hperm]
  split
  · rfl
  · split
    next ha => rw [h.wordAt_eq ha]
    next => rfl

/-- The fetch gives the same parcel or stops alike (20 R44). -/
theorem AgreeOnAccessible.fetch_eq (h : AgreeOnAccessible s (withMem m s)) :
    fetch (withMem m s) = fetch s := by
  refine fetch_congr rfl rfl rfl fun hlow hhigh => ?_
  rw [parcelAt, parcelAt, h.byteAt_eq (.inr hlow), h.byteAt_eq (.inr hhigh)]

theorem AgreeOnAccessible.loadInto_withMem (h : AgreeOnAccessible s (withMem m s)) (r : RegIdx) (a : Word) :
    loadInto r a (withMem m s) = outcomeWithMem m (loadInto r a s) := by
  rw [loadInto, loadInto, h.memRead_eq]
  cases memRead a s with
  | next v => exact writeAndAdvance_withMem m s v r
  | fault f => rfl
  | refused f => rfl

/-- An instruction without a store address does the same, and leaves the other memory as it is. -/
theorem AgreeOnAccessible.exec_withMem (h : AgreeOnAccessible s (withMem m s)) {i : Instr}
    (hstore : storeAddress i s = none) : exec i (withMem m s) = outcomeWithMem m (exec i s) := by
  cases i
  case cSw | cSwsp => exact nomatch hstore
  case cLw | cLwsp => exact h.loadInto_withMem _ _
  case cAddi4spn | cAddi | cLi | cAddi16sp | cLui | cSrli | cSrai | cAndi | cSub | cXor | cOr | cAnd
    | cSlli | cMv | cAdd => exact writeAndAdvance_withMem m s _ _
  case cJal | cJalr => exact setPc_writeReg_withMem m s _ _ _
  case cBeqz | cBnez => exact ite_withMem m rfl rfl
  all_goals rfl

/-- The stored bytes agree after a store of one word, and every other byte as before. -/
theorem AgreeOnAccessible.after_storeWord (h : AgreeOnAccessible s (withMem m s)) (a v : Word) :
    AgreeOnAccessible (storeWord a v s) (storeWord a v (withMem m s)) := by
  refine ⟨by simp, by simp [storeWord], by simp, fun r => by simp, fun b hb => ?_⟩
  rw [permits_storeWord, permits_storeWord] at hb
  rw [byteAt_storeWord, byteAt_storeWord, h.byteAt_eq hb]

/-- A store of one word to one address stores it in both memories or faults alike (20 R43). -/
theorem AgreeOnAccessible.storeFrom_related (h : AgreeOnAccessible s (withMem m s)) (v a : Word) :
    OutcomesRelated AgreeOnAccessible (storeFrom v a s) (storeFrom v a (withMem m s)) := by
  have hperm : permitsWord .write a (withMem m s) = permitsWord .write a s := rfl
  rw [storeFrom, storeFrom, memWrite, memWrite, hperm]
  split
  · rfl
  · split
    · obtain ⟨hpc, hdirty, hmap, hregs, hbytes⟩ := h.after_storeWord a v
      exact ⟨congrArg (· + 2) hpc, hdirty, hmap, hregs, hbytes⟩
    · rfl

/-- An instruction has related outcomes with both memories. -/
theorem AgreeOnAccessible.exec_related (h : AgreeOnAccessible s (withMem m s)) (i : Instr) :
    OutcomesRelated AgreeOnAccessible (exec i s) (exec i (withMem m s)) := by
  cases hstore : storeAddress i s with
  | none =>
    rw [h.exec_withMem hstore]
    cases hexec : exec i s with
    | next t => exact h.of_sameMemory (exec_sameMemory hexec hstore)
    | fault r => rfl
    | refused r => rfl
  | some a =>
    cases i
    case cSw | cSwsp => exact h.storeFrom_related _ _
    all_goals exact nomatch hstore

end

/-- Settles O48: the two states are one state with two memories, whose fetches are equal and whose
instructions have related outcomes. -/
theorem inaccessibleBytesNeverMatter : Obligations.InaccessibleBytesNeverMatter := by
  intro s1 s2 h
  obtain ⟨m, rfl⟩ : ∃ m, s2 = withMem m s1 := ⟨s2.mem, h.eq_withMem⟩
  rw [step, step, h.fetch_eq]
  cases fetch s1 with
  | next p => exact h.exec_related (decode p)
  | fault r => rfl
  | refused r => rfl

end Sys2Proof.Machine
end

section
/-!
SUPPORT. The nine formats of 30_encoding.md R73 to R82: what the decoder's field readers give on the
parcel of a format.
-/

namespace Sys2Proof.Machine

/-! ### Bits of a concatenation -/

/-- Bits that lie in the upper part of a concatenation. -/
theorem append_div_mod_high {m n s l : Nat} (x : BitVec m) (y : BitVec n) (h : n ≤ s) :
    (x ++ y).toNat / 2 ^ s % 2 ^ l = x.toNat / 2 ^ (s - n) % 2 ^ l := by
  rw [← toNat_extract, ← toNat_extract, BitVec.extractLsb'_append_eq_of_le h]

/-- Bits that lie in the lower part of a concatenation. -/
theorem append_div_mod_low {m n s l : Nat} (x : BitVec m) (y : BitVec n) (h : s + l ≤ n) :
    (x ++ y).toNat / 2 ^ s % 2 ^ l = y.toNat / 2 ^ s % 2 ^ l := by
  rw [← toNat_extract, ← toNat_extract, BitVec.extractLsb'_append_eq_of_add_le h]

/-- Bits of a run of bits. -/
theorem div_mod_div_mod {x s m k l : Nat} (h : k + l ≤ m) :
    x / 2 ^ s % 2 ^ m / 2 ^ k % 2 ^ l = x / 2 ^ (s + k) % 2 ^ l := by
  obtain ⟨r, rfl⟩ := Nat.exists_eq_add_of_le h
  rw [Nat.add_assoc, Nat.pow_add 2 k, Nat.mod_mul_right_div_self, Nat.pow_add 2 l,
    Nat.mod_mul_right_mod, Nat.div_div_eq_div_mul, ← Nat.pow_add]

/-- Two adjacent runs of bits are one run. -/
theorem div_mod_merge {x a s k l : Nat} (h : a = s + l) :
    x / 2 ^ a % 2 ^ k * 2 ^ l + x / 2 ^ s % 2 ^ l = x / 2 ^ s % 2 ^ (k + l) := by
  rw [h, Nat.pow_add 2 s, ← Nat.div_div_eq_div_mul, Nat.add_comm k, Nat.pow_add 2 l, Nat.mod_mul,
    Nat.mul_comm, Nat.add_comm]

/-- All the bits of a word are the word. -/
theorem div_mod_all {w : Nat} (x : BitVec w) : x.toNat / 2 ^ 0 % 2 ^ w = x.toNat := by
  rw [Nat.pow_zero, Nat.div_one, Nat.mod_eq_of_lt x.isLt]

/-- Six bits with the highest one 0: the shift amounts of RV32 (30 R93). -/
theorem zero_append_toNat (x : BitVec 5) : ((0#1) ++ x).toNat = x.toNat := by
  rw [toNat_append_add]
  exact (congrArg (· + x.toNat) (Nat.zero_mul _)).trans (Nat.zero_add _)

/-! ### Register fields -/

theorem regField_toNat (r : RegIdx) : (regField r).toNat = r.val := by
  rw [regField, BitVec.toNat_ofNat]
  omega

theorem cregField_toNat (r : CReg) : (cregField r).toNat = r.val := by
  rw [cregField, BitVec.toNat_ofNat]
  omega

@[simp] theorem regOfField_regField (r : RegIdx) : regOfField (regField r) = r := by
  apply Fin.ext
  rw [regOfField_val _ (by rw [regField_toNat]; exact r.isLt), regField_toNat]

@[simp] theorem namesAbsentReg_regField (r : RegIdx) : namesAbsentReg (regField r) = false := by
  rw [namesAbsentReg, regField_toNat]
  exact decide_eq_false (by omega)

@[simp] theorem namesAbsentReg_zero : namesAbsentReg 0#5 = false := rfl

/-- Different registers have different fields. -/
theorem regField_eq_iff (r q : RegIdx) : regField r = regField q ↔ r = q :=
  ⟨fun h => by rw [← regOfField_regField r, h, regOfField_regField], congrArg regField⟩

@[simp] theorem regField_eq_zero_iff (r : RegIdx) : regField r = 0#5 ↔ r = 0 := regField_eq_iff r 0

@[simp] theorem regField_eq_two_iff (r : RegIdx) : regField r = 2#5 ↔ r = 2 := regField_eq_iff r 2

theorem regField_regOfField {f : BitVec 5} (h : ¬ namesAbsentReg f = true) :
    regField (regOfField f) = f := by
  rw [namesAbsentReg_iff, Nat.not_le] at h
  apply BitVec.eq_of_toNat_eq
  rw [regField_toNat, regOfField_val f h]

/-! ### The slices of a parcel of each format -/


section
variable (f3 : BitVec 3) (q : BitVec 2)

theorem slices_encodeCIW (imm : BitVec 8) (rd : CReg) :
    slice (encodeCIW f3 imm rd q) 12 11 = imm.toNat / 4 % 4 ∧
    slice (encodeCIW f3 imm rd q) 10 7 = imm.toNat / 16 % 16 ∧
    slice (encodeCIW f3 imm rd q) 6 6 = imm.toNat % 2 ∧
    slice (encodeCIW f3 imm rd q) 5 5 = imm.toNat / 2 % 2 ∧
    slice (encodeCIW f3 imm rd q) 4 2 = rd.val := by
  simp (disch := decide) only [slice, encodeCIW, append_div_mod_high, append_div_mod_low, toNat_extract,
    cregField_toNat]
  omega

theorem slices_encodeCLS (imm : BitVec 5) (rs1 low : CReg) :
    slice (encodeCLS f3 imm rs1 low q) 12 10 = imm.toNat / 2 % 8 ∧
    slice (encodeCLS f3 imm rs1 low q) 9 7 = rs1.val ∧
    slice (encodeCLS f3 imm rs1 low q) 6 6 = imm.toNat % 2 ∧
    slice (encodeCLS f3 imm rs1 low q) 5 5 = imm.toNat / 16 % 2 ∧
    slice (encodeCLS f3 imm rs1 low q) 4 2 = low.val := by
  simp (disch := decide) only [slice, encodeCLS, append_div_mod_high, append_div_mod_low, toNat_extract,
    cregField_toNat]
  omega

theorem slices_encodeCI (field : BitVec 6) (reg : BitVec 5) :
    slice (encodeCI f3 field reg q) 12 12 = field.toNat / 32 ∧
    slice (encodeCI f3 field reg q) 11 7 = reg.toNat ∧
    slice (encodeCI f3 field reg q) 6 2 = field.toNat % 32 := by
  simp (disch := decide) only [slice, encodeCI, append_div_mod_high, append_div_mod_low, toNat_extract]
  omega

theorem slices_encodeCJ (imm : BitVec 11) :
    slice (encodeCJ f3 imm q) 12 12 = imm.toNat / 1024 % 2 ∧
    slice (encodeCJ f3 imm q) 11 11 = imm.toNat / 8 % 2 ∧
    slice (encodeCJ f3 imm q) 10 9 = imm.toNat / 128 % 4 ∧
    slice (encodeCJ f3 imm q) 8 8 = imm.toNat / 512 % 2 ∧
    slice (encodeCJ f3 imm q) 7 7 = imm.toNat / 32 % 2 ∧
    slice (encodeCJ f3 imm q) 6 6 = imm.toNat / 64 % 2 ∧
    slice (encodeCJ f3 imm q) 5 3 = imm.toNat % 8 ∧
    slice (encodeCJ f3 imm q) 2 2 = imm.toNat / 16 % 2 := by
  simp (disch := decide) only [slice, encodeCJ, append_div_mod_high, append_div_mod_low, toNat_extract]
  omega

theorem slices_encodeCBranch (rs1 : CReg) (imm : BitVec 8) :
    slice (encodeCBranch f3 rs1 imm q) 12 12 = imm.toNat / 128 % 2 ∧
    slice (encodeCBranch f3 rs1 imm q) 11 10 = imm.toNat / 4 % 4 ∧
    slice (encodeCBranch f3 rs1 imm q) 9 7 = rs1.val ∧
    slice (encodeCBranch f3 rs1 imm q) 6 5 = imm.toNat / 32 % 4 ∧
    slice (encodeCBranch f3 rs1 imm q) 4 3 = imm.toNat % 4 ∧
    slice (encodeCBranch f3 rs1 imm q) 2 2 = imm.toNat / 16 % 2 := by
  simp (disch := decide) only [slice, encodeCBranch, append_div_mod_high, append_div_mod_low,
    toNat_extract, cregField_toNat]
  omega

theorem slices_encodeCBAlu (field : BitVec 6) (f2 : BitVec 2) (rd : CReg) :
    slice (encodeCBAlu field f2 rd) 12 12 = field.toNat / 32 ∧
    slice (encodeCBAlu field f2 rd) 11 10 = f2.toNat ∧
    slice (encodeCBAlu field f2 rd) 9 7 = rd.val ∧
    slice (encodeCBAlu field f2 rd) 6 2 = field.toNat % 32 := by
  simp (disch := decide) only [slice, encodeCBAlu, append_div_mod_high, append_div_mod_low,
    toNat_extract, cregField_toNat]
  omega

theorem slices_encodeCA (rd : CReg) (f2 : BitVec 2) (rs2 : CReg) :
    slice (encodeCA rd f2 rs2) 12 12 = 0 ∧
    slice (encodeCA rd f2 rs2) 11 10 = 3 ∧
    slice (encodeCA rd f2 rs2) 9 7 = rd.val ∧
    slice (encodeCA rd f2 rs2) 6 5 = f2.toNat ∧
    slice (encodeCA rd f2 rs2) 4 2 = rs2.val := by
  simp (disch := decide) only [slice, encodeCA, append_div_mod_high, append_div_mod_low,
    cregField_toNat, BitVec.toNat_ofNat]
  omega

theorem slices_encodeCR (f1 : BitVec 1) (high low : BitVec 5) :
    slice (encodeCR f1 high low) 12 12 = f1.toNat ∧
    slice (encodeCR f1 high low) 11 7 = high.toNat ∧
    slice (encodeCR f1 high low) 6 2 = low.toNat := by
  simp (disch := decide) only [slice, encodeCR, append_div_mod_high, append_div_mod_low]
  omega

theorem slices_encodeCSS (imm : BitVec 6) (rs2 : RegIdx) :
    slice (encodeCSS f3 imm rs2 q) 12 9 = imm.toNat % 16 ∧
    slice (encodeCSS f3 imm rs2 q) 8 7 = imm.toNat / 16 ∧
    slice (encodeCSS f3 imm rs2 q) 6 2 = rs2.val := by
  simp (disch := decide) only [slice, encodeCSS, append_div_mod_high, append_div_mod_low, toNat_extract,
    regField_toNat]
  omega

end

/-! ### What the field readers give on a format -/

section
variable (f3 : BitVec 3) (q : BitVec 2)

@[simp] theorem immAddi4spn_encodeCIW (imm : BitVec 8) (rd : CReg) :
    immAddi4spn (encodeCIW f3 imm rd q) = imm := by
  obtain ⟨h1, h2, h3, h4, -⟩ := slices_encodeCIW f3 q imm rd
  apply BitVec.eq_of_toNat_eq
  rw [immAddi4spn_toNat, h1, h2, h3, h4]
  omega

@[simp] theorem cregLow_encodeCIW (imm : BitVec 8) (rd : CReg) :
    cregLow (encodeCIW f3 imm rd q) = rd := by
  obtain ⟨-, -, -, -, h⟩ := slices_encodeCIW f3 q imm rd
  exact Fin.ext ((cregLow_val _).trans h)

@[simp] theorem immLwSw_encodeCLS (imm : BitVec 5) (rs1 low : CReg) :
    immLwSw (encodeCLS f3 imm rs1 low q) = imm := by
  obtain ⟨h1, -, h2, h3, -⟩ := slices_encodeCLS f3 q imm rs1 low
  apply BitVec.eq_of_toNat_eq
  rw [immLwSw_toNat, h1, h2, h3]
  omega

@[simp] theorem cregHigh_encodeCLS (imm : BitVec 5) (rs1 low : CReg) :
    cregHigh (encodeCLS f3 imm rs1 low q) = rs1 := by
  obtain ⟨-, h, -⟩ := slices_encodeCLS f3 q imm rs1 low
  exact Fin.ext ((cregHigh_val _).trans h)

@[simp] theorem cregLow_encodeCLS (imm : BitVec 5) (rs1 low : CReg) :
    cregLow (encodeCLS f3 imm rs1 low q) = low := by
  obtain ⟨-, -, -, -, h⟩ := slices_encodeCLS f3 q imm rs1 low
  exact Fin.ext ((cregLow_val _).trans h)

@[simp] theorem regFieldHigh_encodeCI (field : BitVec 6) (reg : BitVec 5) :
    regFieldHigh (encodeCI f3 field reg q) = reg := by
  obtain ⟨-, h, -⟩ := slices_encodeCI f3 q field reg
  exact (regFieldHigh_eq_iff _ _).2 h

@[simp] theorem immSix_encodeCI (field : BitVec 6) (reg : BitVec 5) :
    immSix (encodeCI f3 field reg q) = field := by
  obtain ⟨hb, -, hl⟩ := slices_encodeCI f3 q field reg
  apply BitVec.eq_of_toNat_eq
  rw [immSix_toNat, hb, hl]
  omega

/-- The immediate reader of C.ADDI16SP undoes its scatter, which format CI splits (30 R87). -/
@[simp] theorem immAddi16sp_encodeCI (imm : BitVec 6) (reg : BitVec 5) :
    immAddi16sp (encodeCI f3 (scatterAddi16sp imm) reg q) = imm := by
  apply BitVec.eq_of_toNat_eq
  rw [immAddi16sp_toNat]
  simp (disch := decide) only [slice, encodeCI, scatterAddi16sp, append_div_mod_high,
    append_div_mod_low, toNat_extract, div_mod_div_mod]
  omega

/-- The immediate reader of C.LWSP undoes its scatter, which format CI splits (30 R91). -/
@[simp] theorem immLwsp_encodeCI (imm : BitVec 6) (reg : BitVec 5) :
    immLwsp (encodeCI f3 (scatterLwsp imm) reg q) = imm := by
  apply BitVec.eq_of_toNat_eq
  rw [immLwsp_toNat]
  simp (disch := decide) only [slice, encodeCI, scatterLwsp, append_div_mod_high,
    append_div_mod_low, toNat_extract, div_mod_div_mod]
  omega

/-- A shift amount of RV32 leaves inst[12] 0 (30 R93). -/
@[simp] theorem bit12_encodeCI_shamt (shamt : BitVec 5) (reg : BitVec 5) :
    (encodeCI f3 (0#1 ++ shamt) reg q).extractLsb' 12 1 = 0#1 := by
  obtain ⟨hb, -⟩ := slices_encodeCI f3 q (0#1 ++ shamt) reg
  rw [bit12_eq, hb, zero_append_toNat, Nat.div_eq_of_lt shamt.isLt]

@[simp] theorem regFieldLow_encodeCI_shamt (shamt : BitVec 5) (reg : BitVec 5) :
    regFieldLow (encodeCI f3 (0#1 ++ shamt) reg q) = shamt := by
  obtain ⟨-, -, hl⟩ := slices_encodeCI f3 q (0#1 ++ shamt) reg
  rw [zero_append_toNat, Nat.mod_eq_of_lt shamt.isLt] at hl
  exact (regFieldLow_eq_iff _ _).2 hl

@[simp] theorem immJump_encodeCJ (imm : BitVec 11) : immJump (encodeCJ f3 imm q) = imm := by
  obtain ⟨h1, h2, h3, h4, h5, h6, h7, h8⟩ := slices_encodeCJ f3 q imm
  apply BitVec.eq_of_toNat_eq
  rw [immJump_toNat, h1, h2, h3, h4, h5, h6, h7, h8]
  omega

@[simp] theorem cregHigh_encodeCBranch (rs1 : CReg) (imm : BitVec 8) :
    cregHigh (encodeCBranch f3 rs1 imm q) = rs1 := by
  obtain ⟨-, -, h, -⟩ := slices_encodeCBranch f3 q rs1 imm
  exact Fin.ext ((cregHigh_val _).trans h)

@[simp] theorem immBranch_encodeCBranch (rs1 : CReg) (imm : BitVec 8) :
    immBranch (encodeCBranch f3 rs1 imm q) = imm := by
  obtain ⟨h1, h2, -, h3, h4, h5⟩ := slices_encodeCBranch f3 q rs1 imm
  apply BitVec.eq_of_toNat_eq
  rw [immBranch_toNat, h1, h2, h3, h4, h5]
  omega

@[simp] theorem regFieldLow_encodeCSS (imm : BitVec 6) (rs2 : RegIdx) :
    regFieldLow (encodeCSS f3 imm rs2 q) = regField rs2 := by
  obtain ⟨-, -, h⟩ := slices_encodeCSS f3 q imm rs2
  exact (regFieldLow_eq_iff _ _).2 (h.trans (regField_toNat rs2).symm)

@[simp] theorem immSwsp_encodeCSS (imm : BitVec 6) (rs2 : RegIdx) :
    immSwsp (encodeCSS f3 imm rs2 q) = imm := by
  obtain ⟨h1, h2, -⟩ := slices_encodeCSS f3 q imm rs2
  apply BitVec.eq_of_toNat_eq
  rw [immSwsp_toNat, h1, h2]
  omega

end

section
variable (field : BitVec 6) (shamt : BitVec 5) (f2 : BitVec 2) (rd rs2 : CReg)

@[simp] theorem bits11to10_encodeCBAlu : (encodeCBAlu field f2 rd).extractLsb' 10 2 = f2 := by
  obtain ⟨-, h, -⟩ := slices_encodeCBAlu field f2 rd
  rw [bits11to10_eq, h, BitVec.ofNat_toNat, BitVec.setWidth_eq]

@[simp] theorem cregHigh_encodeCBAlu : cregHigh (encodeCBAlu field f2 rd) = rd := by
  obtain ⟨-, -, h, -⟩ := slices_encodeCBAlu field f2 rd
  exact Fin.ext ((cregHigh_val _).trans h)

@[simp] theorem immSix_encodeCBAlu : immSix (encodeCBAlu field f2 rd) = field := by
  obtain ⟨hb, -, -, hl⟩ := slices_encodeCBAlu field f2 rd
  apply BitVec.eq_of_toNat_eq
  rw [immSix_toNat, hb, hl]
  omega

@[simp] theorem bit12_encodeCBAlu_shamt :
    (encodeCBAlu (0#1 ++ shamt) f2 rd).extractLsb' 12 1 = 0#1 := by
  obtain ⟨hb, -⟩ := slices_encodeCBAlu (0#1 ++ shamt) f2 rd
  rw [bit12_eq, hb, zero_append_toNat, Nat.div_eq_of_lt shamt.isLt]

@[simp] theorem regFieldLow_encodeCBAlu_shamt :
    regFieldLow (encodeCBAlu (0#1 ++ shamt) f2 rd) = shamt := by
  obtain ⟨-, -, -, hl⟩ := slices_encodeCBAlu (0#1 ++ shamt) f2 rd
  rw [zero_append_toNat, Nat.mod_eq_of_lt shamt.isLt] at hl
  exact (regFieldLow_eq_iff _ _).2 hl

@[simp] theorem bit12_encodeCA : (encodeCA rd f2 rs2).extractLsb' 12 1 = 0#1 := by
  obtain ⟨h, -⟩ := slices_encodeCA rd f2 rs2
  rw [bit12_eq, h]

@[simp] theorem bits11to10_encodeCA : (encodeCA rd f2 rs2).extractLsb' 10 2 = 3#2 := by
  obtain ⟨-, h, -⟩ := slices_encodeCA rd f2 rs2
  rw [bits11to10_eq, h]

@[simp] theorem cregHigh_encodeCA : cregHigh (encodeCA rd f2 rs2) = rd := by
  obtain ⟨-, -, h, -⟩ := slices_encodeCA rd f2 rs2
  exact Fin.ext ((cregHigh_val _).trans h)

@[simp] theorem bits6to5_encodeCA : (encodeCA rd f2 rs2).extractLsb' 5 2 = f2 := by
  obtain ⟨-, -, -, h, -⟩ := slices_encodeCA rd f2 rs2
  rw [bits6to5_eq, h, BitVec.ofNat_toNat, BitVec.setWidth_eq]

@[simp] theorem cregLow_encodeCA : cregLow (encodeCA rd f2 rs2) = rs2 := by
  obtain ⟨-, -, -, -, h⟩ := slices_encodeCA rd f2 rs2
  exact Fin.ext ((cregLow_val _).trans h)

end

section
variable (f1 : BitVec 1) (high low : BitVec 5)

@[simp] theorem bit12_encodeCR : (encodeCR f1 high low).extractLsb' 12 1 = f1 := by
  obtain ⟨h, -⟩ := slices_encodeCR f1 high low
  rw [bit12_eq, h, BitVec.ofNat_toNat, BitVec.setWidth_eq]

@[simp] theorem regFieldHigh_encodeCR : regFieldHigh (encodeCR f1 high low) = high := by
  obtain ⟨-, h, -⟩ := slices_encodeCR f1 high low
  exact (regFieldHigh_eq_iff _ _).2 h

@[simp] theorem regFieldLow_encodeCR : regFieldLow (encodeCR f1 high low) = low := by
  obtain ⟨-, -, h⟩ := slices_encodeCR f1 high low
  exact (regFieldLow_eq_iff _ _).2 h

end

end Sys2Proof.Machine
end

section
/-!
SUPPORT. A parcel is the format of its own fields (30_encoding.md R73 to R92). In each proof the bits
that the readers assemble and the format takes apart again are runs of bits of the parcel
(`append_div_mod_high`, `append_div_mod_low`, `div_mod_div_mod`), and neighbouring runs merge into the
whole parcel (`div_mod_merge`, `div_mod_all`).
-/

namespace Sys2Proof.Machine

theorem cregField_high (p : Parcel) : cregField (cregHigh p) = p.extractLsb' 7 3 := by
  apply BitVec.eq_of_toNat_eq
  rw [cregField_toNat, cregHigh_val, toNat_extract, slice]

theorem cregField_low (p : Parcel) : cregField (cregLow p) = p.extractLsb' 2 3 := by
  apply BitVec.eq_of_toNat_eq
  rw [cregField_toNat, cregLow_val, toNat_extract, slice]

section
variable (p : Parcel)

theorem encodeCIW_fields : encodeCIW (funct3Of p) (immAddi4spn p) (cregLow p) (quadrantOf p) = p := by
  apply BitVec.eq_of_toNat_eq
  simp (disch := decide) only [encodeCIW, immAddi4spn, funct3Of, quadrantOf, cregField_low,
    ↓append_div_mod_high, ↓append_div_mod_low, toNat_append_add, toNat_extract, div_mod_div_mod,
    div_mod_merge]
  exact div_mod_all p

theorem encodeCLS_fields :
    encodeCLS (funct3Of p) (immLwSw p) (cregHigh p) (cregLow p) (quadrantOf p) = p := by
  apply BitVec.eq_of_toNat_eq
  simp (disch := decide) only [encodeCLS, immLwSw, funct3Of, quadrantOf, cregField_low, cregField_high,
    ↓append_div_mod_high, ↓append_div_mod_low, toNat_append_add, toNat_extract, div_mod_div_mod,
    div_mod_merge]
  exact div_mod_all p

theorem encodeCI_fields : encodeCI (funct3Of p) (immSix p) (regFieldHigh p) (quadrantOf p) = p := by
  apply BitVec.eq_of_toNat_eq
  simp (disch := decide) only [encodeCI, immSix, funct3Of, quadrantOf, regFieldHigh,
    ↓append_div_mod_high, ↓append_div_mod_low, toNat_append_add, toNat_extract, div_mod_div_mod,
    div_mod_merge]
  exact div_mod_all p

theorem scatterAddi16sp_imm : scatterAddi16sp (immAddi16sp p) = immSix p := by
  apply BitVec.eq_of_toNat_eq
  simp (disch := decide) only [scatterAddi16sp, immSix, immAddi16sp, ↓append_div_mod_high,
    ↓append_div_mod_low, toNat_append_add, toNat_extract, div_mod_div_mod]
  omega

theorem scatterLwsp_imm : scatterLwsp (immLwsp p) = immSix p := by
  apply BitVec.eq_of_toNat_eq
  simp (disch := decide) only [scatterLwsp, immSix, immLwsp, ↓append_div_mod_high,
    ↓append_div_mod_low, toNat_append_add, toNat_extract, div_mod_div_mod]
  omega

theorem encodeCJ_fields : encodeCJ (funct3Of p) (immJump p) (quadrantOf p) = p := by
  apply BitVec.eq_of_toNat_eq
  simp (disch := decide) only [encodeCJ, immJump, funct3Of, quadrantOf,
    ↓append_div_mod_high, ↓append_div_mod_low, toNat_append_add, toNat_extract, div_mod_div_mod,
    div_mod_merge]
  exact div_mod_all p

theorem encodeCBranch_fields :
    encodeCBranch (funct3Of p) (cregHigh p) (immBranch p) (quadrantOf p) = p := by
  apply BitVec.eq_of_toNat_eq
  simp (disch := decide) only [encodeCBranch, immBranch, funct3Of, quadrantOf, cregField_high,
    ↓append_div_mod_high, ↓append_div_mod_low, toNat_append_add, toNat_extract, div_mod_div_mod,
    div_mod_merge]
  exact div_mod_all p

theorem encodeCSS_fields {p : Parcel} (h : ¬ namesAbsentReg (regFieldLow p) = true) :
    encodeCSS (funct3Of p) (immSwsp p) (regOfField (regFieldLow p)) (quadrantOf p) = p := by
  rw [encodeCSS, regField_regOfField h]
  apply BitVec.eq_of_toNat_eq
  simp (disch := decide) only [immSwsp, funct3Of, quadrantOf, regFieldLow,
    ↓append_div_mod_high, ↓append_div_mod_low, toNat_append_add, toNat_extract, div_mod_div_mod,
    div_mod_merge]
  exact div_mod_all p

theorem encodeCBAlu_fields {p : Parcel} (h : quadrantOf p = 1 ∧ funct3Of p = 4) :
    encodeCBAlu (immSix p) (p.extractLsb' 10 2) (cregHigh p) = p := by
  obtain ⟨hq, hf⟩ := h
  rw [encodeCBAlu, ← show funct3Of p = 0b100#3 from hf, ← show quadrantOf p = 0b01#2 from hq]
  apply BitVec.eq_of_toNat_eq
  simp (disch := decide) only [immSix, funct3Of, quadrantOf, cregField_high,
    ↓append_div_mod_high, ↓append_div_mod_low, toNat_append_add, toNat_extract, div_mod_div_mod,
    div_mod_merge]
  exact div_mod_all p

theorem encodeCA_fields {p : Parcel} (h : quadrantOf p = 1 ∧ funct3Of p = 4)
    (hb : p.extractLsb' 12 1 = 0#1) (h11 : p.extractLsb' 10 2 = 0b11#2) :
    encodeCA (cregHigh p) (p.extractLsb' 5 2) (cregLow p) = p := by
  obtain ⟨hq, hf⟩ := h
  rw [encodeCA, ← show funct3Of p = 0b100#3 from hf, ← show quadrantOf p = 0b01#2 from hq, ← hb,
    ← h11]
  apply BitVec.eq_of_toNat_eq
  simp (disch := decide) only [funct3Of, quadrantOf, cregField_high, cregField_low,
    toNat_append_add, toNat_extract, div_mod_merge]
  exact div_mod_all p

theorem encodeCR_fields {p : Parcel} (h : quadrantOf p = 2 ∧ funct3Of p = 4) :
    encodeCR (p.extractLsb' 12 1) (regFieldHigh p) (regFieldLow p) = p := by
  obtain ⟨hq, hf⟩ := h
  rw [encodeCR, ← show funct3Of p = 0b100#3 from hf, ← show quadrantOf p = 0b10#2 from hq]
  apply BitVec.eq_of_toNat_eq
  simp (disch := decide) only [funct3Of, quadrantOf, regFieldHigh, regFieldLow,
    toNat_append_add, toNat_extract, div_mod_merge]
  exact div_mod_all p

end

end Sys2Proof.Machine
end

section
/-!
SUPPORT. The decoder by the cells of 30_encoding.md R100 to R102, and that it undoes the encoder on
every well-formed instruction.
-/

namespace Sys2Proof.Machine

open Laws.EncodedMajorOpcode (encodeCIW_major encodeCLS_major encodeCI_major encodeCJ_major
  encodeCBranch_major encodeCBAlu_major encodeCA_major encodeCR_major encodeCSS_major
  quadrantOf_row funct3Of_row)

/-! ### The decoder by cells -/

/-- The decoder of the cell of quadrant `q` and funct3 `f` (30 R100 to R103). -/
def cellDecoder (q f : Nat) (p : Parcel) : Instr :=
  match q, f with
  | 0, 0 => decodeAddi4spn p
  | 0, 1 => .cFld p
  | 0, 2 => .cLw (cregLow p) (cregHigh p) (immLwSw p)
  | 0, 3 => .cFlw p
  | 0, 4 => .q0Reserved p
  | 0, 5 => .cFsd p
  | 0, 6 => .cSw (cregLow p) (cregHigh p) (immLwSw p)
  | 0, _ => .cFsw p
  | 1, 0 => decodeAddi p
  | 1, 1 => .cJal (immJump p)
  | 1, 2 => decodeLi p
  | 1, 3 => decodeLui p
  | 1, 4 => decodeMiscAlu p
  | 1, 5 => .cJ (immJump p)
  | 1, 6 => .cBeqz (cregHigh p) (immBranch p)
  | 1, _ => .cBnez (cregHigh p) (immBranch p)
  | 2, 0 => decodeSlli p
  | 2, 1 => .cFldsp p
  | 2, 2 => decodeLwsp p
  | 2, 3 => .cFlwsp p
  | 2, 4 => if p.extractLsb' 12 1 = 1 then decodeJalrAdd p else decodeJrMv p
  | 2, 5 => .cFsdsp p
  | 2, 6 => decodeSwsp p
  | 2, _ => .cFswsp p
  | _, _ => .wide p

/-- The decoder selects the cell by inst[1:0] and inst[15:13] (30 R103). -/
theorem decode_eq_cellDecoder (p : Parcel) :
    decode p = cellDecoder (slice p 1 0) (slice p 15 13) p := by
  have hq : slice p 1 0 < 4 := slice_lt p 1 0
  have hf : slice p 15 13 < 8 := slice_lt p 15 13
  rw [decode, decodeQuadrant0, decodeQuadrant1, decodeQuadrant2, quadrantOf_eq, funct3Of_eq]
  generalize slice p 1 0 = q at *
  generalize slice p 15 13 = f at *
  interval_cases q <;> interval_cases f <;> rfl

theorem decode_of_major {p : Parcel} {q : BitVec 2} {f : BitVec 3}
    (h : quadrantOf p = q ∧ funct3Of p = f) : decode p = cellDecoder q.toNat f.toNat p := by
  rw [decode_eq_cellDecoder, ← quadrantOf_toNat, ← funct3Of_toNat, h.1, h.2]

/-- A parcel that meets a row's mask and match is decoded in the row's cell. -/
theorem decode_of_row {mask mtch p : Parcel} (h : matchesRow mask mtch p = true)
    (hq : quadrantOf mask = 3) (hf : funct3Of mask = 7) :
    decode p = cellDecoder (quadrantOf mtch).toNat (funct3Of mtch).toNat p :=
  decode_of_major ⟨quadrantOf_row h hq, funct3Of_row h hf⟩

/-- A parcel that meets a row's mask and match has the row's bits in a field that the mask covers. -/
theorem slice_of_row {mask mtch p : Parcel} (h : matchesRow mask mtch p = true) (hi lo : Nat)
    (hm : slice mask hi lo = 2 ^ (hi + 1 - lo) - 1) : slice p hi lo = slice mtch hi lo := by
  have h' : p &&& mask = mtch := by simpa [matchesRow] using h
  have hs (x : Parcel) : slice x hi lo = (x.extractLsb' lo (hi + 1 - lo)).toNat :=
    (toNat_extract lo _ x).symm
  rw [hs] at hm
  rw [hs p, hs mtch, ← h', BitVec.extractLsb'_and, BitVec.toNat_and, hm,
    Nat.and_two_pow_sub_one_eq_mod, Nat.mod_eq_of_lt (BitVec.isLt _)]

/-! ### The rows that carry their parcel and have a condition -/

section
variable {p : Parcel}

theorem bits6to5_eq_iff (k : BitVec 2) : p.extractLsb' 5 2 = k ↔ slice p 6 5 = k.toNat := by
  rw [← BitVec.toNat_inj, toNat_extract]
  rfl

theorem decode_cAddi4spnRes (h : matchesRow 0xFFE3 0x0000 p = true) (hrd : slice p 4 2 ≠ 0) :
    decode p = .cAddi4spnRes p := by
  have himm : slice p 12 5 = 0 := slice_of_row h 12 5 (by decide)
  have hp : p ≠ 0 := fun h0 => hrd (by rw [h0]; rfl)
  refine (decode_of_row h (by decide) (by decide)).trans (?_ : decodeAddi4spn p = _)
  rw [decodeAddi4spn, if_neg hp, if_pos ((immAddi4spn_eq_zero_iff p).2 himm)]

theorem decode_cAddiRv32e (h : matchesRow 0xE003 0x0001 p = true) (hrd : 16 ≤ slice p 11 7) :
    decode p = .cAddiRv32e p := by
  refine (decode_of_row h (by decide) (by decide)).trans (?_ : decodeAddi p = _)
  rw [decodeAddi, if_neg (mt regFieldHigh_eq_zero_iff.1 (by omega)),
    if_pos (regFieldHigh_absent_iff.2 hrd)]

theorem decode_cLiRv32e (h : matchesRow 0xE003 0x4001 p = true) (hrd : 16 ≤ slice p 11 7) :
    decode p = .cLiRv32e p := by
  refine (decode_of_row h (by decide) (by decide)).trans (?_ : decodeLi p = _)
  rw [decodeLi, if_pos (regFieldHigh_absent_iff.2 hrd)]

theorem decode_cLuiRes (h : matchesRow 0xF07F 0x6001 p = true) (hrd : slice p 11 7 ≠ 2) :
    decode p = .cLuiRes p := by
  have hb : slice p 12 12 = 0 := slice_of_row h 12 12 (by decide)
  have hl : slice p 6 2 = 0 := slice_of_row h 6 2 (by decide)
  refine (decode_of_row h (by decide) (by decide)).trans (?_ : decodeLui p = _)
  rw [decodeLui, if_neg (mt regFieldHigh_eq_two_iff.1 hrd),
    if_pos ((immSix_eq_zero_iff p).2 ⟨hb, hl⟩)]

theorem decode_cLuiRv32e (h : matchesRow 0xE003 0x6001 p = true) (hrd : 16 ≤ slice p 11 7)
    (himm : slice p 12 12 ≠ 0 ∨ slice p 6 2 ≠ 0) : decode p = .cLuiRv32e p := by
  refine (decode_of_row h (by decide) (by decide)).trans (?_ : decodeLui p = _)
  rw [decodeLui, if_neg (mt regFieldHigh_eq_two_iff.1 (by omega)),
    if_neg (mt (immSix_eq_zero_iff p).1 (by omega)), if_pos (regFieldHigh_absent_iff.2 hrd)]

theorem decode_cSrliCustom (h : matchesRow 0xFC03 0x9001 p = true) : decode p = .cSrliCustom p := by
  have hb : slice p 12 12 = 1 := slice_of_row h 12 12 (by decide)
  have h11 : p.extractLsb' 10 2 = 0b00 := by rw [bits11to10_eq, slice_of_row h 11 10 (by decide)]; rfl
  refine (decode_of_row h (by decide) (by decide)).trans (?_ : decodeMiscAlu p = _)
  rw [decodeMiscAlu, if_pos h11, if_pos (bit12_eq_one_iff.2 hb)]

theorem decode_cSraiCustom (h : matchesRow 0xFC03 0x9401 p = true) : decode p = .cSraiCustom p := by
  have hb : slice p 12 12 = 1 := slice_of_row h 12 12 (by decide)
  have h11 : p.extractLsb' 10 2 = 0b01 := by rw [bits11to10_eq, slice_of_row h 11 10 (by decide)]; rfl
  refine (decode_of_row h (by decide) (by decide)).trans (?_ : decodeMiscAlu p = _)
  rw [decodeMiscAlu, h11, if_neg (by decide), if_pos rfl, if_pos (bit12_eq_one_iff.2 hb)]

/-- The reserved half of the register to register group, by inst[6:5] (30 R105). -/
theorem decode_registerAlu_reserved {mtch : Parcel} (h : matchesRow 0xFC63 mtch p = true)
    (hm : matchesRow 0xFC03 0x9C01 mtch = true) :
    decode p =
      if mtch.extractLsb' 5 2 = 0b00 then .cSubwRes p
      else if mtch.extractLsb' 5 2 = 0b01 then .cAddwRes p
      else if mtch.extractLsb' 5 2 = 0b10 then .q1Reserved10 p
      else .q1Reserved11 p := by
  have hq : slice p 1 0 = 1 := (slice_of_row h 1 0 (by decide)).trans (slice_of_row hm 1 0 (by decide))
  have hf : slice p 15 13 = 4 :=
    (slice_of_row h 15 13 (by decide)).trans (slice_of_row hm 15 13 (by decide))
  have hb : slice p 12 12 = 1 :=
    (slice_of_row h 12 12 (by decide)).trans (slice_of_row hm 12 12 (by decide))
  have h11 : slice p 11 10 = 3 :=
    (slice_of_row h 11 10 (by decide)).trans (slice_of_row hm 11 10 (by decide))
  have h65 : p.extractLsb' 5 2 = mtch.extractLsb' 5 2 := by
    rw [bits6to5_eq, bits6to5_eq, slice_of_row h 6 5 (by decide)]
  rw [decode_eq_cellDecoder, hq, hf, ← h65]
  show decodeMiscAlu p = _
  rw [decodeMiscAlu, bits11to10_eq, h11]
  show decodeRegisterAlu p = _
  rw [decodeRegisterAlu, if_pos (bit12_eq_one_iff.2 hb)]

theorem decode_cSlliCustom (h : matchesRow 0xF003 0x1002 p = true) : decode p = .cSlliCustom p := by
  have hb : slice p 12 12 = 1 := slice_of_row h 12 12 (by decide)
  refine (decode_of_row h (by decide) (by decide)).trans (?_ : decodeSlli p = _)
  rw [decodeSlli, if_pos (bit12_eq_one_iff.2 hb)]

theorem decode_cSlliRv32e (h : matchesRow 0xF003 0x0002 p = true) (hrd : 16 ≤ slice p 11 7) :
    decode p = .cSlliRv32e p := by
  have hb : slice p 12 12 = 0 := slice_of_row h 12 12 (by decide)
  refine (decode_of_row h (by decide) (by decide)).trans (?_ : decodeSlli p = _)
  rw [decodeSlli, if_neg (mt bit12_eq_one_iff.1 (by omega)), if_pos (regFieldHigh_absent_iff.2 hrd)]

theorem decode_cLwspRes (h : matchesRow 0xEF83 0x4002 p = true) : decode p = .cLwspRes p := by
  have hrd : slice p 11 7 = 0 := slice_of_row h 11 7 (by decide)
  refine (decode_of_row h (by decide) (by decide)).trans (?_ : decodeLwsp p = _)
  rw [decodeLwsp, if_pos (regFieldHigh_eq_zero_iff.2 hrd)]

theorem decode_cLwspRv32e (h : matchesRow 0xE003 0x4002 p = true) (hrd : 16 ≤ slice p 11 7) :
    decode p = .cLwspRv32e p := by
  refine (decode_of_row h (by decide) (by decide)).trans (?_ : decodeLwsp p = _)
  rw [decodeLwsp, if_neg (mt regFieldHigh_eq_zero_iff.1 (by omega)),
    if_pos (regFieldHigh_absent_iff.2 hrd)]

theorem decode_cSwspRv32e (h : matchesRow 0xE003 0xC002 p = true) (hrs2 : 16 ≤ slice p 6 2) :
    decode p = .cSwspRv32e p := by
  refine (decode_of_row h (by decide) (by decide)).trans (?_ : decodeSwsp p = _)
  rw [decodeSwsp, if_pos (regFieldLow_absent_iff.2 hrs2)]

/-- The rows of C.JR and C.MV, inst[12] = 0 (42 R185). -/
theorem decode_jrMv_of_row {mask : Parcel} (h : matchesRow mask 0x8002 p = true)
    (hm : quadrantOf mask = 3 ∧ funct3Of mask = 7 ∧ slice mask 12 12 = 1) :
    decode p = decodeJrMv p := by
  obtain ⟨hmq, hmf, hmb⟩ := hm
  have hb : slice p 12 12 = 0 := slice_of_row h 12 12 hmb
  refine (decode_of_row h hmq hmf).trans
    (?_ : (if p.extractLsb' 12 1 = 1 then decodeJalrAdd p else decodeJrMv p) = _)
  rw [if_neg (mt bit12_eq_one_iff.1 (by omega))]

/-- The rows of C.EBREAK, C.JALR and C.ADD, inst[12] = 1 (42 R185). -/
theorem decode_jalrAdd_of_row {mask : Parcel} (h : matchesRow mask 0x9002 p = true)
    (hm : quadrantOf mask = 3 ∧ funct3Of mask = 7 ∧ slice mask 12 12 = 1) :
    decode p = decodeJalrAdd p := by
  obtain ⟨hmq, hmf, hmb⟩ := hm
  have hb : slice p 12 12 = 1 := slice_of_row h 12 12 hmb
  refine (decode_of_row h hmq hmf).trans
    (?_ : (if p.extractLsb' 12 1 = 1 then decodeJalrAdd p else decodeJrMv p) = _)
  rw [if_pos (bit12_eq_one_iff.2 hb)]

theorem decode_cJrRv32e (h : matchesRow 0xF07F 0x8002 p = true) (hrs1 : 16 ≤ slice p 11 7) :
    decode p = .cJrRv32e p := by
  have hl : slice p 6 2 = 0 := slice_of_row h 6 2 (by decide)
  rw [decode_jrMv_of_row h (by decide), decodeJrMv, if_pos (regFieldLow_eq_zero_iff.2 hl),
    if_neg (mt regFieldHigh_eq_zero_iff.1 (by omega)), if_pos (regFieldHigh_absent_iff.2 hrs1)]

theorem decode_cMvRv32eRd (h : matchesRow 0xF003 0x8002 p = true) (hrd : 16 ≤ slice p 11 7)
    (hl : slice p 6 2 ≠ 0) : decode p = .cMvRv32eRd p := by
  rw [decode_jrMv_of_row h (by decide), decodeJrMv, if_neg (mt regFieldLow_eq_zero_iff.1 hl),
    if_pos (regFieldHigh_absent_iff.2 hrd)]

theorem decode_cMvRv32eRs2 (h : matchesRow 0xF003 0x8002 p = true) (hrd : slice p 11 7 < 16)
    (hrs2 : 16 ≤ slice p 6 2) : decode p = .cMvRv32eRs2 p := by
  rw [decode_jrMv_of_row h (by decide), decodeJrMv, if_neg (mt regFieldLow_eq_zero_iff.1 (by omega)),
    if_neg (mt regFieldHigh_absent_iff.1 (by omega)), if_pos (regFieldLow_absent_iff.2 hrs2)]

theorem decode_cJalrRv32e (h : matchesRow 0xF07F 0x9002 p = true) (hrs1 : 16 ≤ slice p 11 7) :
    decode p = .cJalrRv32e p := by
  have hl : slice p 6 2 = 0 := slice_of_row h 6 2 (by decide)
  rw [decode_jalrAdd_of_row h (by decide), decodeJalrAdd, if_pos (regFieldLow_eq_zero_iff.2 hl),
    if_neg (mt regFieldHigh_eq_zero_iff.1 (by omega)), if_pos (regFieldHigh_absent_iff.2 hrs1)]

theorem decode_cAddRv32eRd (h : matchesRow 0xF003 0x9002 p = true) (hrd : 16 ≤ slice p 11 7)
    (hl : slice p 6 2 ≠ 0) : decode p = .cAddRv32eRd p := by
  rw [decode_jalrAdd_of_row h (by decide), decodeJalrAdd, if_neg (mt regFieldLow_eq_zero_iff.1 hl),
    if_pos (regFieldHigh_absent_iff.2 hrd)]

theorem decode_cAddRv32eRs2 (h : matchesRow 0xF003 0x9002 p = true) (hrd : slice p 11 7 < 16)
    (hrs2 : 16 ≤ slice p 6 2) : decode p = .cAddRv32eRs2 p := by
  rw [decode_jalrAdd_of_row h (by decide), decodeJalrAdd,
    if_neg (mt regFieldLow_eq_zero_iff.1 (by omega)), if_neg (mt regFieldHigh_absent_iff.1 (by omega)),
    if_pos (regFieldLow_absent_iff.2 hrs2)]

end

/-! ### The rows that are put together from operands -/

section
variable (f3 : BitVec 3) (q : BitVec 2)

theorem decode_encodeCIW (imm : BitVec 8) (rd : CReg) :
    decode (encodeCIW f3 imm rd q) = cellDecoder q.toNat f3.toNat (encodeCIW f3 imm rd q) :=
  decode_of_major (encodeCIW_major ..)

theorem decode_encodeCLS (imm : BitVec 5) (rs1 low : CReg) :
    decode (encodeCLS f3 imm rs1 low q) = cellDecoder q.toNat f3.toNat (encodeCLS f3 imm rs1 low q) :=
  decode_of_major (encodeCLS_major ..)

theorem decode_encodeCI (field : BitVec 6) (reg : BitVec 5) :
    decode (encodeCI f3 field reg q) = cellDecoder q.toNat f3.toNat (encodeCI f3 field reg q) :=
  decode_of_major (encodeCI_major ..)

theorem decode_encodeCJ (imm : BitVec 11) :
    decode (encodeCJ f3 imm q) = cellDecoder q.toNat f3.toNat (encodeCJ f3 imm q) :=
  decode_of_major (encodeCJ_major ..)

theorem decode_encodeCBranch (rs1 : CReg) (imm : BitVec 8) :
    decode (encodeCBranch f3 rs1 imm q) =
      cellDecoder q.toNat f3.toNat (encodeCBranch f3 rs1 imm q) :=
  decode_of_major (encodeCBranch_major ..)

theorem decode_encodeCBAlu (field : BitVec 6) (f2 : BitVec 2) (rd : CReg) :
    decode (encodeCBAlu field f2 rd) = decodeMiscAlu (encodeCBAlu field f2 rd) :=
  decode_of_major (encodeCBAlu_major ..)

theorem decode_encodeCA (rd : CReg) (f2 : BitVec 2) (rs2 : CReg) :
    decode (encodeCA rd f2 rs2) = decodeRegisterAlu (encodeCA rd f2 rs2) := by
  refine (decode_of_major (encodeCA_major ..)).trans (?_ : decodeMiscAlu _ = _)
  rw [decodeMiscAlu, bits11to10_encodeCA]
  rfl

theorem decode_encodeCR_zero (high low : BitVec 5) :
    decode (encodeCR 0#1 high low) = decodeJrMv (encodeCR 0#1 high low) := by
  refine (decode_of_major (encodeCR_major ..)).trans
    (?_ : (if (encodeCR 0#1 high low).extractLsb' 12 1 = 1 then _ else decodeJrMv _) = _)
  rw [bit12_encodeCR]
  rfl

theorem decode_encodeCR_one (high low : BitVec 5) :
    decode (encodeCR 1#1 high low) = decodeJalrAdd (encodeCR 1#1 high low) := by
  refine (decode_of_major (encodeCR_major ..)).trans
    (?_ : (if (encodeCR 1#1 high low).extractLsb' 12 1 = 1 then decodeJalrAdd _ else _) = _)
  rw [bit12_encodeCR]
  rfl

theorem decode_encodeCSS (imm : BitVec 6) (rs2 : RegIdx) :
    decode (encodeCSS f3 imm rs2 q) = cellDecoder q.toNat f3.toNat (encodeCSS f3 imm rs2 q) :=
  decode_of_major (encodeCSS_major ..)

end

/-! The shifts of RV32, by the shift amount and, for C.SLLI, the register (30 R93, R107). -/

theorem decode_encodeSrli (shamt : BitVec 5) (rd : CReg) :
    decode (encodeCBAlu (0#1 ++ shamt) 0b00 rd) =
      if shamt = 0 then .cSrli64Hint rd else .cSrli rd shamt := by
  simp [decode_encodeCBAlu, decodeMiscAlu]

theorem decode_encodeSrai (shamt : BitVec 5) (rd : CReg) :
    decode (encodeCBAlu (0#1 ++ shamt) 0b01 rd) =
      if shamt = 0 then .cSrai64Hint rd else .cSrai rd shamt := by
  simp [decode_encodeCBAlu, decodeMiscAlu]

theorem decode_encodeSlli (shamt : BitVec 5) (rd : RegIdx) :
    decode (encodeCI 0b000 (0#1 ++ shamt) (regField rd) 0b10) =
      if shamt = 0 then .cSlli64Hint rd else if rd = 0 then .cSlliHint shamt else .cSlli rd shamt := by
  simp [decode_encodeCI, cellDecoder, decodeSlli]

/-- The parcel of C.ADDI4SPN is not the illegal one, since its immediate is not 0 (30 R104). -/
theorem encodeCIW_ne_zero {f3 : BitVec 3} {q : BitVec 2} {imm : BitVec 8} {rd : CReg} (h : imm ≠ 0) :
    encodeCIW f3 imm rd q ≠ 0 := fun h0 => h (by
  rw [← immAddi4spn_encodeCIW f3 q imm rd, h0]
  rfl)

/-- A parcel of quadrant 3 is the first of a wider instruction (30 R70). -/
theorem decode_of_quadrant3 {p : Parcel} (h : slice p 1 0 = 3) : decode p = .wide p := by
  rw [decode_eq_cellDecoder, h]
  rfl

/-- Decoding undoes encoding on every well-formed instruction: first the rows of one parcel and the rows
that carry their parcel, then, cell by cell, the rows that are put together from operands. -/
theorem decode_encode {i : Instr} (h : i.wellFormed = true) : decode (encode i) = i := by
  cases i
  case cIllegal | cNop | cAddi16spRes | cJrRes | cEbreak => decide
  case cFld | cFlw | q0Reserved | cFsd | cFsw | cFldsp | cFlwsp | cFsdsp | cFswsp =>
    exact decode_of_row h (by decide) (by decide)
  case wide p => exact decode_of_quadrant3 (slice_of_row (mtch := 3) h 1 0 (by decide))
  case cSubwRes | cAddwRes | q1Reserved10 | q1Reserved11 =>
    exact decode_registerAlu_reserved h (by decide)
  case cSrliCustom => exact decode_cSrliCustom h
  case cSraiCustom => exact decode_cSraiCustom h
  case cSlliCustom => exact decode_cSlliCustom h
  case cLwspRes => exact decode_cLwspRes h
  all_goals
    simp only [Instr.wellFormed, Bool.and_eq_true, Bool.or_eq_true, bne_iff_ne, decide_eq_true_eq,
      and_assoc] at h
  case cAddi4spnRes => exact decode_cAddi4spnRes h.1 h.2
  case cAddiRv32e => exact decode_cAddiRv32e h.1 h.2
  case cLiRv32e => exact decode_cLiRv32e h.1 h.2
  case cLuiRes => exact decode_cLuiRes h.1 h.2
  case cLuiRv32e =>
    obtain ⟨hrow, hrd, himm⟩ := h
    exact decode_cLuiRv32e hrow hrd himm
  case cSlliRv32e => exact decode_cSlliRv32e h.1 h.2
  case cLwspRv32e => exact decode_cLwspRv32e h.1 h.2
  case cSwspRv32e => exact decode_cSwspRv32e h.1 h.2
  case cJrRv32e => exact decode_cJrRv32e h.1 h.2
  case cJalrRv32e => exact decode_cJalrRv32e h.1 h.2
  case cMvRv32eRd =>
    obtain ⟨hrow, hrd, hl⟩ := h
    exact decode_cMvRv32eRd hrow hrd hl
  case cMvRv32eRs2 =>
    obtain ⟨hrow, hrd, hrs2⟩ := h
    exact decode_cMvRv32eRs2 hrow hrd hrs2
  case cAddRv32eRd =>
    obtain ⟨hrow, hrd, hl⟩ := h
    exact decode_cAddRv32eRd hrow hrd hl
  case cAddRv32eRs2 =>
    obtain ⟨hrow, hrd, hrs2⟩ := h
    exact decode_cAddRv32eRs2 hrow hrd hrs2
  case cAddi4spn rd n =>
    refine (decode_encodeCIW 0 0 n rd).trans (?_ : decodeAddi4spn _ = _)
    rw [decodeAddi4spn, if_neg (encodeCIW_ne_zero h), immAddi4spn_encodeCIW, if_neg h,
      cregLow_encodeCIW]
  case cLw | cSw => simp [encode, decode_encodeCLS, cellDecoder]
  case cNopHint | cAddi | cAddiHint => simp_all [encode, decode_encodeCI, cellDecoder, decodeAddi]
  case cJal | cJ => simp [encode, decode_encodeCJ, cellDecoder]
  case cLi | cLiHint => simp_all [encode, decode_encodeCI, cellDecoder, decodeLi]
  case cAddi16sp | cLui | cLuiHint => simp_all [encode, decode_encodeCI, cellDecoder, decodeLui]
  case cSrli rd n => exact (decode_encodeSrli n rd).trans (if_neg h)
  case cSrli64Hint rd => exact decode_encodeSrli 0 rd
  case cSrai rd n => exact (decode_encodeSrai n rd).trans (if_neg h)
  case cSrai64Hint rd => exact decode_encodeSrai 0 rd
  case cAndi => simp [encode, decode_encodeCBAlu, decodeMiscAlu]
  case cSub | cXor | cOr | cAnd => simp [encode, decode_encodeCA, decodeRegisterAlu]
  case cBeqz | cBnez => simp [encode, decode_encodeCBranch, cellDecoder]
  case cSlli rd n => exact (decode_encodeSlli n rd).trans ((if_neg h.2).trans (if_neg h.1))
  case cSlliHint n => exact (decode_encodeSlli n 0).trans (if_neg h)
  case cSlli64Hint rd => exact decode_encodeSlli 0 rd
  case cLwsp => simp_all [encode, decode_encodeCI, cellDecoder, decodeLwsp]
  case cJr | cMv | cMvHint => simp_all [encode, decode_encodeCR_zero, decodeJrMv]
  case cJalr | cAdd | cAddHint => simp_all [encode, decode_encodeCR_one, decodeJalrAdd]
  case cSwsp => simp [encode, decode_encodeCSS, cellDecoder, decodeSwsp]

/-- Settles O1: decoding undoes encoding on each of the 72 rows. -/
theorem decodeOfEncodeIsTheInstruction : Obligations.DecodeOfEncodeIsTheInstruction :=
  fun _ h => decode_encode h

end Sys2Proof.Machine
end

section
/-!
SUPPORT. Every parcel decodes to a well-formed instruction whose parcel it is (30_encoding.md R103,
R118).
-/

namespace Sys2Proof.Machine

/-! ### Rows from fields -/

/-- The seven runs of bits that the masks of the rows cover whole or leave free (30 R118). -/
def rowFields : List (Nat × Nat) := [(1, 0), (4, 2), (6, 5), (9, 7), (11, 10), (12, 12), (15, 13)]

theorem toNat_rowFields (p : Parcel) :
    (((((slice p 15 13 * 2 ^ 1 + slice p 12 12) * 2 ^ 2 + slice p 11 10) * 2 ^ 3 + slice p 9 7) *
      2 ^ 2 + slice p 6 5) * 2 ^ 3 + slice p 4 2) * 2 ^ 2 + slice p 1 0 = p.toNat := by
  simp (disch := decide) only [slice, div_mod_merge]
  exact div_mod_all p

/-- Two parcels with the same bits in every run are one. -/
theorem eq_of_rowFields {x y : Parcel} (h : ∀ c ∈ rowFields, slice x c.1 c.2 = slice y c.1 c.2) :
    x = y := by
  simp only [rowFields, List.forall_mem_cons] at h
  obtain ⟨h0, h1, h2, h3, h4, h5, h6, -⟩ := h
  apply BitVec.eq_of_toNat_eq
  rw [← toNat_rowFields x, ← toNat_rowFields y, h0, h1, h2, h3, h4, h5, h6]

theorem slice_and (x y : Parcel) (hi lo : Nat) :
    slice (x &&& y) hi lo = slice x hi lo &&& slice y hi lo := by
  unfold slice
  rw [← toNat_extract, ← toNat_extract, ← toNat_extract, BitVec.extractLsb'_and, BitVec.toNat_and]

/-- A parcel meets a row's mask and match when it has the row's bits in every run the mask covers. -/
theorem matchesRow_of_rowFields {mask mtch p : Parcel} (hm : mtch &&& mask = mtch)
    (h : ∀ c ∈ rowFields, slice mask c.1 c.2 = 0 ∨ slice p c.1 c.2 = slice mtch c.1 c.2) :
    matchesRow mask mtch p = true := by
  refine beq_iff_eq.2 (eq_of_rowFields fun c hc => ?_)
  rw [slice_and, ← congrArg (slice · c.1 c.2) hm, slice_and]
  rcases h c hc with h0 | heq
  · rw [h0, Nat.and_zero, Nat.and_zero]
  · rw [heq]

section
variable {p mtch : Parcel}

/-- The rows with the mask of the major opcode. -/
theorem matchesRow_major (hm : mtch &&& 0xE003 = mtch) (hq : slice p 1 0 = slice mtch 1 0)
    (hf : slice p 15 13 = slice mtch 15 13) : matchesRow 0xE003 mtch p = true :=
  matchesRow_of_rowFields hm (by simp [rowFields, hq, hf]; simp [slice])

/-- The rows with the mask of the major opcode and inst[12]. -/
theorem matchesRow_major_bit12 (hm : mtch &&& 0xF003 = mtch) (hq : slice p 1 0 = slice mtch 1 0)
    (hf : slice p 15 13 = slice mtch 15 13) (hb : slice p 12 12 = slice mtch 12 12) :
    matchesRow 0xF003 mtch p = true :=
  matchesRow_of_rowFields hm (by simp [rowFields, hq, hf, hb]; simp [slice])

/-- The rows with the mask of the major opcode, inst[12] and inst[6:2]. -/
theorem matchesRow_major_bit12_low (hm : mtch &&& 0xF07F = mtch) (hq : slice p 1 0 = slice mtch 1 0)
    (hf : slice p 15 13 = slice mtch 15 13) (hb : slice p 12 12 = slice mtch 12 12)
    (hl : slice p 6 2 = slice mtch 6 2) : matchesRow 0xF07F mtch p = true := by
  have h65 (x : Parcel) : slice x 6 5 = slice x 6 2 / 8 := by simp only [slice]; omega
  have h42 (x : Parcel) : slice x 4 2 = slice x 6 2 % 8 := by simp only [slice]; omega
  exact matchesRow_of_rowFields hm (by simp [rowFields, hq, hf, hb, h65, h42, hl]; simp [slice])

/-- The custom rows of MISC-ALU, with the mask of the major opcode, inst[12] and inst[11:10]. -/
theorem matchesRow_major_bits12to10 (hm : mtch &&& 0xFC03 = mtch) (hq : slice p 1 0 = slice mtch 1 0)
    (hf : slice p 15 13 = slice mtch 15 13) (hb : slice p 12 12 = slice mtch 12 12)
    (h11 : slice p 11 10 = slice mtch 11 10) : matchesRow 0xFC03 mtch p = true :=
  matchesRow_of_rowFields hm (by simp [rowFields, hq, hf, hb, h11]; simp [slice])

/-- The reserved rows of MISC-ALU, whose mask has inst[6:5] besides. -/
theorem matchesRow_major_bits12to10_bits6to5 (hm : mtch &&& 0xFC63 = mtch)
    (hq : slice p 1 0 = slice mtch 1 0) (hf : slice p 15 13 = slice mtch 15 13)
    (hb : slice p 12 12 = slice mtch 12 12) (h11 : slice p 11 10 = slice mtch 11 10)
    (h65 : slice p 6 5 = slice mtch 6 5) : matchesRow 0xFC63 mtch p = true :=
  matchesRow_of_rowFields hm (by simp [rowFields, hq, hf, hb, h11, h65]; simp [slice])

/-- The row C.LWSP.RES, whose mask has inst[11:7]. -/
theorem matchesRow_lwspRes (hq : slice p 1 0 = 2) (hf : slice p 15 13 = 2) (hrd : slice p 11 7 = 0) :
    matchesRow 0xEF83 0x4002 p = true := by
  have h11 : slice p 11 10 = slice p 11 7 / 8 := by simp only [slice]; omega
  have h97 : slice p 9 7 = slice p 11 7 % 8 := by simp only [slice]; omega
  exact matchesRow_of_rowFields (by decide) (by simp [rowFields, hq, hf, h11, h97, hrd]; simp [slice])

/-- The row C.ADDI4SPN.RES, whose mask has inst[12:5]. -/
theorem matchesRow_addi4spnRes (hq : slice p 1 0 = 0) (hf : slice p 15 13 = 0)
    (himm : slice p 12 5 = 0) : matchesRow 0xFFE3 0x0000 p = true := by
  have hb : slice p 12 12 = slice p 12 5 / 128 := by simp only [slice]; omega
  have h11 : slice p 11 10 = slice p 12 5 / 32 % 4 := by simp only [slice]; omega
  have h97 : slice p 9 7 = slice p 12 5 / 4 % 8 := by simp only [slice]; omega
  have h65 : slice p 6 5 = slice p 12 5 % 4 := by simp only [slice]; omega
  exact matchesRow_of_rowFields (by decide)
    (by simp [rowFields, hq, hf, hb, h11, h97, h65, himm]; simp [slice])

end

/-! ### The instruction of a parcel -/

/-- The instruction meets its row's conditions, and its parcel is `p`. -/
def IsInstrOf (p : Parcel) (i : Instr) : Prop := i.wellFormed = true ∧ encode i = p

/-- A conjunction of two conditions of a row. -/
theorem and_intro {a b : Bool} (ha : a = true) (hb : b = true) : (a && b) = true :=
  Bool.and_eq_true_iff.2 ⟨ha, hb⟩

theorem regOfField_ne_zero {f : BitVec 5} (h : ¬ namesAbsentReg f = true) (h0 : f ≠ 0) :
    regOfField f ≠ 0 := fun e => h0 (by rw [← regField_regOfField h, e]; rfl)

section
variable {p : Parcel}

theorem major_of_slices {q f : Nat} (hq : slice p 1 0 = q) (hf : slice p 15 13 = f) :
    quadrantOf p = BitVec.ofNat 2 q ∧ funct3Of p = BitVec.ofNat 3 f := by
  rw [quadrantOf_eq, hq, funct3Of_eq, hf]
  exact ⟨rfl, rfl⟩

theorem isInstrOf_decodeAddi4spn (hq : slice p 1 0 = 0) (hf : slice p 15 13 = 0) :
    IsInstrOf p (decodeAddi4spn p) := by
  unfold decodeAddi4spn
  split_ifs with h0 himm
  · exact ⟨rfl, h0.symm⟩
  · rw [immAddi4spn_eq_zero_iff] at himm
    have hrd : slice p 4 2 ≠ 0 := fun h42 => h0 <| BitVec.eq_of_toNat_eq <| by
      have hp : p.toNat = 8192 * slice p 15 13 + 32 * slice p 12 5 + 4 * slice p 4 2 + slice p 1 0 := by
        have := p.isLt
        simp only [slice]
        omega
      rw [hp, hq, hf, himm, h42]
      rfl
    exact ⟨and_intro (matchesRow_addi4spnRes hq hf himm) (bne_iff_ne.2 hrd), rfl⟩
  · have hp := encodeCIW_fields p
    rw [funct3Of_eq, hf, quadrantOf_eq, hq] at hp
    exact ⟨bne_iff_ne.2 himm, hp⟩

theorem isInstrOf_decodeAddi (hq : slice p 1 0 = 1) (hf : slice p 15 13 = 0) :
    IsInstrOf p (decodeAddi p) := by
  have hp := encodeCI_fields p
  rw [funct3Of_eq, hf, quadrantOf_eq, hq] at hp
  unfold decodeAddi
  split_ifs with h0 himm hrd himm
  · rw [h0, himm] at hp
    exact ⟨rfl, hp⟩
  · rw [h0] at hp
    exact ⟨bne_iff_ne.2 himm, hp⟩
  · exact ⟨and_intro (matchesRow_major (by decide) hq hf)
      (decide_eq_true (regFieldHigh_absent_iff.1 hrd)), rfl⟩
  · rw [← regField_regOfField hrd, himm] at hp
    exact ⟨bne_iff_ne.2 (regOfField_ne_zero hrd h0), hp⟩
  · rw [← regField_regOfField hrd] at hp
    exact ⟨and_intro (bne_iff_ne.2 (regOfField_ne_zero hrd h0)) (bne_iff_ne.2 himm), hp⟩

theorem isInstrOf_decodeLi (hq : slice p 1 0 = 1) (hf : slice p 15 13 = 2) :
    IsInstrOf p (decodeLi p) := by
  have hp := encodeCI_fields p
  rw [funct3Of_eq, hf, quadrantOf_eq, hq] at hp
  unfold decodeLi
  split_ifs with hrd h0
  · exact ⟨and_intro (matchesRow_major (by decide) hq hf)
      (decide_eq_true (regFieldHigh_absent_iff.1 hrd)), rfl⟩
  · rw [h0] at hp
    exact ⟨rfl, hp⟩
  · rw [← regField_regOfField hrd] at hp
    exact ⟨bne_iff_ne.2 (regOfField_ne_zero hrd h0), hp⟩

theorem isInstrOf_decodeLui (hq : slice p 1 0 = 1) (hf : slice p 15 13 = 3) :
    IsInstrOf p (decodeLui p) := by
  have hp := encodeCI_fields p
  rw [funct3Of_eq, hf, quadrantOf_eq, hq] at hp
  unfold decodeLui
  split_ifs with h2 hsp himm hrd h0
  · rw [h2, ← scatterAddi16sp_imm, hsp] at hp
    exact ⟨rfl, hp⟩
  · rw [h2, ← scatterAddi16sp_imm] at hp
    exact ⟨bne_iff_ne.2 hsp, hp⟩
  · obtain ⟨hb, hl⟩ := (immSix_eq_zero_iff p).1 himm
    exact ⟨and_intro (matchesRow_major_bit12_low (by decide) hq hf hb hl)
      (bne_iff_ne.2 (mt regFieldHigh_eq_two_iff.2 h2)), rfl⟩
  · have hbl : slice p 12 12 ≠ 0 ∨ slice p 6 2 ≠ 0 := by
      have := mt (immSix_eq_zero_iff p).2 himm
      omega
    refine ⟨and_intro (and_intro (matchesRow_major (by decide) hq hf)
      (decide_eq_true (regFieldHigh_absent_iff.1 hrd))) ?_, rfl⟩
    simpa [bne_iff_ne] using hbl
  · rw [h0] at hp
    exact ⟨bne_iff_ne.2 himm, hp⟩
  · have hr2 : regOfField (regFieldHigh p) ≠ 2 := fun e => h2 (by
      rw [← regField_regOfField hrd, e]; rfl)
    rw [← regField_regOfField hrd] at hp
    exact ⟨and_intro (and_intro (bne_iff_ne.2 (regOfField_ne_zero hrd h0)) (bne_iff_ne.2 hr2))
      (bne_iff_ne.2 himm), hp⟩

theorem eq_zero_of_ne_one : ∀ {x : BitVec 1}, ¬ x = 1 → x = 0 := by decide

theorem eq_three_of_ne : ∀ {x : BitVec 2}, ¬ x = 0 → ¬ x = 1 → ¬ x = 2 → x = 3 := by decide

theorem bit12_eq_zero (hb : ¬ p.extractLsb' 12 1 = 1) : slice p 12 12 = 0 := by
  have h2 : slice p 12 12 < 2 := slice_lt p 12 12
  have h1 := mt bit12_eq_one_iff.2 hb
  omega

theorem bits11to10_eq_iff_slice (k : BitVec 2) :
    p.extractLsb' 10 2 = k ↔ slice p 11 10 = k.toNat := by
  rw [← BitVec.toNat_inj, toNat_extract]
  rfl

/-- Where inst[12] = 0 the 6-bit field is a shift amount of RV32 (30 R93). -/
theorem immSix_eq_shamt (hb : ¬ p.extractLsb' 12 1 = 1) : immSix p = 0#1 ++ regFieldLow p := by
  rw [immSix, eq_zero_of_ne_one hb]
  rfl

theorem isInstrOf_decodeRegisterAlu (hq : slice p 1 0 = 1) (hf : slice p 15 13 = 4)
    (h11 : slice p 11 10 = 3) : IsInstrOf p (decodeRegisterAlu p) := by
  unfold decodeRegisterAlu
  split_ifs with hb h0 h1 h2 h0 h1 h2
  · exact ⟨matchesRow_major_bits12to10_bits6to5 (by decide) hq hf (bit12_eq_one_iff.1 hb) h11
      ((bits6to5_eq_iff _).1 h0), rfl⟩
  · exact ⟨matchesRow_major_bits12to10_bits6to5 (by decide) hq hf (bit12_eq_one_iff.1 hb) h11
      ((bits6to5_eq_iff _).1 h1), rfl⟩
  · exact ⟨matchesRow_major_bits12to10_bits6to5 (by decide) hq hf (bit12_eq_one_iff.1 hb) h11
      ((bits6to5_eq_iff _).1 h2), rfl⟩
  · exact ⟨matchesRow_major_bits12to10_bits6to5 (by decide) hq hf (bit12_eq_one_iff.1 hb) h11
      ((bits6to5_eq_iff _).1 (eq_three_of_ne h0 h1 h2)), rfl⟩
  all_goals
    have hp := encodeCA_fields (major_of_slices (f := 4) hq hf) (eq_zero_of_ne_one hb)
      (by rw [bits11to10_eq, h11])
  · rw [h0] at hp
    exact ⟨rfl, hp⟩
  · rw [h1] at hp
    exact ⟨rfl, hp⟩
  · rw [h2] at hp
    exact ⟨rfl, hp⟩
  · rw [eq_three_of_ne h0 h1 h2] at hp
    exact ⟨rfl, hp⟩

theorem isInstrOf_decodeMiscAlu (hq : slice p 1 0 = 1) (hf : slice p 15 13 = 4) :
    IsInstrOf p (decodeMiscAlu p) := by
  have hp := encodeCBAlu_fields (major_of_slices (f := 4) hq hf)
  unfold decodeMiscAlu
  split_ifs with h00 hb hl h01 hb hl h10
  · exact ⟨matchesRow_major_bits12to10 (by decide) hq hf (bit12_eq_one_iff.1 hb)
      ((bits11to10_eq_iff_slice _).1 h00), rfl⟩
  · rw [immSix_eq_shamt hb, h00, hl] at hp
    exact ⟨rfl, hp⟩
  · rw [immSix_eq_shamt hb, h00] at hp
    exact ⟨bne_iff_ne.2 hl, hp⟩
  · exact ⟨matchesRow_major_bits12to10 (by decide) hq hf (bit12_eq_one_iff.1 hb)
      ((bits11to10_eq_iff_slice _).1 h01), rfl⟩
  · rw [immSix_eq_shamt hb, h01, hl] at hp
    exact ⟨rfl, hp⟩
  · rw [immSix_eq_shamt hb, h01] at hp
    exact ⟨bne_iff_ne.2 hl, hp⟩
  · rw [h10] at hp
    exact ⟨rfl, hp⟩
  · exact isInstrOf_decodeRegisterAlu hq hf
      ((bits11to10_eq_iff_slice _).1 (eq_three_of_ne h00 h01 h10))

theorem isInstrOf_decodeSlli (hq : slice p 1 0 = 2) (hf : slice p 15 13 = 0) :
    IsInstrOf p (decodeSlli p) := by
  have hp := encodeCI_fields p
  rw [funct3Of_eq, hf, quadrantOf_eq, hq] at hp
  unfold decodeSlli
  split_ifs with hb hrd hl h0
  · exact ⟨matchesRow_major_bit12 (by decide) hq hf (bit12_eq_one_iff.1 hb), rfl⟩
  · exact ⟨and_intro (matchesRow_major_bit12 (by decide) hq hf (bit12_eq_zero hb))
      (decide_eq_true (regFieldHigh_absent_iff.1 hrd)), rfl⟩
  · rw [immSix_eq_shamt hb, hl, ← regField_regOfField hrd] at hp
    exact ⟨rfl, hp⟩
  · rw [immSix_eq_shamt hb, h0] at hp
    exact ⟨bne_iff_ne.2 hl, hp⟩
  · rw [immSix_eq_shamt hb, ← regField_regOfField hrd] at hp
    exact ⟨and_intro (bne_iff_ne.2 (regOfField_ne_zero hrd h0)) (bne_iff_ne.2 hl), hp⟩

theorem isInstrOf_decodeLwsp (hq : slice p 1 0 = 2) (hf : slice p 15 13 = 2) :
    IsInstrOf p (decodeLwsp p) := by
  have hp := encodeCI_fields p
  rw [funct3Of_eq, hf, quadrantOf_eq, hq, ← scatterLwsp_imm] at hp
  unfold decodeLwsp
  split_ifs with h0 hrd
  · exact ⟨matchesRow_lwspRes hq hf (regFieldHigh_eq_zero_iff.1 h0), rfl⟩
  · exact ⟨and_intro (matchesRow_major (by decide) hq hf)
      (decide_eq_true (regFieldHigh_absent_iff.1 hrd)), rfl⟩
  · rw [← regField_regOfField hrd] at hp
    exact ⟨bne_iff_ne.2 (regOfField_ne_zero hrd h0), hp⟩

theorem isInstrOf_decodeSwsp (hq : slice p 1 0 = 2) (hf : slice p 15 13 = 6) :
    IsInstrOf p (decodeSwsp p) := by
  unfold decodeSwsp
  split_ifs with hrs2
  · exact ⟨and_intro (matchesRow_major (by decide) hq hf)
      (decide_eq_true (regFieldLow_absent_iff.1 hrs2)), rfl⟩
  · have hp := encodeCSS_fields hrs2
    rw [funct3Of_eq, hf, quadrantOf_eq, hq] at hp
    exact ⟨rfl, hp⟩

/-- The cell of C.JR and C.MV, and the one of C.JALR and C.ADD: the same rows for either value of
inst[12] (42 R185). -/
theorem isInstrOf_crCells (hq : slice p 1 0 = 2) (hf : slice p 15 13 = 4) :
    (slice p 12 12 = 0 → IsInstrOf p (decodeJrMv p)) ∧
      (slice p 12 12 = 1 → IsInstrOf p (decodeJalrAdd p)) := by
  have hp := encodeCR_fields (major_of_slices (f := 4) hq hf)
  constructor <;> intro hb <;> rw [bit12_eq, hb] at hp
  all_goals
    simp only [decodeJrMv, decodeJalrAdd]
    split_ifs with hl h0 hrd hrd hrs2 h0
    · rw [hl, h0] at hp
      exact ⟨rfl, hp⟩
    · exact ⟨and_intro (matchesRow_major_bit12_low (by decide) hq hf hb (regFieldLow_eq_zero_iff.1 hl))
        (decide_eq_true (regFieldHigh_absent_iff.1 hrd)), rfl⟩
    · rw [hl, ← regField_regOfField hrd] at hp
      exact ⟨bne_iff_ne.2 (regOfField_ne_zero hrd h0), hp⟩
    · exact ⟨and_intro (and_intro (matchesRow_major_bit12 (by decide) hq hf hb)
        (decide_eq_true (regFieldHigh_absent_iff.1 hrd)))
        (bne_iff_ne.2 (mt regFieldLow_eq_zero_iff.2 hl)), rfl⟩
    · exact ⟨and_intro (and_intro (matchesRow_major_bit12 (by decide) hq hf hb)
        (decide_eq_true (Nat.lt_of_not_le (mt regFieldHigh_absent_iff.2 hrd))))
        (decide_eq_true (regFieldLow_absent_iff.1 hrs2)), rfl⟩
    · rw [h0, ← regField_regOfField hrs2] at hp
      exact ⟨bne_iff_ne.2 (regOfField_ne_zero hrs2 hl), hp⟩
    · rw [← regField_regOfField hrd, ← regField_regOfField hrs2] at hp
      exact ⟨and_intro (bne_iff_ne.2 (regOfField_ne_zero hrd h0))
        (bne_iff_ne.2 (regOfField_ne_zero hrs2 hl)), hp⟩

/-- Quadrant 0: one case for each cell, funct3 0 to 7 in order. -/
theorem isInstrOf_quadrant0 (hq : slice p 1 0 = 0) : IsInstrOf p (cellDecoder 0 (slice p 15 13) p) := by
  obtain ⟨f, hf⟩ : ∃ f, slice p 15 13 = f := ⟨_, rfl⟩
  have hlt : f < 8 := hf ▸ slice_lt p 15 13
  have hp := encodeCLS_fields p
  rw [funct3Of_eq, hf, quadrantOf_eq, hq] at hp
  rw [hf]
  interval_cases f
  · exact isInstrOf_decodeAddi4spn hq hf
  · exact ⟨matchesRow_major (by decide) hq hf, rfl⟩
  · exact ⟨rfl, hp⟩
  · exact ⟨matchesRow_major (by decide) hq hf, rfl⟩
  · exact ⟨matchesRow_major (by decide) hq hf, rfl⟩
  · exact ⟨matchesRow_major (by decide) hq hf, rfl⟩
  · exact ⟨rfl, hp⟩
  · exact ⟨matchesRow_major (by decide) hq hf, rfl⟩

/-- Quadrant 1: one case for each cell, funct3 0 to 7 in order. -/
theorem isInstrOf_quadrant1 (hq : slice p 1 0 = 1) : IsInstrOf p (cellDecoder 1 (slice p 15 13) p) := by
  obtain ⟨f, hf⟩ : ∃ f, slice p 15 13 = f := ⟨_, rfl⟩
  have hlt : f < 8 := hf ▸ slice_lt p 15 13
  have hjump := encodeCJ_fields p
  have hbranch := encodeCBranch_fields p
  rw [funct3Of_eq, hf, quadrantOf_eq, hq] at hjump hbranch
  rw [hf]
  interval_cases f
  · exact isInstrOf_decodeAddi hq hf
  · exact ⟨rfl, hjump⟩
  · exact isInstrOf_decodeLi hq hf
  · exact isInstrOf_decodeLui hq hf
  · exact isInstrOf_decodeMiscAlu hq hf
  · exact ⟨rfl, hjump⟩
  · exact ⟨rfl, hbranch⟩
  · exact ⟨rfl, hbranch⟩

/-- Quadrant 2: one case for each cell, funct3 0 to 7 in order. -/
theorem isInstrOf_quadrant2 (hq : slice p 1 0 = 2) : IsInstrOf p (cellDecoder 2 (slice p 15 13) p) := by
  obtain ⟨f, hf⟩ : ∃ f, slice p 15 13 = f := ⟨_, rfl⟩
  have hlt : f < 8 := hf ▸ slice_lt p 15 13
  rw [hf]
  interval_cases f
  · exact isInstrOf_decodeSlli hq hf
  · exact ⟨matchesRow_major (by decide) hq hf, rfl⟩
  · exact isInstrOf_decodeLwsp hq hf
  · exact ⟨matchesRow_major (by decide) hq hf, rfl⟩
  · show IsInstrOf p (if p.extractLsb' 12 1 = 1 then decodeJalrAdd p else decodeJrMv p)
    obtain ⟨hzero, hone⟩ := isInstrOf_crCells hq hf
    split_ifs with hb
    · exact hone (bit12_eq_one_iff.1 hb)
    · exact hzero (bit12_eq_zero hb)
  · exact ⟨matchesRow_major (by decide) hq hf, rfl⟩
  · exact isInstrOf_decodeSwsp hq hf
  · exact ⟨matchesRow_major (by decide) hq hf, rfl⟩

end

/-- Every parcel decodes to a well-formed instruction whose parcel it is. -/
theorem isInstrOf_decode (p : Parcel) : IsInstrOf p (decode p) := by
  obtain ⟨q, hq⟩ : ∃ q, slice p 1 0 = q := ⟨_, rfl⟩
  have hlt : q < 4 := hq ▸ slice_lt p 1 0
  rw [decode_eq_cellDecoder, hq]
  interval_cases q
  · exact isInstrOf_quadrant0 hq
  · exact isInstrOf_quadrant1 hq
  · exact isInstrOf_quadrant2 hq
  · exact ⟨matchesRow_of_rowFields (by decide) (by simp [rowFields, hq]; simp [slice]), rfl⟩

/-- Settles O2: by the cell of the parcel. -/
theorem everyParcelIsItsInstructionsEncoding : Obligations.EveryParcelIsItsInstructionsEncoding :=
  isInstrOf_decode

end Sys2Proof.Machine
end

section
/-!
SUPPORT. The classes of parcels and the rows that the decoder gives them (30_encoding.md R104 to R111).
-/

namespace Sys2Proof.Machine

/-- Settles O32: the cell of quadrant 3, and the meaning of its row. -/
theorem quadrantThreeIsRefused : Obligations.QuadrantThreeIsRefused :=
  fun _ _ h => ⟨decode_of_quadrant3 h, rfl⟩

/-- Settles O34: the decoded instruction raises the exception exactly by the parcel's class. -/
theorem illegalParcelsAreExact : Obligations.IllegalParcelsAreExact := by
  intro p s
  simp only [exec_eq_trap_iff, execRaises_illegal_iff]
  constructor
  · rintro ⟨_, _, -, hp, -⟩
    exact hp
  · exact fun hp => ⟨_, _, rfl, hp, rfl⟩

/-! ### The class of a row that traps -/

section
variable {p : Parcel}

/-- A row with the mask of the major opcode is of an absent extension when its match is (30 R109). -/
theorem absentExtensionRow_of_row {mtch : Parcel} (h : matchesRow 0xE003 mtch p = true)
    (hm : AbsentExtensionRow mtch) : AbsentExtensionRow p := by
  have hq := slice_of_row h 1 0 (by decide)
  have hf := slice_of_row h 15 13 (by decide)
  rwa [AbsentExtensionRow, ← hq, ← hf] at hm

/-- The rows of C.SUBW and C.ADDW and the two rows below them are reserved (30 R105, group 5). -/
theorem reservedRow_of_registerAlu {mtch : Parcel} (h : matchesRow 0xFC63 mtch p = true)
    (hm : matchesRow 0xFC03 0x9C01 mtch = true) : ReservedRow p := by
  have hq := (slice_of_row h 1 0 (by decide)).trans (slice_of_row hm 1 0 (by decide))
  have hf := (slice_of_row h 15 13 (by decide)).trans (slice_of_row hm 15 13 (by decide))
  have hb := (slice_of_row h 12 12 (by decide)).trans (slice_of_row hm 12 12 (by decide))
  have h11 := (slice_of_row h 11 10 (by decide)).trans (slice_of_row hm 11 10 (by decide))
  exact .inr (.inr (.inr (.inr (.inl ⟨hq, hf, hb, h11⟩))))

/-- The reserved rows by their conditions (30 R105): the rows with two or more conditions. -/
theorem reservedRow_of_wellFormed {i : Instr} (hw : i.wellFormed = true)
    (hi : i = .cAddi4spnRes p ∨ i = .q0Reserved p ∨ i = .cLuiRes p ∨ i = .cLwspRes p) :
    ReservedRow p := by
  rcases hi with rfl | rfl | rfl | rfl
  · obtain ⟨hrow, hrd⟩ := Bool.and_eq_true_iff.1 hw
    exact .inl ⟨slice_of_row hrow 1 0 (by decide), slice_of_row hrow 15 13 (by decide),
      slice_of_row hrow 12 5 (by decide), bne_iff_ne.1 hrd⟩
  · exact .inr (.inl ⟨slice_of_row hw 1 0 (by decide), slice_of_row hw 15 13 (by decide)⟩)
  · obtain ⟨hrow, hrd⟩ := Bool.and_eq_true_iff.1 hw
    exact .inr (.inr (.inr (.inl ⟨slice_of_row hrow 1 0 (by decide),
      slice_of_row hrow 15 13 (by decide), slice_of_row hrow 12 12 (by decide),
      slice_of_row hrow 6 2 (by decide), bne_iff_ne.1 hrd⟩)))
  · exact .inr (.inr (.inr (.inr (.inr (.inl ⟨slice_of_row hw 1 0 (by decide),
      slice_of_row hw 15 13 (by decide), slice_of_row hw 11 7 (by decide)⟩)))))

/-- The custom rows by their conditions (30 R106). -/
theorem customRow_of_wellFormed {i : Instr} (hw : i.wellFormed = true)
    (hi : i = .cSrliCustom p ∨ i = .cSraiCustom p ∨ i = .cSlliCustom p) : CustomRow p := by
  rcases hi with rfl | rfl | rfl
  · exact .inl ⟨slice_of_row hw 1 0 (by decide), slice_of_row hw 15 13 (by decide),
      slice_of_row hw 12 12 (by decide), slice_of_row hw 11 10 (by decide)⟩
  · exact .inr (.inl ⟨slice_of_row hw 1 0 (by decide), slice_of_row hw 15 13 (by decide),
      slice_of_row hw 12 12 (by decide), slice_of_row hw 11 10 (by decide)⟩)
  · exact .inr (.inr ⟨slice_of_row hw 1 0 (by decide), slice_of_row hw 15 13 (by decide),
      slice_of_row hw 12 12 (by decide)⟩)

/-- An instruction is of one of the twelve rows that name x16 to x31 (30 R108). -/
def isRv32eRow : Instr → Bool
  | .cAddiRv32e _ => true
  | .cLiRv32e _ => true
  | .cLuiRv32e _ => true
  | .cSlliRv32e _ => true
  | .cLwspRv32e _ => true
  | .cJrRv32e _ => true
  | .cJalrRv32e _ => true
  | .cMvRv32eRd _ => true
  | .cMvRv32eRs2 _ => true
  | .cAddRv32eRd _ => true
  | .cAddRv32eRs2 _ => true
  | .cSwspRv32e _ => true
  | _ => false

/-- A well-formed instruction that traps as an illegal one, with a parcel that is not the illegal one,
reserved, custom or of an absent extension, is of a row that names x16 to x31. -/
theorem isRv32eRow_of_illegal {i : Instr} (hw : i.wellFormed = true)
    (hstop : stopOf i = some (.illegal p)) (h0 : p ≠ 0) (hres : ¬ ReservedRow p)
    (hcustom : ¬ CustomRow p) (hext : ¬ AbsentExtensionRow p) : isRv32eRow i = true := by
  cases i <;> cases hstop
  case cIllegal => exact absurd rfl h0
  case cFld | cFlw | cFsd | cFsw | cFldsp | cFlwsp | cFsdsp | cFswsp =>
    exact absurd (absentExtensionRow_of_row hw (by unfold AbsentExtensionRow; decide)) hext
  case cSrliCustom | cSraiCustom | cSlliCustom =>
    exact absurd (customRow_of_wellFormed hw (by simp)) hcustom
  case cAddi4spnRes | q0Reserved | cLuiRes | cLwspRes =>
    exact absurd (reservedRow_of_wellFormed hw (by simp)) hres
  case cSubwRes | cAddwRes | q1Reserved10 | q1Reserved11 =>
    exact absurd (reservedRow_of_registerAlu hw (by decide)) hres
  case cAddi16spRes => exact absurd (.inr (.inr (.inl rfl))) hres
  case cJrRes => exact absurd (.inr (.inr (.inr (.inr (.inr (.inr rfl)))))) hres
  all_goals rfl

end

/-- Settles O33: the parcel traps, and every other row that traps is of a class that is excluded. -/
theorem absentRegistersTrap : Obligations.AbsentRegistersTrap := by
  intro p s hp
  have hillegal : IllegalRow p := .inr (.inr (.inr (.inr hp)))
  obtain ⟨-, h0, hres, hcustom, hext⟩ := hp
  refine ⟨(exec_eq_trap_iff ..).2 ⟨rfl, (execRaises_illegal_iff ..).2 ⟨hillegal, rfl⟩⟩, ?_⟩
  have hstop : stopOf (decode p) = some (.illegal p) := (stopOf_decode_eq_iff p _).2 ⟨rfl, hillegal⟩
  obtain ⟨hw, -⟩ := isInstrOf_decode p
  have hrow := isRv32eRow_of_illegal hw hstop h0 hres hcustom hext
  generalize decode p = i at *
  cases i <;> cases hrow <;> cases hstop <;> simp

/-! ### The HINT rows -/

/-- The HINT rows of the cell of quadrant `q` and funct3 `f`, where `b` is inst[12], `h` is inst[11:7]
and `l` is inst[6:2]: the ten groups of 30 R107 read cell by cell, as the decoder goes (30 R103). -/
def HintFields (q f b h l : Nat) : Prop :=
  match q, f with
  | 1, 0 => (h = 0 ∧ (b ≠ 0 ∨ l ≠ 0)) ∨ (h ≠ 0 ∧ h < 16 ∧ b = 0 ∧ l = 0)
  | 1, 2 => h = 0
  | 1, 3 => h = 0 ∧ (b ≠ 0 ∨ l ≠ 0)
  | 1, 4 => b = 0 ∧ h / 8 < 2 ∧ l = 0
  | 2, 0 => b = 0 ∧ (h = 0 ∨ (h < 16 ∧ l = 0))
  | 2, 4 => h = 0 ∧ l ≠ 0 ∧ l < 16
  | _, _ => False

theorem hintRow_iff_fields (p : Parcel) :
    HintRow p ↔ HintFields (slice p 1 0) (slice p 15 13) (slice p 12 12) (slice p 11 7)
      (slice p 6 2) := by
  have h1110 : slice p 11 10 = slice p 11 7 / 8 := by simp only [slice]; omega
  have hq : slice p 1 0 < 4 := slice_lt p 1 0
  have hf : slice p 15 13 < 8 := slice_lt p 15 13
  have hb : slice p 12 12 < 2 := slice_lt p 12 12
  simp only [HintRow, h1110]
  generalize slice p 1 0 = q at *
  generalize slice p 15 13 = f at *
  interval_cases q <;> interval_cases f <;> simp [HintFields] <;> omega

section
variable {p : Parcel}

theorem isHint_decodeAddi4spn : isHint (decodeAddi4spn p) = false := by
  unfold decodeAddi4spn
  split_ifs <;> rfl

theorem isHint_decodeAddi : isHint (decodeAddi p) = true ↔
    (slice p 11 7 = 0 ∧ (slice p 12 12 ≠ 0 ∨ slice p 6 2 ≠ 0)) ∨
      (slice p 11 7 ≠ 0 ∧ slice p 11 7 < 16 ∧ slice p 12 12 = 0 ∧ slice p 6 2 = 0) := by
  simp only [decodeAddi, regFieldHigh_eq_zero_iff, regFieldHigh_absent_iff, immSix_eq_zero_iff]
  split_ifs <;> simp [isHint] <;> omega

theorem isHint_decodeLi : isHint (decodeLi p) = true ↔ slice p 11 7 = 0 := by
  simp only [decodeLi, regFieldHigh_eq_zero_iff, regFieldHigh_absent_iff]
  split_ifs <;> simp [isHint] <;> omega

theorem isHint_decodeLui : isHint (decodeLui p) = true ↔
    slice p 11 7 = 0 ∧ (slice p 12 12 ≠ 0 ∨ slice p 6 2 ≠ 0) := by
  simp only [decodeLui, regFieldHigh_eq_two_iff, regFieldHigh_eq_zero_iff, regFieldHigh_absent_iff,
    immSix_eq_zero_iff]
  split_ifs <;> simp [isHint] <;> omega

theorem isHint_decodeRegisterAlu : isHint (decodeRegisterAlu p) = false := by
  unfold decodeRegisterAlu
  split_ifs <;> rfl

theorem isHint_decodeMiscAlu : isHint (decodeMiscAlu p) = true ↔
    slice p 12 12 = 0 ∧ slice p 11 7 / 8 < 2 ∧ slice p 6 2 = 0 := by
  have hb : slice p 12 12 < 2 := slice_lt p 12 12
  simp only [decodeMiscAlu, bits11to10_eq_iff, bit12_eq_one_iff, regFieldLow_eq_zero_iff,
    apply_ite isHint, isHint_decodeRegisterAlu]
  simp only [isHint, BitVec.ofNat_eq_ofNat, BitVec.toNat_ofNat]
  split_ifs <;> simp <;> omega

theorem isHint_decodeSlli : isHint (decodeSlli p) = true ↔
    slice p 12 12 = 0 ∧ (slice p 11 7 = 0 ∨ (slice p 11 7 < 16 ∧ slice p 6 2 = 0)) := by
  have hb : slice p 12 12 < 2 := slice_lt p 12 12
  simp only [decodeSlli, bit12_eq_one_iff, regFieldHigh_eq_zero_iff, regFieldHigh_absent_iff,
    regFieldLow_eq_zero_iff]
  split_ifs <;> simp [isHint] <;> omega

theorem isHint_decodeLwsp : isHint (decodeLwsp p) = false := by
  unfold decodeLwsp
  split_ifs <;> rfl

theorem isHint_decodeJrMv : isHint (decodeJrMv p) = true ↔
    slice p 11 7 = 0 ∧ slice p 6 2 ≠ 0 ∧ slice p 6 2 < 16 := by
  simp only [decodeJrMv, regFieldHigh_eq_zero_iff, regFieldHigh_absent_iff, regFieldLow_eq_zero_iff,
    regFieldLow_absent_iff]
  split_ifs <;> simp [isHint] <;> omega

theorem isHint_decodeJalrAdd : isHint (decodeJalrAdd p) = true ↔
    slice p 11 7 = 0 ∧ slice p 6 2 ≠ 0 ∧ slice p 6 2 < 16 := by
  simp only [decodeJalrAdd, regFieldHigh_eq_zero_iff, regFieldHigh_absent_iff, regFieldLow_eq_zero_iff,
    regFieldLow_absent_iff]
  split_ifs <;> simp [isHint] <;> omega

theorem isHint_decodeSwsp : isHint (decodeSwsp p) = false := by
  unfold decodeSwsp
  split_ifs <;> rfl

/-- Each cell, quadrant 0 to 3 and funct3 0 to 7 in order. -/
theorem isHint_cellDecoder {q f : Nat} (hq : q < 4) (hf : f < 8) : isHint (cellDecoder q f p) = true ↔
    HintFields q f (slice p 12 12) (slice p 11 7) (slice p 6 2) := by
  have noHint {i : Instr} (h : isHint i = false) : isHint i = true ↔ False := by simp [h]
  interval_cases q
  · interval_cases f
    · exact noHint isHint_decodeAddi4spn
    all_goals exact noHint rfl
  · interval_cases f
    · exact isHint_decodeAddi
    · exact noHint rfl
    · exact isHint_decodeLi
    · exact isHint_decodeLui
    · exact isHint_decodeMiscAlu
    all_goals exact noHint rfl
  · interval_cases f
    · exact isHint_decodeSlli
    · exact noHint rfl
    · exact noHint isHint_decodeLwsp
    · exact noHint rfl
    · show isHint (if p.extractLsb' 12 1 = 1 then decodeJalrAdd p else decodeJrMv p) = true ↔ _
      split
      · exact isHint_decodeJalrAdd
      · exact isHint_decodeJrMv
    · exact noHint rfl
    · exact noHint isHint_decodeSwsp
    · exact noHint rfl
  · exact noHint rfl

end

/-- Settles O35: by the cell of the parcel; a HINT goes on and changes nothing else. -/
theorem hintParcelsAreExact : Obligations.HintParcelsAreExact := by
  intro p
  have hint : isHint (decode p) = true ↔ HintRow p := by
    rw [hintRow_iff_fields, decode_eq_cellDecoder]
    exact isHint_cellDecoder (slice_lt p 1 0) (slice_lt p 15 13)
  exact ⟨hint, fun h s => ⟨advance s, exec_of_isHint (hint.2 h) s, goesTo_advance s⟩⟩

end Sys2Proof.Machine
end

section
/-!
SUPPORT. The instructions and the rows of quadrant 0 (40_quadrant0.md), with the floating-point rows of
quadrant 2 (42_quadrant2.md R182), each by the cell of its parcel.
-/

namespace Sys2Proof.Machine

/-! ### The instruction of a parcel -/

/-- A well-formed instruction is what its parcel decodes to. -/
theorem IsInstrOf.decode_eq {p : Parcel} {i : Instr} (h : IsInstrOf p i) : decode p = i := by
  obtain ⟨hw, rfl⟩ := h
  exact decode_encode hw

/-- Settles O3: each example is the parcel of the well-formed instruction it names. -/
theorem exampleParcelsDecode : Obligations.ExampleParcelsDecode := by
  unfold Obligations.ExampleParcelsDecode
  refine ⟨?_, ?_, ?_, ?_, ?_, ?_, ?_, ?_, ?_, ?_, ?_, ?_, ?_, ?_, ?_, ?_, ?_, ?_⟩
  all_goals exact IsInstrOf.decode_eq ⟨by decide, by decide⟩

/-- The decoder of a parcel with known inst[1:0] and inst[15:13] (30 R103). -/
theorem decode_of_slices {p : Parcel} {q f : Nat} (hq : slice p 1 0 = q) (hf : slice p 15 13 = f) :
    decode p = cellDecoder q f p := by
  rw [decode_eq_cellDecoder, hq, hf]

/-! ### The rows that trap (30 R104, R105, R109) -/

/-- An instruction whose stop is that of an illegal parcel raises `IllegalInstruction` with it. -/
theorem exec_eq_illegalTrap {i : Instr} {p : Parcel} (h : stopOf i = some (.illegal p)) (s : State) :
    exec i s = illegalTrap p s := by
  obtain ⟨hexec, -⟩ := exec_of_stopOf h s
  rw [hexec, illegalTrap, BitVec.ofNat_toNat]
  rfl

/-- Settles O4: the stop of C.ILLEGAL is that of the parcel 0x0000. -/
theorem allZeroParcelIsIllegal : Obligations.AllZeroParcelIsIllegal :=
  ⟨IsInstrOf.decode_eq ⟨rfl, rfl⟩, exec_eq_illegalTrap (p := 0) rfl⟩

/-- Settles O8: each of the nine cells holds one row, which carries its parcel and stops with it. -/
theorem reservedSlotAndFloatingRowsTrap : Obligations.ReservedSlotAndFloatingRowsTrap := by
  intro p s
  refine ⟨?_, ?_, ?_, ?_, ?_, ?_, ?_, ?_, ?_⟩
  all_goals exact fun hq hf => ⟨decode_of_slices hq hf, exec_eq_illegalTrap rfl s⟩

/-! ### C.ADDI4SPN and its RES form -/

section
variable {p : Parcel}

/-- The cell of C.ADDI4SPN where inst[12:5] is not 0 (40 R121). -/
theorem decode_cAddi4spn (hq : slice p 1 0 = 0) (hf : slice p 15 13 = 0) (himm : slice p 12 5 ≠ 0) :
    decode p = .cAddi4spn (Fin.ofNat 8 (slice p 4 2)) (immAddi4spn p) := by
  have hp : p ≠ 0 := fun h0 => himm (by rw [h0]; rfl)
  refine (decode_of_slices hq hf).trans (?_ : decodeAddi4spn p = _)
  rw [decodeAddi4spn, if_neg hp, if_neg (mt (immAddi4spn_eq_zero_iff p).1 himm), cregLow_eq]

/-- The one parcel of quadrant 0, funct3 000, whose other bits are 0 (40 R120). -/
theorem eq_zero_of_slices (hq : slice p 1 0 = 0) (hf : slice p 15 13 = 0) (h122 : slice p 12 2 = 0) :
    p = 0 := by
  have hlt := p.isLt
  apply BitVec.eq_of_toNat_eq
  simp only [slice] at *
  show p.toNat = 0
  omega

end

/-- C.ADDI4SPN goes on with x2 + nzuimm in x(8 + rd'). -/
theorem exec_cAddi4spn (p : Parcel) (s : State) :
    ∃ t, exec (.cAddi4spn (Fin.ofNat 8 (slice p 4 2)) (immAddi4spn p)) s = .next t ∧
      SetsRegister (xPrime (slice p 4 2)) (readReg 2 s + BitVec.ofNat 32 (addi4spnOf p)) s t := by
  have hrd : slice p 4 2 < 8 := slice_lt p 4 2
  rw [← nzuimmAddi4spn_of, ← cregIdx_ofNat _ hrd]
  exact ⟨_, rfl, setsRegister_writeReg _ _ (cregIdx_ofNat _ hrd ▸ xPrime_ne_zero _ hrd)⟩

/-- Settles O5: by inst[12:5] and inst[4:2], as the decoder of the cell goes. -/
theorem addi4spnAddsToStackPointer : Obligations.Addi4spnAddsToStackPointer := by
  intro p s hq hf
  refine ⟨fun himm => ?instr, fun himm hrd => ?res, fun h122 => ?illegal⟩
  case instr => exact ⟨immAddi4spn p, decode_cAddi4spn hq hf himm, exec_cAddi4spn p s⟩
  case res =>
    exact ⟨decode_cAddi4spnRes (matchesRow_addi4spnRes hq hf himm) hrd, exec_eq_illegalTrap rfl s⟩
  case illegal =>
    obtain rfl := eq_zero_of_slices hq hf h122
    exact ⟨IsInstrOf.decode_eq ⟨rfl, rfl⟩, exec_eq_illegalTrap rfl s⟩

/-! ### C.LW and C.SW -/

/-- The address of C.LW and C.SW (30 R85, 20 R40). -/
theorem effAddr_lwSw (p : Parcel) (s : State) :
    effAddr (readReg (cregIdx (Fin.ofNat 8 (slice p 9 7))) s) (uimmLwSw (immLwSw p)) =
      readReg (xPrime (slice p 9 7)) s + BitVec.ofNat 32 (lwOffsetOf p) := by
  rw [effAddr, cregIdx_ofNat _ (slice_lt p 9 7), uimmLwSw_of]

/-- C.LW as the word load at its address (40 R122). -/
theorem exec_cLw (p : Parcel) (s : State) :
    exec (.cLw (Fin.ofNat 8 (slice p 4 2)) (Fin.ofNat 8 (slice p 9 7)) (immLwSw p)) s =
      loadInto (xPrime (slice p 4 2))
        (readReg (xPrime (slice p 9 7)) s + BitVec.ofNat 32 (lwOffsetOf p)) s := by
  rw [← effAddr_lwSw, ← cregIdx_ofNat _ (slice_lt p 4 2)]
  rfl

/-- C.SW as the word store at its address (40 R123). -/
theorem exec_cSw (p : Parcel) (s : State) :
    exec (.cSw (Fin.ofNat 8 (slice p 4 2)) (Fin.ofNat 8 (slice p 9 7)) (immLwSw p)) s =
      storeFrom (readReg (xPrime (slice p 4 2)) s)
        (readReg (xPrime (slice p 9 7)) s + BitVec.ofNat 32 (lwOffsetOf p)) s := by
  rw [← effAddr_lwSw, ← cregIdx_ofNat _ (slice_lt p 4 2)]
  rfl

/-- Settles O6: the cell of C.LW, and the outcome of a word load into a register that is not x0. -/
theorem lwLoadsWord : Obligations.LwLoadsWord := by
  intro p s hq hf
  refine ⟨immLwSw p, ?_, ?_⟩
  · rw [decode_of_slices hq hf, ← cregLow_eq, ← cregHigh_eq]
    rfl
  · rw [exec_cLw]
    exact loadOutcome_loadInto _ s (xPrime_ne_zero _ (slice_lt p 4 2))

/-- Settles O7: the cell of C.SW, and the outcome of a word store. -/
theorem swStoresWord : Obligations.SwStoresWord := by
  intro p s hq hf
  refine ⟨immLwSw p, ?_, ?_⟩
  · rw [decode_of_slices hq hf, ← cregLow_eq, ← cregHigh_eq]
    rfl
  · rw [exec_cSw]
    exact storeOutcome_storeFrom _ _ s

end Sys2Proof.Machine
end

section
/-!
SUPPORT. The instructions of quadrant 1 (41_quadrant1.md R140 to R155), with their HINT, reserved, custom
and RV32E forms: the row of a parcel by its slices, and what each meaning does in the words of Safety.lean.
-/

namespace Sys2Proof.Machine

/-! ### The ways a row of quadrant 1 ends -/

/-- A HINT goes on and changes nothing but pc (30 R107). -/
theorem goesTo_of_isHint {i : Instr} (h : isHint i = true) (s : State) :
    ∃ t, exec i s = .next t ∧ GoesTo (s.pc + 2) s t :=
  ⟨advance s, exec_of_isHint h s, goesTo_advance s⟩

/-- An instruction that writes a register other than x0 and goes on changes that register and pc alone. -/
theorem setsRegister_of_exec {i : Instr} {r : RegIdx} {v : Word} {s : State}
    (h : exec i s = writeAndAdvance r v s) (hr : r.val ≠ 0) :
    ∃ t, exec i s = .next t ∧ SetsRegister r v s t :=
  ⟨_, h, setsRegister_writeReg v s hr⟩

/-- An instruction that assigns pc and nothing else changes pc alone. -/
theorem goesTo_of_exec {i : Instr} {target : Word} {s : State} (h : exec i s = .next (setPc target s)) :
    ∃ t, exec i s = .next t ∧ GoesTo target s t :=
  ⟨_, h, goesTo_setPc target s⟩

/-- A parcel is the encoding of the instruction it decodes to. -/
theorem eq_encode_of_decode {p : Parcel} {i : Instr} (h : decode p = i) : p = encode i := by
  obtain ⟨-, he⟩ := isInstrOf_decode p
  rw [← h, he]

/-! ### Operands -/

section
variable (p : Parcel)

theorem cregIdx_high : cregIdx (Fin.ofNat 8 (slice p 9 7)) = xPrime (slice p 9 7) :=
  cregIdx_ofNat _ (slice_lt p 9 7)

theorem cregIdx_low : cregIdx (Fin.ofNat 8 (slice p 4 2)) = xPrime (slice p 4 2) :=
  cregIdx_ofNat _ (slice_lt p 4 2)

theorem xPrime_high_ne_zero : (xPrime (slice p 9 7)).val ≠ 0 := xPrime_ne_zero _ (slice_lt p 9 7)

/-- The immediate of R86 is 0 exactly when its six bits are. -/
theorem imm6Of_eq_zero_iff : imm6Of p = 0 ↔ slice p 12 12 = 0 ∧ slice p 6 2 = 0 := by
  have hl : slice p 6 2 < 32 := slice_lt p 6 2
  rw [imm6Of]
  omega

/-- The immediate of R88 is 0 exactly when its six bits are. -/
theorem luiOf_eq_zero_iff : luiOf p = 0 ↔ slice p 12 12 = 0 ∧ slice p 6 2 = 0 := by
  have hl : slice p 6 2 < 32 := slice_lt p 6 2
  rw [luiOf]
  omega

end

/-- A logical right shift as the floor of a quotient (41 R146). -/
theorem ushiftRight_eq_ofNat_div (x : Word) (n : Nat) : x >>> n = BitVec.ofNat 32 (x.toNat / 2 ^ n) := by
  rw [← Nat.shiftRight_eq_div_pow, ← BitVec.toNat_ushiftRight, BitVec.ofNat_toNat, BitVec.setWidth_eq]

/-- An arithmetic right shift as the floor of a signed quotient (41 R147). -/
theorem sshiftRight_eq_ofInt_div (x : Word) (n : Nat) :
    x.sshiftRight n = BitVec.ofInt 32 (x.toInt / 2 ^ n) := by
  rw [BitVec.sshiftRight, Int.shiftRight_eq_div_pow]
  push_cast
  rfl

/-! ### The rows of the cells -/

section
variable {p : Parcel} (hq : slice p 1 0 = 1)
include hq

/-! C.NOP and C.ADDI (41 R140, R141). -/

section
variable (hf : slice p 15 13 = 0)
include hf

theorem decode_cNop (hh : slice p 11 7 = 0) (himm : slice p 12 12 = 0 ∧ slice p 6 2 = 0) :
    decode p = .cNop := by
  refine (decode_of_slices hq hf).trans (?_ : decodeAddi p = _)
  rw [decodeAddi, if_pos (regFieldHigh_eq_zero_iff.2 hh), if_pos ((immSix_eq_zero_iff p).2 himm)]

theorem decode_cNopHint (hh : slice p 11 7 = 0) (himm : ¬ (slice p 12 12 = 0 ∧ slice p 6 2 = 0)) :
    decode p = .cNopHint (immSix p) := by
  refine (decode_of_slices hq hf).trans (?_ : decodeAddi p = _)
  rw [decodeAddi, if_pos (regFieldHigh_eq_zero_iff.2 hh), if_neg (mt (immSix_eq_zero_iff p).1 himm)]

theorem decode_cAddiHint (h0 : slice p 11 7 ≠ 0) (h16 : slice p 11 7 < 16)
    (himm : slice p 12 12 = 0 ∧ slice p 6 2 = 0) : decode p = .cAddiHint (xReg (slice p 11 7)) := by
  refine (decode_of_slices hq hf).trans (?_ : decodeAddi p = _)
  rw [decodeAddi, if_neg (mt regFieldHigh_eq_zero_iff.1 h0),
    if_neg (mt regFieldHigh_absent_iff.1 (by omega)), if_pos ((immSix_eq_zero_iff p).2 himm),
    regOfField_high]

theorem decode_cAddi (h0 : slice p 11 7 ≠ 0) (h16 : slice p 11 7 < 16)
    (himm : ¬ (slice p 12 12 = 0 ∧ slice p 6 2 = 0)) :
    decode p = .cAddi (xReg (slice p 11 7)) (immSix p) := by
  refine (decode_of_slices hq hf).trans (?_ : decodeAddi p = _)
  rw [decodeAddi, if_neg (mt regFieldHigh_eq_zero_iff.1 h0),
    if_neg (mt regFieldHigh_absent_iff.1 (by omega)), if_neg (mt (immSix_eq_zero_iff p).1 himm),
    regOfField_high]

end

/-! C.LI (41 R143). -/

section
variable (hf : slice p 15 13 = 2)
include hf

theorem decode_cLiHint (hh : slice p 11 7 = 0) : decode p = .cLiHint (immSix p) := by
  refine (decode_of_slices hq hf).trans (?_ : decodeLi p = _)
  rw [decodeLi, if_neg (mt regFieldHigh_absent_iff.1 (by omega)),
    if_pos (regFieldHigh_eq_zero_iff.2 hh)]

theorem decode_cLi (h0 : slice p 11 7 ≠ 0) (h16 : slice p 11 7 < 16) :
    decode p = .cLi (xReg (slice p 11 7)) (immSix p) := by
  refine (decode_of_slices hq hf).trans (?_ : decodeLi p = _)
  rw [decodeLi, if_neg (mt regFieldHigh_absent_iff.1 (by omega)),
    if_neg (mt regFieldHigh_eq_zero_iff.1 h0), regOfField_high]

end

/-! C.ADDI16SP and C.LUI (41 R144, R145). -/

section
variable (hf : slice p 15 13 = 3)
include hf

theorem decode_cAddi16spRes (hh : slice p 11 7 = 2) (himm : slice p 12 12 = 0 ∧ slice p 6 2 = 0) :
    decode p = .cAddi16spRes := by
  refine (decode_of_slices hq hf).trans (?_ : decodeLui p = _)
  rw [decodeLui, if_pos (regFieldHigh_eq_two_iff.2 hh), if_pos ((immAddi16sp_eq_zero_iff p).2 himm)]

theorem decode_cAddi16sp (hh : slice p 11 7 = 2) (himm : ¬ (slice p 12 12 = 0 ∧ slice p 6 2 = 0)) :
    decode p = .cAddi16sp (immAddi16sp p) := by
  refine (decode_of_slices hq hf).trans (?_ : decodeLui p = _)
  rw [decodeLui, if_pos (regFieldHigh_eq_two_iff.2 hh),
    if_neg (mt (immAddi16sp_eq_zero_iff p).1 himm)]

theorem decode_cLuiHint (hh : slice p 11 7 = 0) (himm : ¬ (slice p 12 12 = 0 ∧ slice p 6 2 = 0)) :
    decode p = .cLuiHint (immSix p) := by
  refine (decode_of_slices hq hf).trans (?_ : decodeLui p = _)
  rw [decodeLui, if_neg (mt regFieldHigh_eq_two_iff.1 (by omega)),
    if_neg (mt (immSix_eq_zero_iff p).1 himm), if_neg (mt regFieldHigh_absent_iff.1 (by omega)),
    if_pos (regFieldHigh_eq_zero_iff.2 hh)]

theorem decode_cLui (h2 : slice p 11 7 ≠ 2) (h0 : slice p 11 7 ≠ 0) (h16 : slice p 11 7 < 16)
    (himm : ¬ (slice p 12 12 = 0 ∧ slice p 6 2 = 0)) :
    decode p = .cLui (xReg (slice p 11 7)) (immSix p) := by
  refine (decode_of_slices hq hf).trans (?_ : decodeLui p = _)
  rw [decodeLui, if_neg (mt regFieldHigh_eq_two_iff.1 h2), if_neg (mt (immSix_eq_zero_iff p).1 himm),
    if_neg (mt regFieldHigh_absent_iff.1 (by omega)), if_neg (mt regFieldHigh_eq_zero_iff.1 h0),
    regOfField_high]

end

/-! MISC-ALU (41 R146 to R152), by inst[11:10] and inst[12]. -/

section
variable (hf : slice p 15 13 = 4)
include hf

theorem decode_cSrli (h11 : slice p 11 10 = 0) (hb : slice p 12 12 = 0) (hl : slice p 6 2 ≠ 0) :
    decode p = .cSrli (Fin.ofNat 8 (slice p 9 7)) (regFieldLow p) := by
  refine (decode_of_slices hq hf).trans (?_ : decodeMiscAlu p = _)
  rw [decodeMiscAlu, if_pos ((bits11to10_eq_iff_slice _).2 h11),
    if_neg (mt bit12_eq_one_iff.1 (by omega)), if_neg (mt regFieldLow_eq_zero_iff.1 hl), cregHigh_eq]

theorem decode_cSrli64Hint (h11 : slice p 11 10 = 0) (hb : slice p 12 12 = 0) (hl : slice p 6 2 = 0) :
    decode p = .cSrli64Hint (Fin.ofNat 8 (slice p 9 7)) := by
  refine (decode_of_slices hq hf).trans (?_ : decodeMiscAlu p = _)
  rw [decodeMiscAlu, if_pos ((bits11to10_eq_iff_slice _).2 h11),
    if_neg (mt bit12_eq_one_iff.1 (by omega)), if_pos (regFieldLow_eq_zero_iff.2 hl), cregHigh_eq]

theorem decode_cSrai (h11 : slice p 11 10 = 1) (hb : slice p 12 12 = 0) (hl : slice p 6 2 ≠ 0) :
    decode p = .cSrai (Fin.ofNat 8 (slice p 9 7)) (regFieldLow p) := by
  refine (decode_of_slices hq hf).trans (?_ : decodeMiscAlu p = _)
  rw [decodeMiscAlu, (bits11to10_eq_iff_slice 1).2 h11, if_neg (by decide), if_pos rfl,
    if_neg (mt bit12_eq_one_iff.1 (by omega)), if_neg (mt regFieldLow_eq_zero_iff.1 hl), cregHigh_eq]

theorem decode_cSrai64Hint (h11 : slice p 11 10 = 1) (hb : slice p 12 12 = 0) (hl : slice p 6 2 = 0) :
    decode p = .cSrai64Hint (Fin.ofNat 8 (slice p 9 7)) := by
  refine (decode_of_slices hq hf).trans (?_ : decodeMiscAlu p = _)
  rw [decodeMiscAlu, (bits11to10_eq_iff_slice 1).2 h11, if_neg (by decide), if_pos rfl,
    if_neg (mt bit12_eq_one_iff.1 (by omega)), if_pos (regFieldLow_eq_zero_iff.2 hl), cregHigh_eq]

theorem decode_cAndi (h11 : slice p 11 10 = 2) :
    decode p = .cAndi (Fin.ofNat 8 (slice p 9 7)) (immSix p) := by
  refine (decode_of_slices hq hf).trans (?_ : decodeMiscAlu p = _)
  rw [decodeMiscAlu, (bits11to10_eq_iff_slice 2).2 h11, ← cregHigh_eq]
  rfl

theorem decode_eq_decodeRegisterAlu (h11 : slice p 11 10 = 3) : decode p = decodeRegisterAlu p := by
  refine (decode_of_slices hq hf).trans (?_ : decodeMiscAlu p = _)
  rw [decodeMiscAlu, (bits11to10_eq_iff_slice 3).2 h11]
  rfl

/-- The register to register group with inst[12] = 0, by inst[6:5]. -/
theorem decode_registerAlu (h11 : slice p 11 10 = 3) (hb : slice p 12 12 = 0) :
    decode p =
      if slice p 6 5 = 0 then .cSub (Fin.ofNat 8 (slice p 9 7)) (Fin.ofNat 8 (slice p 4 2))
      else if slice p 6 5 = 1 then .cXor (Fin.ofNat 8 (slice p 9 7)) (Fin.ofNat 8 (slice p 4 2))
      else if slice p 6 5 = 2 then .cOr (Fin.ofNat 8 (slice p 9 7)) (Fin.ofNat 8 (slice p 4 2))
      else .cAnd (Fin.ofNat 8 (slice p 9 7)) (Fin.ofNat 8 (slice p 4 2)) := by
  rw [decode_eq_decodeRegisterAlu hq hf h11, decodeRegisterAlu,
    if_neg (mt bit12_eq_one_iff.1 (by omega)), cregHigh_eq, cregLow_eq]
  simp only [bits6to5_eq_iff]
  rfl

/-- The register to register group with inst[12] = 1, by inst[6:5] (30 R105). -/
theorem decode_registerAlu_bit12 (h11 : slice p 11 10 = 3) (hb : slice p 12 12 = 1) :
    decode p =
      if slice p 6 5 = 0 then .cSubwRes p
      else if slice p 6 5 = 1 then .cAddwRes p
      else if slice p 6 5 = 2 then .q1Reserved10 p
      else .q1Reserved11 p := by
  rw [decode_eq_decodeRegisterAlu hq hf h11, decodeRegisterAlu, if_pos (bit12_eq_one_iff.2 hb)]
  simp only [bits6to5_eq_iff]
  rfl

end

end

/-! ### What each meaning does, in the operands of 30_encoding.md -/

section
variable (p : Parcel) (s : State)

theorem exec_cAddi (r : RegIdx) : exec (.cAddi r (immSix p)) s =
    writeAndAdvance r (readReg r s + BitVec.ofInt 32 (imm6Of p)) s := by
  rw [← immSigned6_of]; rfl

theorem exec_cLi (r : RegIdx) : exec (.cLi r (immSix p)) s =
    writeAndAdvance r (BitVec.ofInt 32 (imm6Of p)) s := by
  rw [← immSigned6_of]; rfl

theorem exec_cAddi16sp : exec (.cAddi16sp (immAddi16sp p)) s =
    writeAndAdvance 2 (readReg 2 s + BitVec.ofInt 32 (addi16spOf p)) s := by
  rw [← nzimmAddi16sp_of]; rfl

theorem exec_cLui (r : RegIdx) : exec (.cLui r (immSix p)) s =
    writeAndAdvance r (BitVec.ofInt 32 (luiOf p)) s := by
  rw [← nzimmLui_of]; rfl

theorem exec_cSrli : exec (.cSrli (Fin.ofNat 8 (slice p 9 7)) (regFieldLow p)) s =
    writeAndAdvance (xPrime (slice p 9 7))
      (BitVec.ofNat 32 ((readReg (xPrime (slice p 9 7)) s).toNat / 2 ^ slice p 6 2)) s := by
  rw [← ushiftRight_eq_ofNat_div, ← regFieldLow_toNat, ← cregIdx_high]; rfl

theorem exec_cSrai : exec (.cSrai (Fin.ofNat 8 (slice p 9 7)) (regFieldLow p)) s =
    writeAndAdvance (xPrime (slice p 9 7))
      (BitVec.ofInt 32 ((readReg (xPrime (slice p 9 7)) s).toInt / 2 ^ slice p 6 2)) s := by
  rw [← sshiftRight_eq_ofInt_div, ← regFieldLow_toNat, ← cregIdx_high]; rfl

theorem exec_cAndi : exec (.cAndi (Fin.ofNat 8 (slice p 9 7)) (immSix p)) s =
    writeAndAdvance (xPrime (slice p 9 7))
      (readReg (xPrime (slice p 9 7)) s &&& BitVec.ofInt 32 (imm6Of p)) s := by
  rw [← immSigned6_of, ← cregIdx_high]; rfl

/-- C.BEQZ goes to its target where the register is 0 (41 R154). -/
theorem exec_cBeqz : exec (.cBeqz (Fin.ofNat 8 (slice p 9 7)) (immBranch p)) s =
    .next (setPc (if readReg (xPrime (slice p 9 7)) s = 0 then s.pc + BitVec.ofInt 32 (branchOf p)
      else s.pc + 2) s) := by
  rw [← offsetBranch_of, ← cregIdx_high]
  show execCBeqz _ _ s = _
  unfold execCBeqz isZero
  split_ifs <;> simp_all [advance, nextPc]

/-- C.BNEZ goes to its target where the register is not 0 (41 R155). -/
theorem exec_cBnez : exec (.cBnez (Fin.ofNat 8 (slice p 9 7)) (immBranch p)) s =
    .next (setPc (if readReg (xPrime (slice p 9 7)) s = 0 then s.pc + 2
      else s.pc + BitVec.ofInt 32 (branchOf p)) s) := by
  rw [← offsetBranch_of, ← cregIdx_high]
  show execCBnez _ _ s = _
  unfold execCBnez isZero
  split_ifs <;> simp_all [advance, nextPc]

end

/-! ### The instructions of quadrant 1 -/

/-- Settles O9: by the immediate's six bits; the one parcel without any is the encoding of C.NOP. -/
theorem nopOnlyAdvancesPc : Obligations.NopOnlyAdvancesPc := by
  intro p s hq hf hh
  refine ⟨fun hb hl => ?nop, fun himm => ?hint⟩
  case nop =>
    have hdec : decode p = .cNop := decode_cNop hq hf hh ⟨hb, hl⟩
    exact ⟨eq_encode_of_decode hdec, hdec, advance s, rfl, goesTo_advance s⟩
  case hint => exact ⟨_, decode_cNopHint hq hf hh (by omega), goesTo_of_isHint rfl s⟩

/-- Settles O10: by inst[11:7] and the immediate, as the decoder of the cell goes. -/
theorem addiAddsImmediate : Obligations.AddiAddsImmediate := by
  intro p s hq hf h0
  refine ⟨fun h16 himm => ?instr, fun h16 himm => ?hint, fun h16 => ?rv32e⟩
  case instr =>
    exact ⟨_, decode_cAddi hq hf h0 h16 (mt (imm6Of_eq_zero_iff p).2 himm),
      setsRegister_of_exec (exec_cAddi p s _) (xReg_ne_zero _ h16 h0)⟩
  case hint =>
    exact ⟨decode_cAddiHint hq hf h0 h16 ((imm6Of_eq_zero_iff p).1 himm), goesTo_of_isHint rfl s⟩
  case rv32e =>
    exact ⟨decode_cAddiRv32e (matchesRow_major rfl hq hf) h16, exec_eq_illegalTrap rfl s⟩

/-- Settles O11: the cell of C.JAL, and the link and the target by the offset of R89. -/
theorem jalJumpsAndLinks : Obligations.JalJumpsAndLinks := by
  intro p s hq hf
  rw [← offsetJump_of]
  exact ⟨_, decode_of_slices hq hf, _, rfl, linksAndGoesTo_setPc _ s⟩

/-- Settles O12: by inst[11:7], as the decoder of the cell goes. -/
theorem liLoadsImmediate : Obligations.LiLoadsImmediate := by
  intro p s hq hf
  refine ⟨fun h0 h16 => ?instr, fun hh => ?hint, fun h16 => ?rv32e⟩
  case instr =>
    exact ⟨_, decode_cLi hq hf h0 h16, setsRegister_of_exec (exec_cLi p s _) (xReg_ne_zero _ h16 h0)⟩
  case hint => exact ⟨_, decode_cLiHint hq hf hh, goesTo_of_isHint rfl s⟩
  case rv32e => exact ⟨decode_cLiRv32e (matchesRow_major rfl hq hf) h16, exec_eq_illegalTrap rfl s⟩

/-- Settles O13: by the immediate's six bits; the one parcel without any is the encoding of the RES row. -/
theorem addi16spAddsToStackPointer : Obligations.Addi16spAddsToStackPointer := by
  intro p s hq hf hh
  refine ⟨fun himm => ?instr, fun hb hl => ?res⟩
  case instr =>
    exact ⟨_, decode_cAddi16sp hq hf hh (by omega),
      setsRegister_of_exec (exec_cAddi16sp p s) (by decide)⟩
  case res =>
    have hdec : decode p = .cAddi16spRes := decode_cAddi16spRes hq hf hh ⟨hb, hl⟩
    obtain rfl : p = 0x6101 := eq_encode_of_decode hdec
    exact ⟨rfl, hdec, exec_eq_illegalTrap rfl s⟩

/-- Settles O14: by the immediate and inst[11:7], as the decoder of the cell goes. -/
theorem luiLoadsUpperImmediate : Obligations.LuiLoadsUpperImmediate := by
  intro p s hq hf h2
  simp only [ne_eq, luiOf_eq_zero_iff]
  refine ⟨fun h0 h16 himm => ?instr, fun himm => ?res, fun hh himm => ?hint, fun h16 himm => ?rv32e⟩
  case instr =>
    exact ⟨_, decode_cLui hq hf h2 h0 h16 himm,
      setsRegister_of_exec (exec_cLui p s _) (xReg_ne_zero _ h16 h0)⟩
  case res =>
    obtain ⟨hb, hl⟩ := himm
    exact ⟨decode_cLuiRes (matchesRow_major_bit12_low rfl hq hf hb hl) h2, exec_eq_illegalTrap rfl s⟩
  case hint => exact ⟨_, decode_cLuiHint hq hf hh himm, goesTo_of_isHint rfl s⟩
  case rv32e =>
    exact ⟨decode_cLuiRv32e (matchesRow_major rfl hq hf) h16 (by omega), exec_eq_illegalTrap rfl s⟩

/-- Settles O15: by inst[12] and inst[6:2], as the decoder of the cell goes. -/
theorem srliShiftsRightLogically : Obligations.SrliShiftsRightLogically := by
  intro p s hq hf h11
  refine ⟨fun hb hl => ?instr, fun hb hl => ?hint, fun hb => ?custom⟩
  case instr =>
    exact ⟨_, decode_cSrli hq hf h11 hb hl,
      setsRegister_of_exec (exec_cSrli p s) (xPrime_high_ne_zero p)⟩
  case hint => exact ⟨decode_cSrli64Hint hq hf h11 hb hl, goesTo_of_isHint rfl s⟩
  case custom =>
    exact ⟨decode_cSrliCustom (matchesRow_major_bits12to10 rfl hq hf hb h11),
      exec_eq_illegalTrap rfl s⟩

/-- Settles O16: by inst[12] and inst[6:2], as the decoder of the cell goes. -/
theorem sraiShiftsRightArithmetically : Obligations.SraiShiftsRightArithmetically := by
  intro p s hq hf h11
  refine ⟨fun hb hl => ?instr, fun hb hl => ?hint, fun hb => ?custom⟩
  case instr =>
    exact ⟨_, decode_cSrai hq hf h11 hb hl,
      setsRegister_of_exec (exec_cSrai p s) (xPrime_high_ne_zero p)⟩
  case hint => exact ⟨decode_cSrai64Hint hq hf h11 hb hl, goesTo_of_isHint rfl s⟩
  case custom =>
    exact ⟨decode_cSraiCustom (matchesRow_major_bits12to10 rfl hq hf hb h11),
      exec_eq_illegalTrap rfl s⟩

/-- Settles O17: the row of C.ANDI, and the mask by the immediate of R86. -/
theorem andiMasksWithImmediate : Obligations.AndiMasksWithImmediate := by
  intro p s hq hf h11
  exact ⟨_, decode_cAndi hq hf h11, setsRegister_of_exec (exec_cAndi p s) (xPrime_high_ne_zero p)⟩

/-- Settles O18: by inst[6:5]; each operation writes x(8 + rd') and goes on. -/
theorem registerArithmeticComputes : Obligations.RegisterArithmeticComputes := by
  intro p s hq hf hb h11
  have hdec := decode_registerAlu hq hf h11 hb
  simp only [← cregIdx_high, ← cregIdx_low]
  refine ⟨fun h65 => ?_, fun h65 => ?_, fun h65 => ?_, fun h65 => ?_⟩
  all_goals
    rw [h65] at hdec
    exact ⟨hdec, setsRegister_of_exec rfl (cregIdx_high p ▸ xPrime_high_ne_zero p)⟩

/-- Settles O19: the cell of C.J, and the target by the offset of R89. -/
theorem jJumps : Obligations.JJumps := by
  intro p s hq hf
  rw [← offsetJump_of]
  exact ⟨_, decode_of_slices hq hf, goesTo_of_exec rfl⟩

/-- Settles O20: the cells of C.BEQZ and C.BNEZ; both outcomes of the test only assign pc. -/
theorem branchesTestAgainstZero : Obligations.BranchesTestAgainstZero := by
  intro p s hq
  refine ⟨fun hf => ?beqz, fun hf => ?bnez⟩
  all_goals refine ⟨immBranch p, (decode_of_slices hq hf).trans ?_, goesTo_of_exec ?_⟩
  case beqz.refine_1 | bnez.refine_1 => rw [← cregHigh_eq]; rfl
  case beqz.refine_2 => exact exec_cBeqz p s
  case bnez.refine_2 => exact exec_cBnez p s

end Sys2Proof.Machine
end

section
/-!
SUPPORT. The HINT, reserved and custom rows of quadrants 1 and 2 (41_quadrant1.md R156 to R158,
42_quadrant2.md R189, R191, R192).
-/

namespace Sys2Proof.Machine

/-! ### The runs of bits that name a row, as the fields the decoder tests -/

/-- inst[15:10] names funct3, inst[12] and inst[11:10]. -/
theorem fields_of_slice_15_10 {p : Parcel} {k : Nat} (h : slice p 15 10 = k) :
    slice p 15 13 = k / 8 ∧ slice p 12 12 = k / 4 % 2 ∧ slice p 11 10 = k % 4 := by
  subst h
  simp only [slice]
  omega

/-- inst[15:12] names funct3 and inst[12]. -/
theorem fields_of_slice_15_12 {p : Parcel} {k : Nat} (h : slice p 15 12 = k) :
    slice p 15 13 = k / 2 ∧ slice p 12 12 = k % 2 := by
  subst h
  simp only [slice]
  omega

/-- inst[12:10] names inst[12] and inst[11:10]. -/
theorem fields_of_slice_12_10 {p : Parcel} {k : Nat} (h : slice p 12 10 = k) :
    slice p 12 12 = k / 4 ∧ slice p 11 10 = k % 4 := by
  subst h
  simp only [slice]
  omega

/-! ### The HINT rows of quadrant 2 (42 R189) -/

section
variable {p : Parcel} (hq : slice p 1 0 = 2)
include hq

theorem decode_cSlliHint (hf : slice p 15 13 = 0) (hb : slice p 12 12 = 0) (hh : slice p 11 7 = 0)
    (hl : slice p 6 2 ≠ 0) : decode p = .cSlliHint (regFieldLow p) := by
  refine (decode_of_slices hq hf).trans (?_ : decodeSlli p = _)
  rw [decodeSlli, if_neg (mt bit12_eq_one_iff.1 (by omega)),
    if_neg (mt regFieldHigh_absent_iff.1 (by omega)), if_neg (mt regFieldLow_eq_zero_iff.1 hl),
    if_pos (regFieldHigh_eq_zero_iff.2 hh)]

theorem decode_cSlli64Hint (hf : slice p 15 13 = 0) (hb : slice p 12 12 = 0) (h16 : slice p 11 7 < 16)
    (hl : slice p 6 2 = 0) : decode p = .cSlli64Hint (xReg (slice p 11 7)) := by
  refine (decode_of_slices hq hf).trans (?_ : decodeSlli p = _)
  rw [decodeSlli, if_neg (mt bit12_eq_one_iff.1 (by omega)),
    if_neg (mt regFieldHigh_absent_iff.1 (by omega)), if_pos (regFieldLow_eq_zero_iff.2 hl),
    regOfField_high]

theorem decode_cMvHint (hf : slice p 15 13 = 4) (hb : slice p 12 12 = 0) (hh : slice p 11 7 = 0)
    (hl : slice p 6 2 ≠ 0) (h16 : slice p 6 2 < 16) : decode p = .cMvHint (xReg (slice p 6 2)) := by
  rw [decode_jrMv_of_row (matchesRow_major_bit12 rfl hq hf hb) (by decide), decodeJrMv,
    if_neg (mt regFieldLow_eq_zero_iff.1 hl), if_neg (mt regFieldHigh_absent_iff.1 (by omega)),
    if_neg (mt regFieldLow_absent_iff.1 (by omega)), if_pos (regFieldHigh_eq_zero_iff.2 hh),
    regOfField_low]

theorem decode_cAddHint (hf : slice p 15 13 = 4) (hb : slice p 12 12 = 1) (hh : slice p 11 7 = 0)
    (hl : slice p 6 2 ≠ 0) (h16 : slice p 6 2 < 16) : decode p = .cAddHint (xReg (slice p 6 2)) := by
  rw [decode_jalrAdd_of_row (matchesRow_major_bit12 rfl hq hf hb) (by decide), decodeJalrAdd,
    if_neg (mt regFieldLow_eq_zero_iff.1 hl), if_neg (mt regFieldHigh_absent_iff.1 (by omega)),
    if_neg (mt regFieldLow_absent_iff.1 (by omega)), if_pos (regFieldHigh_eq_zero_iff.2 hh),
    regOfField_low]

end

/-- Settles O29: the row of each of the ten groups, and that a HINT only advances pc. -/
theorem hintRowsOnlyAdvancePc : Obligations.HintRowsOnlyAdvancePc := by
  intro p s
  simp only [ne_eq, imm6Of_eq_zero_iff]
  refine ⟨?nop, ?addi, ?li, ?lui, ?srli64, ?srai64, ?slli, ?slli64, ?mv, ?add⟩
  case nop =>
    exact fun hq hf hh himm => ⟨_, decode_cNopHint hq hf hh himm, goesTo_of_isHint rfl s⟩
  case addi =>
    exact fun hq hf h0 h16 himm => ⟨_, decode_cAddiHint hq hf h0 h16 himm, goesTo_of_isHint rfl s⟩
  case li => exact fun hq hf hh => ⟨_, decode_cLiHint hq hf hh, goesTo_of_isHint rfl s⟩
  case lui =>
    exact fun hq hf hh himm => ⟨_, decode_cLuiHint hq hf hh himm, goesTo_of_isHint rfl s⟩
  case srli64 =>
    intro hq hf h12 hl
    obtain ⟨hb, h11⟩ := fields_of_slice_12_10 h12
    exact ⟨_, decode_cSrli64Hint hq hf h11 hb hl, goesTo_of_isHint rfl s⟩
  case srai64 =>
    intro hq hf h12 hl
    obtain ⟨hb, h11⟩ := fields_of_slice_12_10 h12
    exact ⟨_, decode_cSrai64Hint hq hf h11 hb hl, goesTo_of_isHint rfl s⟩
  case slli =>
    intro hq h15 hh hl
    obtain ⟨hf, hb⟩ := fields_of_slice_15_12 h15
    exact ⟨_, decode_cSlliHint hq hf hb hh hl, goesTo_of_isHint rfl s⟩
  case slli64 =>
    intro hq h15 h16 hl
    obtain ⟨hf, hb⟩ := fields_of_slice_15_12 h15
    exact ⟨_, decode_cSlli64Hint hq hf hb h16 hl, goesTo_of_isHint rfl s⟩
  case mv =>
    intro hq h15 hh hl h16
    obtain ⟨hf, hb⟩ := fields_of_slice_15_12 h15
    exact ⟨_, decode_cMvHint hq hf hb hh hl h16, goesTo_of_isHint rfl s⟩
  case add =>
    intro hq h15 hh hl h16
    obtain ⟨hf, hb⟩ := fields_of_slice_15_12 h15
    exact ⟨_, decode_cAddHint hq hf hb hh hl h16, goesTo_of_isHint rfl s⟩

/-! ### The reserved rows (41 R157, 42 R191) -/

/-- Settles O30: the row of each reserved parcel, which stops with it; the parcels that name x16 to x31
trap by O33. -/
theorem reservedRowsTrap : Obligations.ReservedRowsTrap := by
  refine ⟨fun s => ?addi16sp, fun s => ?jr,
    fun p s => ⟨?lui, ?subw, ?addw, ?r10, ?r11, ?lwsp, ?rv32e⟩⟩
  case addi16sp | jr => exact ⟨IsInstrOf.decode_eq ⟨rfl, rfl⟩, exec_eq_illegalTrap rfl s⟩
  case lui =>
    exact fun hq hf hb hl h2 =>
      ⟨decode_cLuiRes (matchesRow_major_bit12_low rfl hq hf hb hl) h2, exec_eq_illegalTrap rfl s⟩
  case subw | addw | r10 | r11 =>
    intro hq h15 h65
    obtain ⟨hf, hb, h11⟩ := fields_of_slice_15_10 h15
    have hdec := decode_registerAlu_bit12 hq hf h11 hb
    rw [h65] at hdec
    exact ⟨hdec, exec_eq_illegalTrap rfl s⟩
  case lwsp =>
    exact fun hq hf hh => ⟨decode_cLwspRes (matchesRow_lwspRes hq hf hh), exec_eq_illegalTrap rfl s⟩
  case rv32e =>
    intro _ hp
    obtain ⟨htrap, -⟩ := absentRegistersTrap p s hp
    exact htrap

/-! ### The custom rows (41 R158, 42 R192) -/

/-- Settles O31: the three rows with inst[12] = 1, each of which stops with its parcel. -/
theorem customRowsTrap : Obligations.CustomRowsTrap := by
  intro p s
  refine ⟨fun hq h15 => ?srli, fun hq h15 => ?srai, fun hq h15 => ?slli⟩
  case srli =>
    obtain ⟨hf, hb, h11⟩ := fields_of_slice_15_10 h15
    exact ⟨decode_cSrliCustom (matchesRow_major_bits12to10 rfl hq hf hb h11),
      exec_eq_illegalTrap rfl s⟩
  case srai =>
    obtain ⟨hf, hb, h11⟩ := fields_of_slice_15_10 h15
    exact ⟨decode_cSraiCustom (matchesRow_major_bits12to10 rfl hq hf hb h11),
      exec_eq_illegalTrap rfl s⟩
  case slli =>
    obtain ⟨hf, hb⟩ := fields_of_slice_15_12 h15
    exact ⟨decode_cSlliCustom (matchesRow_major_bit12 rfl hq hf hb), exec_eq_illegalTrap rfl s⟩

end Sys2Proof.Machine
end

section
/-!
SUPPORT. The instructions of quadrant 2 (42_quadrant2.md R180 to R190), with their HINT, reserved, custom
and RV32E forms: the row of a parcel by its slices, and what each meaning does in the words of Safety.lean.
-/

namespace Sys2Proof.Machine

/-! ### Operands -/

/-- A left shift as a product modulo 2^32 (42 R180). -/
theorem shiftLeft_eq_ofNat_mul (x : Word) (n : Nat) : x <<< n = BitVec.ofNat 32 (x.toNat * 2 ^ n) := by
  apply BitVec.eq_of_toNat_eq
  rw [BitVec.toNat_shiftLeft, Nat.shiftLeft_eq, BitVec.toNat_ofNat]

/-- The target of C.JR and C.JALR as the even part of the register's value (42 R183, R187). -/
theorem jumpTarget_eq_ofNat (v : Word) : jumpTarget v = BitVec.ofNat 32 (v.toNat / 2 * 2) := by
  rw [← jumpTarget_toNat, BitVec.ofNat_toNat, BitVec.setWidth_eq]

/-! ### The rows of the cells -/

section
variable {p : Parcel} (hq : slice p 1 0 = 2)
include hq

theorem decode_cSlli (hf : slice p 15 13 = 0) (hb : slice p 12 12 = 0) (h0 : slice p 11 7 ≠ 0)
    (h16 : slice p 11 7 < 16) (hl : slice p 6 2 ≠ 0) :
    decode p = .cSlli (xReg (slice p 11 7)) (regFieldLow p) := by
  refine (decode_of_slices hq hf).trans (?_ : decodeSlli p = _)
  rw [decodeSlli, if_neg (mt bit12_eq_one_iff.1 (by omega)),
    if_neg (mt regFieldHigh_absent_iff.1 (by omega)), if_neg (mt regFieldLow_eq_zero_iff.1 hl),
    if_neg (mt regFieldHigh_eq_zero_iff.1 h0), regOfField_high]

theorem decode_cLwsp (hf : slice p 15 13 = 2) (h0 : slice p 11 7 ≠ 0) (h16 : slice p 11 7 < 16) :
    decode p = .cLwsp (xReg (slice p 11 7)) (immLwsp p) := by
  refine (decode_of_slices hq hf).trans (?_ : decodeLwsp p = _)
  rw [decodeLwsp, if_neg (mt regFieldHigh_eq_zero_iff.1 h0),
    if_neg (mt regFieldHigh_absent_iff.1 (by omega)), regOfField_high]

theorem decode_cSwsp (hf : slice p 15 13 = 6) (h16 : slice p 6 2 < 16) :
    decode p = .cSwsp (xReg (slice p 6 2)) (immSwsp p) := by
  refine (decode_of_slices hq hf).trans (?_ : decodeSwsp p = _)
  rw [decodeSwsp, if_neg (mt regFieldLow_absent_iff.1 (by omega)), regOfField_low]

/-! C.JR and C.MV: funct3 100 with inst[12] = 0 (42 R185). -/

section
variable (hf : slice p 15 13 = 4) (hb : slice p 12 12 = 0)
include hf hb

theorem decode_eq_decodeJrMv : decode p = decodeJrMv p :=
  decode_jrMv_of_row (matchesRow_major_bit12 rfl hq hf hb) (by decide)

theorem decode_cJrRes (hh : slice p 11 7 = 0) (hl : slice p 6 2 = 0) : decode p = .cJrRes := by
  rw [decode_eq_decodeJrMv hq hf hb, decodeJrMv, if_pos (regFieldLow_eq_zero_iff.2 hl),
    if_pos (regFieldHigh_eq_zero_iff.2 hh)]

theorem decode_cJr (h0 : slice p 11 7 ≠ 0) (h16 : slice p 11 7 < 16) (hl : slice p 6 2 = 0) :
    decode p = .cJr (xReg (slice p 11 7)) := by
  rw [decode_eq_decodeJrMv hq hf hb, decodeJrMv, if_pos (regFieldLow_eq_zero_iff.2 hl),
    if_neg (mt regFieldHigh_eq_zero_iff.1 h0), if_neg (mt regFieldHigh_absent_iff.1 (by omega)),
    regOfField_high]

theorem decode_cMv (h0 : slice p 11 7 ≠ 0) (h16 : slice p 11 7 < 16) (hl : slice p 6 2 ≠ 0)
    (hl16 : slice p 6 2 < 16) : decode p = .cMv (xReg (slice p 11 7)) (xReg (slice p 6 2)) := by
  rw [decode_eq_decodeJrMv hq hf hb, decodeJrMv, if_neg (mt regFieldLow_eq_zero_iff.1 hl),
    if_neg (mt regFieldHigh_absent_iff.1 (by omega)), if_neg (mt regFieldLow_absent_iff.1 (by omega)),
    if_neg (mt regFieldHigh_eq_zero_iff.1 h0), regOfField_high, regOfField_low]

end

/-! C.EBREAK, C.JALR and C.ADD: funct3 100 with inst[12] = 1 (42 R185). -/

section
variable (hf : slice p 15 13 = 4) (hb : slice p 12 12 = 1)
include hf hb

theorem decode_eq_decodeJalrAdd : decode p = decodeJalrAdd p :=
  decode_jalrAdd_of_row (matchesRow_major_bit12 rfl hq hf hb) (by decide)

theorem decode_cEbreak (hh : slice p 11 7 = 0) (hl : slice p 6 2 = 0) : decode p = .cEbreak := by
  rw [decode_eq_decodeJalrAdd hq hf hb, decodeJalrAdd, if_pos (regFieldLow_eq_zero_iff.2 hl),
    if_pos (regFieldHigh_eq_zero_iff.2 hh)]

theorem decode_cJalr (h0 : slice p 11 7 ≠ 0) (h16 : slice p 11 7 < 16) (hl : slice p 6 2 = 0) :
    decode p = .cJalr (xReg (slice p 11 7)) := by
  rw [decode_eq_decodeJalrAdd hq hf hb, decodeJalrAdd, if_pos (regFieldLow_eq_zero_iff.2 hl),
    if_neg (mt regFieldHigh_eq_zero_iff.1 h0), if_neg (mt regFieldHigh_absent_iff.1 (by omega)),
    regOfField_high]

theorem decode_cAdd (h0 : slice p 11 7 ≠ 0) (h16 : slice p 11 7 < 16) (hl : slice p 6 2 ≠ 0)
    (hl16 : slice p 6 2 < 16) : decode p = .cAdd (xReg (slice p 11 7)) (xReg (slice p 6 2)) := by
  rw [decode_eq_decodeJalrAdd hq hf hb, decodeJalrAdd, if_neg (mt regFieldLow_eq_zero_iff.1 hl),
    if_neg (mt regFieldHigh_absent_iff.1 (by omega)), if_neg (mt regFieldLow_absent_iff.1 (by omega)),
    if_neg (mt regFieldHigh_eq_zero_iff.1 h0), regOfField_high, regOfField_low]

end

end

/-! ### What each meaning does, in the operands of 30_encoding.md -/

section
variable (p : Parcel) (s : State) (r : RegIdx)

theorem exec_cSlli : exec (.cSlli r (regFieldLow p)) s =
    writeAndAdvance r (BitVec.ofNat 32 ((readReg r s).toNat * 2 ^ slice p 6 2)) s := by
  rw [← shiftLeft_eq_ofNat_mul, ← regFieldLow_toNat]; rfl

/-- C.LWSP as the word load at its address: x2 is read before the register is written (42 R181). -/
theorem exec_cLwsp : exec (.cLwsp r (immLwsp p)) s =
    loadInto r (readReg 2 s + BitVec.ofNat 32 (lwspOffsetOf p)) s := by
  rw [← uimmSp_lwsp_of]; rfl

/-- C.SWSP as the word store at its address (42 R190). -/
theorem exec_cSwsp : exec (.cSwsp r (immSwsp p)) s =
    storeFrom (readReg r s) (readReg 2 s + BitVec.ofNat 32 (swspOffsetOf p)) s := by
  rw [← uimmSp_swsp_of]; rfl

theorem exec_cJr : exec (.cJr r) s =
    .next (setPc (BitVec.ofNat 32 ((readReg r s).toNat / 2 * 2)) s) := by
  rw [← jumpTarget_eq_ofNat]; rfl

/-- C.JALR reads its target in the state before x1 is written (42 R187). -/
theorem exec_cJalr : exec (.cJalr r) s =
    .next (setPc (BitVec.ofNat 32 ((readReg r s).toNat / 2 * 2)) (writeReg linkReg (nextPc s) s)) := by
  rw [← jumpTarget_eq_ofNat]; rfl

end

/-! ### The instructions of quadrant 2 -/

/-- Settles O21: by inst[12], inst[11:7] and inst[6:2], as the decoder of the cell goes. -/
theorem slliShiftsLeft : Obligations.SlliShiftsLeft := by
  intro p s hq hf
  refine ⟨fun hb h0 h16 hl => ?instr, fun hb => ?custom, fun hb h16 => ?rv32e, fun hb hh hl => ?hint,
    fun hb h16 hl => ?slli64⟩
  case instr =>
    exact ⟨_, decode_cSlli hq hf hb h0 h16 hl,
      setsRegister_of_exec (exec_cSlli p s _) (xReg_ne_zero _ h16 h0)⟩
  case custom =>
    exact ⟨decode_cSlliCustom (matchesRow_major_bit12 rfl hq hf hb), exec_eq_illegalTrap rfl s⟩
  case rv32e =>
    exact ⟨decode_cSlliRv32e (matchesRow_major_bit12 rfl hq hf hb) h16, exec_eq_illegalTrap rfl s⟩
  case hint => exact ⟨_, decode_cSlliHint hq hf hb hh hl, goesTo_of_isHint rfl s⟩
  case slli64 => exact ⟨decode_cSlli64Hint hq hf hb h16 hl, goesTo_of_isHint rfl s⟩

/-- Settles O22: by inst[11:7]; the load's register is not x0. -/
theorem lwspLoadsWord : Obligations.LwspLoadsWord := by
  intro p s hq hf
  refine ⟨fun h0 h16 => ?instr, fun hh => ?res, fun h16 => ?rv32e⟩
  case instr =>
    refine ⟨_, decode_cLwsp hq hf h0 h16, ?_⟩
    rw [exec_cLwsp]
    exact loadOutcome_loadInto _ s (xReg_ne_zero _ h16 h0)
  case res => exact ⟨decode_cLwspRes (matchesRow_lwspRes hq hf hh), exec_eq_illegalTrap rfl s⟩
  case rv32e => exact ⟨decode_cLwspRv32e (matchesRow_major rfl hq hf) h16, exec_eq_illegalTrap rfl s⟩

/-- Settles O28: by inst[6:2]; the outcome of a word store asks nothing of the register, so it holds for
x0. -/
theorem swspStoresWord : Obligations.SwspStoresWord := by
  intro p s hq hf
  refine ⟨fun h16 => ?instr, fun h16 => ?rv32e⟩
  case instr =>
    refine ⟨_, decode_cSwsp hq hf h16, ?_⟩
    rw [exec_cSwsp]
    exact storeOutcome_storeFrom _ _ s
  case rv32e => exact ⟨decode_cSwspRv32e (matchesRow_major rfl hq hf) h16, exec_eq_illegalTrap rfl s⟩

/-- Settles O23: by inst[11:7]; the one parcel that names no register is the encoding of the RES row. -/
theorem jrJumpsToRegister : Obligations.JrJumpsToRegister := by
  intro p s hq h15 hl
  obtain ⟨hf, hb⟩ := fields_of_slice_15_12 h15
  refine ⟨fun h0 h16 => ?instr, fun hh => ?res, fun h16 => ?rv32e⟩
  case instr => exact ⟨decode_cJr hq hf hb h0 h16 hl, goesTo_of_exec (exec_cJr s _)⟩
  case res =>
    have hdec : decode p = .cJrRes := decode_cJrRes hq hf hb hh hl
    obtain rfl : p = 0x8002 := eq_encode_of_decode hdec
    exact ⟨rfl, hdec, exec_eq_illegalTrap rfl s⟩
  case rv32e =>
    exact ⟨decode_cJrRv32e (matchesRow_major_bit12_low rfl hq hf hb hl) h16, exec_eq_illegalTrap rfl s⟩

/-- Settles O24: by inst[11:7] and inst[6:2], as the decoder of the cell goes. -/
theorem mvCopiesRegister : Obligations.MvCopiesRegister := by
  intro p s hq h15 hl
  obtain ⟨hf, hb⟩ := fields_of_slice_15_12 h15
  refine ⟨fun h0 h16 hl16 => ?instr, fun hh hl16 => ?hint, fun h16 => ?rd, fun h16 hl16 => ?rs2⟩
  case instr =>
    exact ⟨decode_cMv hq hf hb h0 h16 hl hl16, setsRegister_of_exec rfl (xReg_ne_zero _ h16 h0)⟩
  case hint => exact ⟨decode_cMvHint hq hf hb hh hl hl16, goesTo_of_isHint rfl s⟩
  case rd =>
    exact ⟨decode_cMvRv32eRd (matchesRow_major_bit12 rfl hq hf hb) h16 hl, exec_eq_illegalTrap rfl s⟩
  case rs2 =>
    exact ⟨decode_cMvRv32eRs2 (matchesRow_major_bit12 rfl hq hf hb) h16 hl16,
      exec_eq_illegalTrap rfl s⟩

/-- Settles O25: the one parcel of the row is its encoding, and its row of the table of 60 R210 is raised
in every state. -/
theorem ebreakRaisesBreakpoint : Obligations.EbreakRaisesBreakpoint := by
  intro p hq h15 hh hl
  obtain ⟨hf, hb⟩ := fields_of_slice_15_12 h15
  have hdec : decode p = .cEbreak := decode_cEbreak hq hf hb hh hl
  exact ⟨eq_encode_of_decode hdec, hdec, fun s => (exec_eq_trap_iff ..).2 ⟨rfl, rfl, rfl⟩⟩

/-- Settles O26: by inst[11:7]; the target is the old value of the register, x1 included. -/
theorem jalrJumpsToRegisterAndLinks : Obligations.JalrJumpsToRegisterAndLinks := by
  intro p s hq h15 hl
  obtain ⟨hf, hb⟩ := fields_of_slice_15_12 h15
  refine ⟨fun h0 h16 => ?instr, fun h16 => ?rv32e, fun hh => decode_cEbreak hq hf hb hh hl⟩
  case instr =>
    exact ⟨decode_cJalr hq hf hb h0 h16 hl, _, exec_cJalr s _, linksAndGoesTo_setPc _ s⟩
  case rv32e =>
    exact ⟨decode_cJalrRv32e (matchesRow_major_bit12_low rfl hq hf hb hl) h16,
      exec_eq_illegalTrap rfl s⟩

/-- Settles O27: by inst[11:7] and inst[6:2], as the decoder of the cell goes. -/
theorem addAddsRegisters : Obligations.AddAddsRegisters := by
  intro p s hq h15 hl
  obtain ⟨hf, hb⟩ := fields_of_slice_15_12 h15
  refine ⟨fun h0 h16 hl16 => ?instr, fun hh hl16 => ?hint, fun h16 => ?rd, fun h16 hl16 => ?rs2⟩
  case instr =>
    exact ⟨decode_cAdd hq hf hb h0 h16 hl hl16, setsRegister_of_exec rfl (xReg_ne_zero _ h16 h0)⟩
  case hint => exact ⟨decode_cAddHint hq hf hb hh hl hl16, goesTo_of_isHint rfl s⟩
  case rd =>
    exact ⟨decode_cAddRv32eRd (matchesRow_major_bit12 rfl hq hf hb) h16 hl, exec_eq_illegalTrap rfl s⟩
  case rs2 =>
    exact ⟨decode_cAddRv32eRs2 (matchesRow_major_bit12 rfl hq hf hb) h16 hl16,
      exec_eq_illegalTrap rfl s⟩

end Sys2Proof.Machine
end

section
/-!
SUPPORT. When an instruction and a step go on (60_exceptions.md R211, R214), and the statements of
60_exceptions.md: its table of exceptions (R210), the order of the checks, and that pc stays even (R213).
-/

namespace Sys2Proof.Machine

/-! ### When an instruction goes on -/

section
variable {i : Instr} {s : State} {a : Word}

/-- An instruction that loads is a word load at its address. -/
theorem exec_of_loadAddress (h : loadAddress i s = some a) : ∃ rd, exec i s = loadInto rd a s := by
  cases i <;> cases h <;> exact ⟨_, rfl⟩

/-- An instruction that stores is a word store at its address. -/
theorem exec_of_storeAddress (h : storeAddress i s = some a) :
    exec i s = storeFrom (storeData i s) a s := by
  cases i <;> cases h <;> rfl

/-- A load goes on where its word is aligned and readable (20 R42). -/
theorem exec_load_goes_on (h : loadAddress i s = some a) (halign : a.toNat % 4 = 0)
    (hperm : WordPermitted .read a s) : ∃ t, exec i s = .next t := by
  obtain ⟨rd, hexec⟩ := exec_of_loadAddress h
  rw [hexec]
  exact ⟨_, (loadInto_eq_next rd a s _).2 ⟨halign, (wordPermitted_iff .read a s).1 hperm, rfl⟩⟩

/-- A store goes on where its word is aligned and writable (20 R43). -/
theorem exec_store_goes_on (h : storeAddress i s = some a) (halign : a.toNat % 4 = 0)
    (hperm : WordPermitted .write a s) : ∃ t, exec i s = .next t := by
  rw [exec_of_storeAddress h]
  exact ⟨_, (storeFrom_eq_next _ a s _).2 ⟨halign, (wordPermitted_iff .write a s).1 hperm, rfl⟩⟩

/-- An instruction that has no stop and addresses no word goes on. -/
theorem exec_goes_on_of_no_access (hstop : stopOf i = none) (hload : loadAddress i s = none)
    (hstore : storeAddress i s = none) : ∃ t, exec i s = .next t := by
  rcases shape_of_stopOf_none hstop with ⟨_, -, -, h⟩ | ⟨-, -, h⟩ | h
  · obtain ⟨-, -, a, ha, -⟩ := h s
    exact nomatch hload.symm.trans ha
  · obtain ⟨-, -, a, ha, -⟩ := h s
    exact nomatch hstore.symm.trans ha
  · obtain ⟨-, -, v, hexec⟩ := h s
    exact ⟨_, hexec⟩

end

/-- Settles O44: the instructions before the loads and stores have no stop and address no word; the loads
and stores go on where their word is aligned and permitted. -/
theorem instructionsComplete : Obligations.InstructionsComplete := by
  intro s
  refine ⟨?_, ?_, ?_, ?_, ?_, ?_, ?_, ?_, ?_, ?_, ?_, ?_, ?_, ?_, ?_, ?_, ?_, ?_, ?_, ?_, ?_, ?_,
    ?_, ?_, ?_, ?_, ?_, ?_, ?_, ?_, ?_, ?_,
    fun _ _ _ _ => exec_load_goes_on, fun _ _ _ => exec_load_goes_on,
    fun _ _ _ _ => exec_store_goes_on, fun _ _ _ => exec_store_goes_on⟩
  all_goals
    intros
    exact exec_goes_on_of_no_access rfl rfl rfl

/-! ### The table of exceptions and the order of the checks -/

/-- Settles O43: a step traps exactly by its row of the table, and the codes are the model's table. -/
theorem trapsFollowExceptionTable : Obligations.TrapsFollowExceptionTable :=
  ⟨step_eq_trap_iff, rfl, rfl, rfl, rfl, rfl, rfl, rfl, rfl⟩

section
variable {s : State}

/-- A step traps by a row of the table that holds, at pc. -/
theorem step_of_raisedBy {e : Exception} {info : Word} (h : RaisedBy e info s) :
    step s = .fault (.trap e info s.pc) :=
  (step_eq_trap_iff s e info s.pc).2 ⟨rfl, h⟩

/-- The parcel of a fetchable state is what the fetch gives. -/
theorem fetch_of_fetchable (h : Fetchable s) : fetch s = .next (parcelAt s.pc s) :=
  (fetch_eq_next_iff s _).2 ⟨h, rfl⟩

/-- A step goes on where its parcel can be fetched and the parcel's instruction goes on. -/
theorem step_goes_on (hfetch : Fetchable s) (h : ∃ t, exec (decode (parcelAt s.pc s)) s = .next t) :
    ∃ t, step s = .next t :=
  h.imp fun t ht => (step_eq_next s t).2 ⟨hfetch, ht⟩

end

/-- Settles O42: each check that stops a step is a row of the table or a reason of refusal, and an
instruction whose parcel passes them has no stop and accesses no word that it may not. -/
theorem stepChecksInOrder : Obligations.StepChecksInOrder := by
  intro s
  refine ⟨fun hodd => ?misaligned, fun heven hperm => ?notExecutable,
    fun heven hlow hhigh hdirty => ?modified, fun hfetch => ⟨fun hwide => ?wide, fun hill => ?illegal,
      fun hp => ?ebreak, fun a ha => ?load, fun a ha => ?store,
      fun hwide hill hbreak hload hstore => ?other⟩⟩
  case misaligned => exact step_of_raisedBy ⟨hodd, rfl⟩
  case notExecutable => exact step_of_raisedBy ⟨heven, hperm, rfl⟩
  case modified => exact (step_eq_refused_iff s _).2 ⟨rfl, heven, hlow, hhigh, hdirty⟩
  case wide => exact (step_eq_refused_iff s _).2 ⟨rfl, hfetch, hwide⟩
  case illegal => exact step_of_raisedBy ⟨_, fetch_of_fetchable hfetch, hill, rfl⟩
  case ebreak => exact step_of_raisedBy ⟨hp ▸ fetch_of_fetchable hfetch, rfl⟩
  case load =>
    exact ⟨fun h4 => step_of_raisedBy ⟨_, fetch_of_fetchable hfetch, ha, h4⟩,
      fun h4 hperm => step_of_raisedBy ⟨_, fetch_of_fetchable hfetch, ha, h4, hperm⟩,
      fun h4 hperm => step_goes_on hfetch (exec_load_goes_on ha h4 hperm)⟩
  case store =>
    exact ⟨fun h4 => step_of_raisedBy ⟨_, fetch_of_fetchable hfetch, ha, h4⟩,
      fun h4 hperm => step_of_raisedBy ⟨_, fetch_of_fetchable hfetch, ha, h4, hperm⟩,
      fun h4 hperm => step_goes_on hfetch (exec_store_goes_on ha h4 hperm)⟩
  case other =>
    have hstop : stopOf (decode (parcelAt s.pc s)) = none :=
      (stopOf_decode_eq_iff _ none).2 ⟨hill, hbreak, hwide⟩
    exact step_goes_on hfetch (exec_goes_on_of_no_access hstop hload hstore)

/-! ### pc along a run -/

/-- A run from an even pc keeps pc even (10 R26). -/
theorem reaches_keeps_pc_even {s t : State} {n : Nat} (hpc : s.pc.toNat % 2 = 0)
    (h : Reaches s n t) : t.pc.toNat % 2 = 0 := by
  refine reaches_induction (P := fun u => u.pc.toNat % 2 = 0) (fun u v hu hstep => ?_) hpc h
  obtain ⟨-, hexec⟩ := (step_eq_next u v).1 hstep
  exact exec_keeps_pc_even hu hexec

/-- Settles O53: pc stays even along the run, and the exception's row of the table asks for an odd pc. -/
theorem misalignedFetchIsUnreachable : Obligations.MisalignedFetchIsUnreachable := by
  intro pc m image regs n t hpc hrun
  have heven : t.pc.toNat % 2 = 0 := reaches_keeps_pc_even hpc hrun
  refine ⟨heven, fun info q hstep => ?_⟩
  obtain ⟨-, hodd, -⟩ := (step_eq_trap_iff t _ info q).1 hstep
  exact hodd heven

end Sys2Proof.Machine
end

section
/-!
SUPPORT. Every read of the launch state and its invariant, and where a run ends normally, with the
statements of 70_reset_and_hazards.md (R250, R258).
-/

namespace Sys2Proof.Machine

/-! ### The launch state -/

section
variable (pc : Word) (m : MemMap) (image : Memory) (regs : Vector Word 15)

@[simp] theorem readReg_succ_launch (n : Fin 15) :
    readReg n.succ (State.launch pc m image regs) = regs[n] := by
  have hn : n.succ.val ≠ 0 := Nat.succ_ne_zero n
  rw [readReg, dif_neg hn]
  rfl

@[simp] theorem byteAt_launch (a : Word) :
    byteAt a (State.launch pc m image regs) = lookupByte image a.toNat := rfl

@[simp] theorem isDirty_launch (a : Word) : isDirty a (State.launch pc m image regs) = false := rfl

end

/-- A launch from an even pc and a canonical image meets the invariant: its `Dirty` is empty. -/
theorem launch_inv {pc : Word} {image : Memory} (m : MemMap) (regs : Vector Word 15)
    (hpc : pc.toNat % 2 = 0) (hmem : Memory.wf image) : Inv (State.launch pc m image regs) := by
  have hdirty : DirtySet.wf [] := ⟨.nil, nofun⟩
  exact ⟨hpc, hmem, hdirty, fun a ha => nomatch (isDirty_launch pc m image regs a).symm.trans ha⟩

/-- Settles O50: `State.reset` is a launch from an even pc and the empty image. -/
theorem launchMeetsInvariant : Obligations.LaunchMeetsInvariant := by
  have hempty : Memory.wf [] := ⟨.nil, nofun⟩
  exact ⟨fun _ m _ regs hpc hmem => launch_inv m regs hpc hmem, launch_inv _ _ rfl hempty⟩

/-- Settles O51: every read of the launch state is a read of one of its inputs. -/
theorem launchStateIsItsInputs : Obligations.LaunchStateIsItsInputs := by
  intro pc m image regs _ himage
  refine ⟨launch_pc pc m image regs, readReg_zero _, readReg_succ_launch pc m image regs,
    fun a v h => ?_, isDirty_launch pc m image regs, launch_memMap pc m image regs⟩
  rw [byteAt_launch]
  exact lookupByte_of_mem himage.1 h

/-! ### Where a run ends normally -/

/-- A step raises `Breakpoint` with its own pc exactly where the fetch gives C.EBREAK's parcel: no other
row of the table of 60 R210 raises it. -/
theorem step_eq_breakpoint_iff (s : State) (q : Word) :
    step s = .fault (.trap .breakpoint q q) ↔ s.pc = q ∧ fetch s = .next 0x9002 := by
  rw [step_eq_trap_iff]
  constructor
  · rintro ⟨hq, hfetch, -⟩
    exact ⟨hq.symm, hfetch⟩
  · rintro ⟨hq, hfetch⟩
    exact ⟨hq.symm, hfetch, hq.symm⟩

/-- Settles O58: the last step of a run that ends normally is one that `Breakpoint` stops. -/
theorem normalEndIsAtEbreak : Obligations.NormalEndIsAtEbreak := by
  intro s q
  simp only [EndsNormally, step_eq_breakpoint_iff]

end Sys2Proof.Machine
end
